-- ==== Sys2Proof/Word.lean ====
section
/-!
DEFINITION. The widths of the Xoorkle CORE engine (spec/00_scope.md R7, R9): words, blocks, keys, planes, bytes and
lanes as bit vectors. Bit 0 is the least significant bit of every value (R9).
-/

namespace Sys2Proof

/-- A 32-bit register or a 32-bit word of Permutation A (R7, R14). -/
abbrev Word := BitVec 32

/-- A 384-bit block, the unit the permutations and modes act on (R7, R13). -/
abbrev Block := BitVec 384

/-- A key, held as 256 bits; a shorter one is zero-extended (R7, R18). -/
abbrev Key := BitVec 256

/-- One 128-bit plane of Permutation B (R14). -/
abbrev Plane := BitVec 128

/-- A 4-bit lane of a plane (R14). -/
abbrev Lane := BitVec 4

/-- A byte of a block or of a host file (R9). -/
abbrev Byte := BitVec 8

/-- A byte offset into the 4 KiB register window (R16, R35). -/
abbrev Offset := BitVec 12

end Sys2Proof
end

