-- ==== Sys2Proof/Config.lean ====
section
/-!
DEFINITION. What spec/00_scope.md R8 leaves open. The constants without a value (CHAIN_IV, the default keys, the
command latency) are opaque: no proof can see them. The algorithm parameters, each with a default, are a record of
plain data that the machine's state carries and no step changes, so that a statement about every state is a statement
about every value of every parameter (log 6).
-/

namespace Sys2Proof

/-- The order in which a value is cut into words: A_WORD_ORDER and A_KEY_WORD_ORDER of R8 (D22, D23). -/
inductive WordOrder where
  | mswFirst
  | lswFirst
  deriving DecidableEq, Repr

/-- A_ROT_DIR of R8 (D25). -/
inductive RotDir where
  | right
  | left
  deriving DecidableEq, Repr

/-- A_ALZ_CONST of R8 (D26): sub-round j of round r takes K[j] (branch) or K[r] (round). -/
inductive AlzConst where
  | branch
  | round
  deriving DecidableEq, Repr

/-- B_PLANE_ORDER of R8 (D29). -/
inductive PlaneOrder where
  | mspFirst
  | lspFirst
  deriving DecidableEq, Repr

/-- B_CHI_OP of R8 (D32). -/
inductive ChiOp where
  | xor
  | and
  deriving DecidableEq, Repr

/-- A grid shift (a, b) of B_W1, B_W2, B_E1 or B_E2 (R8, D33), before its reduction modulo (8, 4). -/
structure GridShift where
  a : Nat
  b : Nat
  deriving DecidableEq, Repr

/-- B_KEYSTATE of R8 (D34): the zero-extension and split that R78 gives as default, or another function of the key,
which `Config.otherKeyState` stands for. -/
inductive KeyStateRule where
  | zeroExtend
  | other
  deriving DecidableEq, Repr

/-- B_RC of R8 (D35): the nibble-column constants that R79 gives as default, or another function of the key and the
round, which `Config.otherRoundConstant` stands for. -/
inductive RoundConstantRule where
  | nibbleColumn
  | other
  deriving DecidableEq, Repr

/-- The algorithm parameters of R8 that have a default value. -/
structure Params where
  /-- A_WORD_ORDER -/
  aWordOrder : WordOrder
  /-- A_KEY_WORD_ORDER -/
  aKeyWordOrder : WordOrder
  /-- A_ROT_DIR -/
  aRotDir : RotDir
  /-- A_ALZ_CONST -/
  aAlzConst : AlzConst
  /-- B_PLANE_ORDER -/
  bPlaneOrder : PlaneOrder
  /-- B_LANE_INDEX as a table: entry 4i + j is the nibble index of lane (i, j) (R75). -/
  bLaneIndex : List (Fin 32)
  /-- B_APPLY_E -/
  bApplyE : Bool
  /-- B_CHI_OP -/
  bChiOp : ChiOp
  /-- B_W1 -/
  bW1 : GridShift
  /-- B_W2 -/
  bW2 : GridShift
  /-- B_E1 -/
  bE1 : GridShift
  /-- B_E2 -/
  bE2 : GridShift
  /-- B_KEYSTATE -/
  bKeyState : KeyStateRule
  /-- B_RC -/
  bRc : RoundConstantRule
  deriving DecidableEq, Repr

namespace Config

/-- CHAIN_IV, the fixed chaining constant: OPEN (R8, R101, D10). -/
opaque chainIV : Block

/-- DEFAULT_KEY_A: OPEN (R8, R114, D11). -/
opaque defaultKeyA : Key

/-- DEFAULT_KEY_B: OPEN (R8, R114, D11). -/
opaque defaultKeyB : Key

/-- CMD_LATENCY less the one cycle that R160 guarantees, for the n-th accepted command and its word: OPEN, with no
upper bound, and different from command to command (R8, R160, D55; log 4). -/
opaque cmdLatencyBeyondOne : Nat → Word → Nat

/-- A value of B_KEYSTATE other than its default: a free function of the key to three planes (R8, D34; log 9). -/
opaque otherKeyState : Key → Plane × Plane × Plane

/-- A value of B_RC other than its default: a free function of the key and the round (R8, D35; log 9). -/
opaque otherRoundConstant : Key → Nat → Plane

end Config

end Sys2Proof
end

