-- ==== Sys2Proof/Syntax.lean ====
section
/-!
DEFINITION. The commands of the engine (spec/30_encoding.md R48 to R51): one constructor per row of
spec/opcode_table.json, with the row's free fields as arguments.
-/

namespace Sys2Proof

/-- Field ALG (R48): 0 is Permutation A (ARX), 1 is Permutation B (bit-plane). -/
inductive Alg where
  | a
  | b
  deriving DecidableEq, Repr

/-- Field KSEL (R48): 0 uses the KEY registers, 1 the built-in default key of the algorithm. -/
inductive KeySel where
  | registers
  | builtIn
  deriving DecidableEq, Repr

/-- Field MODE (R48): 00 ECB, 01 CBC, 10 CFB, 11 OFB. It is part of an MSTEP's name (R50). -/
inductive Mode where
  | ecb
  | cbc
  | cfb
  | ofb
  deriving DecidableEq, Repr

/-- Field DIR (R48): 0 encrypt, 1 decrypt. It is part of a command's name (R50). -/
inductive Dir where
  | enc
  | dec
  deriving DecidableEq, Repr

/-- The nineteen commands. `fold` is field FOLD, `hasPrev` field HASPREV, and `slen` field SLEN zero-extended to eight
bits (R49). -/
inductive Instr where
  | nop
  | permaE (ksel : KeySel)
  | permaD (ksel : KeySel)
  | permbE (ksel : KeySel)
  | permbD (ksel : KeySel)
  | mstepEcbE (alg : Alg) (fold : Bool) (ksel : KeySel)
  | mstepEcbD (alg : Alg) (fold : Bool) (ksel : KeySel)
  | mstepCbcE (alg : Alg) (fold : Bool) (ksel : KeySel)
  | mstepCbcD (alg : Alg) (fold : Bool) (ksel : KeySel)
  | mstepCfbE (alg : Alg) (fold : Bool) (ksel : KeySel)
  | mstepCfbD (alg : Alg) (fold : Bool) (ksel : KeySel)
  | mstepOfbE (alg : Alg) (fold : Bool) (ksel : KeySel)
  | mstepOfbD (alg : Alg) (fold : Bool) (ksel : KeySel)
  | chainInit
  | digestClear
  | dfold
  | pad (slen : Byte)
  | unpad (hasPrev : Bool)
  | verify
  deriving DecidableEq, Repr

end Sys2Proof
end

