-- ==== Sys2Proof/WellFormed.lean ====
section
/-!
DEFINITION. Which terms stand for something of the spec: an instruction that its encoding can hold, and algorithm
parameters whose lane index is a layout of the grid.
-/

namespace Sys2Proof

/-- An instruction that a command word can hold. Every field but SLEN is exactly as wide in the word as here; SLEN has
six bits in the word (R48) and is zero-extended to eight (R49). SLEN 0 and 48 to 63 are well formed: such a word
matches the PAD row and its command fails with BAD_SLEN (R51, R53). -/
abbrev Instr.WellFormed : Instr → Prop
  | .pad slen => slen < 64
  | _ => True

/-- B_LANE_INDEX gives each of the 32 lanes its own nibble index (R75). -/
abbrev Params.WellFormed (P : Params) : Prop :=
  P.bLaneIndex.length = 32 ∧ P.bLaneIndex.Nodup

end Sys2Proof
end

