-- ==== Sys2Proof/Decode.lean ====
section
/-!
DEFINITION. Decoding and encoding of command words (spec/30_encoding.md R48 to R55). Every command is one 32-bit word
(R55), which the host writes to CMD as a whole: there is no byte order in it (20_memory.md R38).
-/

namespace Sys2Proof

/-- Field OP, bits 7:0 (R49). -/
def opField (w : Word) : Byte :=
  w.extractLsb' 0 8

/-- Field ALG, bit 8 (R49). -/
def algField (w : Word) : Alg :=
  if w.getLsbD 8 then .b else .a

/-- Field FOLD, bit 12 (R49). -/
def foldField (w : Word) : Bool :=
  w.getLsbD 12

/-- Field KSEL, bit 13 (R49). -/
def kselField (w : Word) : KeySel :=
  if w.getLsbD 13 then .builtIn else .registers

/-- Field HASPREV, bit 14 (R49). -/
def hasPrevField (w : Word) : Bool :=
  w.getLsbD 14

/-- Field SLEN, bits 21:16, zero-extended to eight bits (R49). -/
def slenField (w : Word) : Byte :=
  (w.extractLsb' 16 6).setWidth 8

/-- A row of R51's table: a word w encodes the command when w masked with `mask` is `pattern`. -/
structure Row where
  mnemonic : String
  pattern : Word
  mask : Word
  build : Word → Instr

/-- The rows of R51, in its order. -/
def rows : List Row :=
  [⟨"NOP", 0x00000000, 0xFFFFFFFF, fun _ => .nop⟩,
   ⟨"PERMA.E", 0x00000001, 0xFFFFDFFF, fun w => .permaE (kselField w)⟩,
   ⟨"PERMA.D", 0x00000201, 0xFFFFDFFF, fun w => .permaD (kselField w)⟩,
   ⟨"PERMB.E", 0x00000101, 0xFFFFDFFF, fun w => .permbE (kselField w)⟩,
   ⟨"PERMB.D", 0x00000301, 0xFFFFDFFF, fun w => .permbD (kselField w)⟩,
   ⟨"MSTEP.ECB.E", 0x00000002, 0xFFFFCEFF, fun w => .mstepEcbE (algField w) (foldField w) (kselField w)⟩,
   ⟨"MSTEP.ECB.D", 0x00000202, 0xFFFFCEFF, fun w => .mstepEcbD (algField w) (foldField w) (kselField w)⟩,
   ⟨"MSTEP.CBC.E", 0x00000402, 0xFFFFCEFF, fun w => .mstepCbcE (algField w) (foldField w) (kselField w)⟩,
   ⟨"MSTEP.CBC.D", 0x00000602, 0xFFFFCEFF, fun w => .mstepCbcD (algField w) (foldField w) (kselField w)⟩,
   ⟨"MSTEP.CFB.E", 0x00000802, 0xFFFFCEFF, fun w => .mstepCfbE (algField w) (foldField w) (kselField w)⟩,
   ⟨"MSTEP.CFB.D", 0x00000A02, 0xFFFFCEFF, fun w => .mstepCfbD (algField w) (foldField w) (kselField w)⟩,
   ⟨"MSTEP.OFB.E", 0x00000C02, 0xFFFFCEFF, fun w => .mstepOfbE (algField w) (foldField w) (kselField w)⟩,
   ⟨"MSTEP.OFB.D", 0x00000E02, 0xFFFFCEFF, fun w => .mstepOfbD (algField w) (foldField w) (kselField w)⟩,
   ⟨"CHAIN_INIT", 0x00000003, 0xFFFFFFFF, fun _ => .chainInit⟩,
   ⟨"DIGEST_CLEAR", 0x00000004, 0xFFFFFFFF, fun _ => .digestClear⟩,
   ⟨"DFOLD", 0x00000005, 0xFFFFFFFF, fun _ => .dfold⟩,
   ⟨"PAD", 0x00000006, 0xFFC0FFFF, fun w => .pad (slenField w)⟩,
   ⟨"UNPAD", 0x00000007, 0xFFFFBFFF, fun w => .unpad (hasPrevField w)⟩,
   ⟨"VERIFY", 0x00000008, 0xFFFFFFFF, fun _ => .verify⟩]

/-- Whether a word encodes a row's command (R51). -/
def Row.encodes (r : Row) (w : Word) : Bool :=
  w &&& r.mask == r.pattern

/-- Why a word is no command (R52, R53). -/
inductive DecodeError where
  /-- OP is 0x09 to 0xFF (R52). -/
  | illegalOp
  /-- OP is 0x00 to 0x08 but no row matches: a reserved bit, or a field its OP does not use, is set (R53). -/
  | badField
  deriving DecidableEq, Repr

/-- The decoder: the two checks of R113 that need the word alone, in their order, and else the matching row. -/
def decodeWord (w : Word) : Except DecodeError Instr :=
  if opField w ≥ 0x09 then .error .illegalOp
  else
    match rows.find? (fun r => r.encodes w) with
    | some r => .ok (r.build w)
    | none => .error .badField

/-- ALG in bit 8 (R48). -/
def algBits : Alg → Word
  | .a => 0x00000000
  | .b => 0x00000100

/-- FOLD in bit 12 (R48). -/
def foldBits : Bool → Word
  | false => 0x00000000
  | true => 0x00001000

/-- KSEL in bit 13 (R48). -/
def kselBits : KeySel → Word
  | .registers => 0x00000000
  | .builtIn => 0x00002000

/-- HASPREV in bit 14 (R48). -/
def hasPrevBits : Bool → Word
  | false => 0x00000000
  | true => 0x00004000

/-- SLEN in bits 21:16 (R48). -/
def slenBits (slen : Byte) : Word :=
  slen.setWidth 32 <<< 16

/-- The free fields of an MSTEP word (R51). -/
def mstepBits (alg : Alg) (fold : Bool) (ksel : KeySel) : Word :=
  algBits alg ||| foldBits fold ||| kselBits ksel

/-- The command word of a well-formed instruction (R48, R51). -/
def encode : Instr → Word
  | .nop => 0x00000000
  | .permaE ksel => 0x00000001 ||| kselBits ksel
  | .permaD ksel => 0x00000201 ||| kselBits ksel
  | .permbE ksel => 0x00000101 ||| kselBits ksel
  | .permbD ksel => 0x00000301 ||| kselBits ksel
  | .mstepEcbE alg fold ksel => 0x00000002 ||| mstepBits alg fold ksel
  | .mstepEcbD alg fold ksel => 0x00000202 ||| mstepBits alg fold ksel
  | .mstepCbcE alg fold ksel => 0x00000402 ||| mstepBits alg fold ksel
  | .mstepCbcD alg fold ksel => 0x00000602 ||| mstepBits alg fold ksel
  | .mstepCfbE alg fold ksel => 0x00000802 ||| mstepBits alg fold ksel
  | .mstepCfbD alg fold ksel => 0x00000A02 ||| mstepBits alg fold ksel
  | .mstepOfbE alg fold ksel => 0x00000C02 ||| mstepBits alg fold ksel
  | .mstepOfbD alg fold ksel => 0x00000E02 ||| mstepBits alg fold ksel
  | .chainInit => 0x00000003
  | .digestClear => 0x00000004
  | .dfold => 0x00000005
  | .pad slen => 0x00000006 ||| slenBits slen
  | .unpad hasPrev => 0x00000007 ||| hasPrevBits hasPrev
  | .verify => 0x00000008

/-- The command word of an instruction given as the table gives it: `nbits` bits, bit 0 the least significant, the
bits above them 0. A command word has 32 bits (R55). -/
def tableWord (nbits w : Nat) : Word :=
  BitVec.ofNat 32 (w % 2 ^ nbits)

/-- The instruction the decoder reads from the table's word `w` of `nbits` bits. -/
def decodeTableWord (nbits w : Nat) : Option Instr :=
  match decodeWord (tableWord nbits w) with
  | .ok i => some i
  | .error _ => none

/-- The MSTEP command of a mode and a direction (R50). -/
def mstepInstr (m : Mode) (d : Dir) : Alg → Bool → KeySel → Instr :=
  match m, d with
  | .ecb, .enc => .mstepEcbE
  | .ecb, .dec => .mstepEcbD
  | .cbc, .enc => .mstepCbcE
  | .cbc, .dec => .mstepCbcD
  | .cfb, .enc => .mstepCfbE
  | .cfb, .dec => .mstepCfbD
  | .ofb, .enc => .mstepOfbE
  | .ofb, .dec => .mstepOfbD

end Sys2Proof
end

