-- ==== Sys2Proof/Machine/Defaults.lean ====
section
/-!
DEFINITION. The default value of each algorithm parameter of spec/00_scope.md R8: the spec's own choice, made so that
its rules can be run, and no claim about the original software (R8; log 6).
-/

namespace Sys2Proof.Machine

/-- R75's default lane index n = 4i + j: the table's entry 4i + j is 4i + j. -/
def defaultLaneIndex : List (Fin 32) :=
  [0, 1, 2, 3, 4, 5, 6, 7, 8, 9, 10, 11, 12, 13, 14, 15,
   16, 17, 18, 19, 20, 21, 22, 23, 24, 25, 26, 27, 28, 29, 30, 31]

/-- The defaults column of R8. -/
def defaultParams : Params where
  aWordOrder := .mswFirst
  aKeyWordOrder := .mswFirst
  aRotDir := .right
  aAlzConst := .branch
  bPlaneOrder := .mspFirst
  bLaneIndex := defaultLaneIndex
  bApplyE := false
  bChiOp := .xor
  bW1 := ⟨1, 0⟩
  bW2 := ⟨0, 11⟩
  bE1 := ⟨0, 1⟩
  bE2 := ⟨2, 8⟩
  bKeyState := .zeroExtend
  bRc := .nibbleColumn

end Sys2Proof.Machine
end

