-- ==== Sys2Proof/Machine/State.lean ====
section
/-!
DEFINITION. The state of the engine (spec/10_state.md R15 to R34) as plain data, the host's and the platform's inputs
to come, and the machine right after reset (R34, 70_reset_and_hazards.md R151).
-/

namespace Sys2Proof.Machine

/-- The error codes of STATUS.ERRCODE (R136). Codes 5 to 15 are never reported (93 I8). -/
inductive ErrCode where
  | none
  | illegalOp
  | badField
  | badSlen
  | keyMissing
  deriving DecidableEq, Repr

/-- The fields of STATUS that the engine stores (R28). KEY_LOADED is a copy of the hidden bit, and bits 31:18 read as
zero, so neither is stored here. The field defaults are the reset values. -/
structure Status where
  /-- Bit 0: a command is accepted and not complete. -/
  busy : Bool := false
  /-- Bit 1: the last accepted command has completed, with or without error. -/
  done : Bool := false
  /-- Bit 2, ERR: the last completed command failed. -/
  err : Bool := false
  /-- Bit 4, MATCH: the result of VERIFY. -/
  matched : Bool := false
  /-- Bit 5: the result of PAD, DOUT2 holds a sentinel block. -/
  extra : Bool := false
  /-- Bit 6: the result of UNPAD, the last block is a sentinel to drop. -/
  drop : Bool := false
  /-- Bit 7: a host write was dropped because BUSY was 1. -/
  ovr : Bool := false
  /-- Bits 11:8, ERRCODE. -/
  errCode : ErrCode := .none
  /-- Bits 17:12: the result of UNPAD, the number of bytes to strip. -/
  strip : BitVec 6 := 0
  deriving DecidableEq, Repr

/-- The pending command (R30, R112): the accepted word and the number of cycles left to its completion. -/
structure Pending where
  word : Word
  cyclesLeft : Nat
  deriving DecidableEq, Repr

/-- The mapped registers of the window (R16). -/
inductive Reg where
  | id
  | cmd
  | status
  | ctrl
  | key (k : Fin 8)
  | din (k : Fin 12)
  | din2 (k : Fin 12)
  | dout (k : Fin 12)
  | dout2 (k : Fin 12)
  | chain (k : Fin 12)
  | digest (k : Fin 12)
  deriving DecidableEq, Repr

/-- The width of a host access (R36): only 32 bits is served, the others are refused. -/
inductive Width where
  | w8
  | w16
  | w32
  | w64
  deriving DecidableEq, Repr

/-- A host step (R58): one bus transaction at a byte offset of the window. -/
inductive Access where
  | read (width : Width) (off : Offset)
  | write (width : Width) (off : Offset) (value : Word)
  deriving DecidableEq, Repr

/-- What reaches the engine from outside, each as one atomic step: a host access (R6), the external reset input RST or
power-on (R150). -/
inductive Event where
  | access (a : Access)
  | extReset
  | powerOn
  deriving DecidableEq, Repr

/-- The engine's answer to a host access (R58): ok or error, and the data of a read. -/
inductive Response where
  | okWrite
  | okRead (data : Word)
  | errWrite
  | errRead (data : Word)
  deriving DecidableEq, Repr

/-- The whole state: the engine's registers and hidden state (R15, R30), and four fields of the model's own. -/
structure State where
  /-- CMD readback: the last accepted command word (R27). -/
  cmd : Word
  /-- STATUS (R28). -/
  status : Status
  /-- CTRL.IE, the interrupt enable (R29). -/
  ie : Bool
  /-- KEY_LOADED, the hidden bit (R25, R30). -/
  keyLoaded : Bool
  /-- The key group KEY[0] ‖ ... ‖ KEY[7] (R18, R25). -/
  key : Key
  /-- DIN[0] ‖ ... ‖ DIN[11] (R17, R19). -/
  din : Block
  /-- DIN2 (R20). -/
  din2 : Block
  /-- DOUT (R21). -/
  dout : Block
  /-- DOUT2 (R22). -/
  dout2 : Block
  /-- CHAIN (R23). -/
  chain : Block
  /-- DIGEST (R24). -/
  digest : Block
  /-- The pending command (R30). -/
  pending : Option Pending
  /-- The model's own: the algorithm parameters (R8), which no step changes (log 6). -/
  params : Params
  /-- The model's own: how many command latencies have been drawn (R160, log 4). -/
  latencyIndex : Nat
  /-- The model's own: what is still to reach the engine, oldest first (log 2). -/
  hostQueue : List Event
  /-- The model's own: the bus's answers so far, oldest first (log 3). -/
  responses : List Response
  deriving DecidableEq, Repr

/-- The reasons the machine stops with a fault. There is none: the engine never stops by itself and has no halt state
(70_reset_and_hazards.md R161), a command error is a next state (60_exceptions.md R138), and a refused access is an
answer on the bus (R37, R140). -/
inductive Fault where
  deriving DecidableEq, Repr

/-- The reasons a command has no meaning. -/
inductive Refusal where
  /-- Raised by an arm of `exec` whose command has no meaning yet; no arm does. Safe: no step is claimed. -/
  | notModelled (mnemonic : String)
  deriving DecidableEq, Repr

/-- The machine right after reset (R34, R151). CHAIN_IV is OPEN (log 7). Of the model's own fields, the parameters
start at the defaults of R8 (log 6), and nothing is to come from the host (log 2). -/
def State.reset : State where
  cmd := 0
  status := {}
  ie := false
  keyLoaded := false
  key := 0
  din := 0
  din2 := 0
  dout := 0
  dout2 := 0
  chain := Config.chainIV
  digest := 0
  pending := none
  params := defaultParams
  latencyIndex := 0
  hostQueue := []
  responses := []

end Sys2Proof.Machine
end

