-- ==== Sys2Proof/Machine/Flags.lean ====
section
/-!
DEFINITION. The control and status registers as the host reads them (spec/10_state.md R26, R28, R29), and the interrupt
output (60_exceptions.md R141).
-/

namespace Sys2Proof.Machine

/-- The four bits of ERRCODE (R136). -/
def errCodeBits : ErrCode → BitVec 4
  | .none => 0
  | .illegalOp => 1
  | .badField => 2
  | .badSlen => 3
  | .keyMissing => 4

/-- The ID register, "XORK" (R26). -/
def idWord : Word :=
  0x584F524B

/-- STATUS as a word, from bit 31 down (R28): bits 31:18 read as zero, and bit 3 is a copy of KEY_LOADED. -/
def statusWord (s : State) : Word :=
  (0 : BitVec 14) ++ s.status.strip ++ errCodeBits s.status.errCode ++
    BitVec.ofBool s.status.ovr ++ BitVec.ofBool s.status.drop ++ BitVec.ofBool s.status.extra ++
    BitVec.ofBool s.status.matched ++ BitVec.ofBool s.keyLoaded ++ BitVec.ofBool s.status.err ++
    BitVec.ofBool s.status.done ++ BitVec.ofBool s.status.busy

/-- CTRL as a word (R29): IE in bit 0, SRST and the reserved bits read as zero. -/
def ctrlWord (s : State) : Word :=
  (0 : BitVec 31) ++ BitVec.ofBool s.ie

/-- The interrupt output, a level signal (R141). -/
def irq (s : State) : Bool :=
  s.ie && (s.status.done || s.status.err)

end Sys2Proof.Machine
end

