-- ==== Sys2Proof/Machine/PermA.lean ====
section
/-!
DEFINITION. Permutation A, the ARX core (spec/40_perm_a_arx.md R59 to R71): the functions E_A and D_A, for every value
of the A parameters of R8.
-/

namespace Sys2Proof.Machine

/-- A pair of adjacent words (R14): `x` is the word the additions go into, `y` its partner (D24). -/
structure Pair where
  x : Word
  y : Word
  deriving DecidableEq, Repr

/-- The twelve words w[0..11] of a block as six pairs: pair j is (w[2j], w[2j+1]) (R14, R59). -/
structure AWords where
  p0 : Pair
  p1 : Pair
  p2 : Pair
  p3 : Pair
  p4 : Pair
  p5 : Pair
  deriving DecidableEq, Repr

/-- Word w[k] of a block (R59): `b[383-32k : 352-32k]` (msw_first) or `b[32k+31 : 32k]` (lsw_first). -/
def blockAWord (P : Params) (b : Block) (k : Nat) : Word :=
  match P.aWordOrder with
  | .mswFirst => b.extractLsb' (352 - 32 * k) 32
  | .lswFirst => b.extractLsb' (32 * k) 32

/-- `block_to_words` of R59, grouped in pairs. -/
def blockToWords (P : Params) (b : Block) : AWords where
  p0 := ⟨blockAWord P b 0, blockAWord P b 1⟩
  p1 := ⟨blockAWord P b 2, blockAWord P b 3⟩
  p2 := ⟨blockAWord P b 4, blockAWord P b 5⟩
  p3 := ⟨blockAWord P b 6, blockAWord P b 7⟩
  p4 := ⟨blockAWord P b 8, blockAWord P b 9⟩
  p5 := ⟨blockAWord P b 10, blockAWord P b 11⟩

/-- `words_to_block` of R59: w[0] is the most significant word under msw_first, the least under lsw_first. -/
def wordsToBlock (P : Params) (w : AWords) : Block :=
  match P.aWordOrder with
  | .mswFirst =>
    w.p0.x ++ w.p0.y ++ w.p1.x ++ w.p1.y ++ w.p2.x ++ w.p2.y ++
      w.p3.x ++ w.p3.y ++ w.p4.x ++ w.p4.y ++ w.p5.x ++ w.p5.y
  | .lswFirst =>
    w.p5.y ++ w.p5.x ++ w.p4.y ++ w.p4.x ++ w.p3.y ++ w.p3.x ++
      w.p2.y ++ w.p2.x ++ w.p1.y ++ w.p1.x ++ w.p0.y ++ w.p0.x

/-- Round constant K[i] of a key (R60). -/
def keyWord (P : Params) (k : Key) (i : Nat) : Word :=
  match P.aKeyWordOrder with
  | .mswFirst => k.extractLsb' (224 - 32 * i) 32
  | .lswFirst => k.extractLsb' (32 * i) 32

/-- The sub-round rotation rotA (R61); the amount is reduced modulo 32 (R10). -/
def rotA (P : Params) (x : Word) (n : Nat) : Word :=
  match P.aRotDir with
  | .right => x.rotateRight n
  | .left => x.rotateLeft n

/-- The diffusion function l (R62). -/
def ell (x : Word) : Word :=
  x.rotateLeft 16 ^^^ (x &&& 0xFFFF#32)

/-- One repetition of the ARX sub-round with the rotation pair `r` (R63). -/
def alzStep (P : Params) (c : Word) (p : Pair) (r : Nat × Nat) : Pair :=
  let x := p.x + rotA P p.y r.1
  let y := p.y ^^^ rotA P x r.2
  ⟨x ^^^ c, y⟩

/-- The inverse of one repetition (R64). -/
def alzStepInv (P : Params) (c : Word) (p : Pair) (r : Nat × Nat) : Pair :=
  let x := p.x ^^^ c
  let y := p.y ^^^ rotA P x r.2
  ⟨x - rotA P y r.1, y⟩

/-- The four rotation pairs of the sub-round, in their order (R7, R63). -/
def alzRotations : List (Nat × Nat) :=
  [(31, 24), (17, 17), (0, 31), (24, 16)]

/-- The ARX sub-round alz (R63). -/
def alz (P : Params) (c : Word) (p : Pair) : Pair :=
  alzRotations.foldl (alzStep P c) p

/-- The inverse sub-round alz_inv (R64): the same amounts in reverse order. -/
def alzInv (P : Params) (c : Word) (p : Pair) : Pair :=
  alzRotations.reverse.foldl (alzStepInv P c) p

/-- The accumulator l(a ^ b ^ c) of the linear layer (R65). -/
def accumulator (a b c : Word) : Word :=
  ell (a ^^^ b ^^^ c)

/-- A pair of the second half mixed with its partner of the first half and the two accumulators; x takes ty and y
takes tx (R65). XOR makes it its own inverse (R66). -/
def mixPair (tx ty : Word) (hi lo : Pair) : Pair :=
  ⟨hi.x ^^^ lo.x ^^^ ty, hi.y ^^^ lo.y ^^^ tx⟩

/-- The linear layer L (R65). -/
def linearLayer (w : AWords) : AWords :=
  let tx := accumulator w.p0.x w.p1.x w.p2.x
  let ty := accumulator w.p0.y w.p1.y w.p2.y
  { p0 := mixPair tx ty w.p4 w.p1
    p1 := mixPair tx ty w.p5 w.p2
    p2 := mixPair tx ty w.p3 w.p0
    p3 := w.p0
    p4 := w.p1
    p5 := w.p2 }

/-- The inverse linear layer L_inv (R66): the accumulators are rebuilt from the first pairs, l is never inverted. -/
def linearLayerInv (w : AWords) : AWords :=
  let tx := accumulator w.p3.x w.p4.x w.p5.x
  let ty := accumulator w.p3.y w.p4.y w.p5.y
  { p0 := w.p3
    p1 := w.p4
    p2 := w.p5
    p3 := mixPair tx ty w.p2 w.p3
    p4 := mixPair tx ty w.p0 w.p4
    p5 := mixPair tx ty w.p1 w.p5 }

/-- C(r, j), the constant that sub-round j of round r injects (R67, parameter A_ALZ_CONST). -/
def alzConstant (P : Params) (k : Key) (r j : Nat) : Word :=
  match P.aAlzConst with
  | .branch => keyWord P k j
  | .round => keyWord P k r

/-- Step 1 of round r: K[r] into w[1] and the round index into w[3] (R67). XOR makes it its own inverse (R68). -/
def injectRound (P : Params) (k : Key) (r : Nat) (w : AWords) : AWords :=
  { w with
    p0 := { w.p0 with y := w.p0.y ^^^ keyWord P k r }
    p1 := { w.p1 with y := w.p1.y ^^^ BitVec.ofNat 32 r } }

/-- A function of the pair number applied to each of the six pairs (R67 step 2, R68). -/
def mapPairs (f : Nat → Pair → Pair) (w : AWords) : AWords where
  p0 := f 0 w.p0
  p1 := f 1 w.p1
  p2 := f 2 w.p2
  p3 := f 3 w.p3
  p4 := f 4 w.p4
  p5 := f 5 w.p5

/-- Round r of Permutation A (R67). -/
def roundA (P : Params) (k : Key) (w : AWords) (r : Nat) : AWords :=
  linearLayer (mapPairs (fun j => alz P (alzConstant P k r j)) (injectRound P k r w))

/-- The inverse of round r (R68). -/
def roundAInv (P : Params) (k : Key) (w : AWords) (r : Nat) : AWords :=
  injectRound P k r (mapPairs (fun j => alzInv P (alzConstant P k r j)) (linearLayerInv w))

/-- The round numbers 0 to 7 of both permutations (R7). -/
def rounds : List Nat :=
  [0, 1, 2, 3, 4, 5, 6, 7]

/-- E_A (R69). -/
def encryptA (P : Params) (b : Block) (k : Key) : Block :=
  wordsToBlock P (rounds.foldl (roundA P k) (blockToWords P b))

/-- D_A (R70). -/
def decryptA (P : Params) (b : Block) (k : Key) : Block :=
  wordsToBlock P (rounds.reverse.foldl (roundAInv P k) (blockToWords P b))

end Sys2Proof.Machine
end

