-- ==== Sys2Proof/Machine/PermB.lean ====
section
/-!
DEFINITION. Permutation B, the bit-plane core (spec/41_perm_b_bitplane.md R74 to R88): the functions E_B and D_B, for
every value of the B parameters of R8. Plane 2 is always derived from the shifted plane 1 (R81, R83, 93 I13).
-/

namespace Sys2Proof.Machine

/-- Three planes: the data planes D0, D1, D2 or the state planes A0, A1, A2 (R14). -/
structure Planes where
  p0 : Plane
  p1 : Plane
  p2 : Plane
  deriving DecidableEq, Repr

/-- The split of a 384-bit value into three planes (R74). -/
def planesOf (P : Params) (b : Block) : Planes :=
  match P.bPlaneOrder with
  | .mspFirst => ⟨b.extractLsb' 256 128, b.extractLsb' 128 128, b.extractLsb' 0 128⟩
  | .lspFirst => ⟨b.extractLsb' 0 128, b.extractLsb' 128 128, b.extractLsb' 256 128⟩

/-- `planes_to_block` (R74). -/
def planesToBlock (P : Params) (d : Planes) : Block :=
  match P.bPlaneOrder with
  | .mspFirst => d.p0 ++ d.p1 ++ d.p2
  | .lspFirst => d.p2 ++ d.p1 ++ d.p0

/-- The nibble index of lane (i, j) (R75, parameter B_LANE_INDEX). -/
def laneIndex (P : Params) (i j : Nat) : Nat :=
  ((P.bLaneIndex[4 * i + j]?).getD 0).val

/-- Lane (i, j) of a plane: `P[4n+3 : 4n]` with n its nibble index (R75). -/
def lane (P : Params) (p : Plane) (i j : Nat) : Lane :=
  p.extractLsb' (4 * laneIndex P i j) 4

/-- The plane whose lane (i, j) is `v` and whose other lanes are zero. -/
def laneAt (P : Params) (i j : Nat) (v : Lane) : Plane :=
  v.setWidth 128 <<< (4 * laneIndex P i j)

/-- The 32 coordinates (i, j) of the 8 x 4 grid (R75). -/
def gridCoords : List (Nat × Nat) :=
  [0, 1, 2, 3, 4, 5, 6, 7].flatMap fun i => [(i, 0), (i, 1), (i, 2), (i, 3)]

/-- The cyclic plane shift sh(P, (a, b)) (R77): lane (i, j) of the result is lane ((i - a) mod 8, (j - b) mod 4). The
lanes are put together by OR, since each has its own four bits of the plane (log 8). -/
def shiftPlane (P : Params) (s : GridShift) (p : Plane) : Plane :=
  gridCoords.foldl
    (fun q c => q ||| laneAt P c.1 c.2 (lane P p ((c.1 + (8 - s.a % 8)) % 8) ((c.2 + (4 - s.b % 4)) % 4))) 0

/-- The key state B_KEYSTATE (R78): by default the planes of the key zero-extended to 384 bits. -/
def keyState (P : Params) (k : Key) : Planes :=
  match P.bKeyState with
  | .zeroExtend => planesOf P (k.setWidth 384)
  | .other =>
    let a := Config.otherKeyState k
    ⟨a.1, a.2.1, a.2.2⟩

/-- Nibble-column `r` of a plane, the lanes (r, 0) to (r, 3) (R75), filled with 16 bits. Under the default lane index it
is the plane's bits 16r + 15 to 16r, so that lane (r, j) takes bits 4j + 3 to 4j (R75, R79). DESIGN CHOICE: under every
other B_LANE_INDEX the spec does not say which lane takes which four bits, and the model keeps that order (log 21). -/
def nibbleColumn (P : Params) (r : Nat) (v : BitVec 16) : Plane :=
  [0, 1, 2, 3].foldl (fun q j => q ||| laneAt P r j (v.extractLsb' (4 * j) 4)) 0

/-- The round constant B_RC (R79): by default nibble-column r holds the key bits 16r + 15 to 16r. -/
def roundConstant (P : Params) (k : Key) (r : Nat) : Plane :=
  match P.bRc with
  | .nibbleColumn => nibbleColumn P r (k.extractLsb' (16 * r) 16)
  | .other => Config.otherRoundConstant k r

/-- A function applied to each plane. -/
def mapPlanes (f : Plane → Plane) (a : Planes) : Planes :=
  ⟨f a.p0, f a.p1, f a.p2⟩

/-- The mixing value e of step 1: the column parity shifted by (1, 5) and by (1, 14) (R80). -/
def mixingValue (P : Params) (a : Planes) : Plane :=
  let p := a.p0 ^^^ a.p1 ^^^ a.p2
  shiftPlane P ⟨1, 5⟩ p ^^^ shiftPlane P ⟨1, 14⟩ p

/-- Step 1 (R80): e changes the state only when B_APPLY_E is true. -/
def stateStep1 (P : Params) (a : Planes) : Planes :=
  let e := mixingValue P a
  if P.bApplyE then mapPlanes (· ^^^ e) a else a

/-- Plane 1 shifted by `s1`, and plane 2 derived from the shifted plane 1 by `s2`; the old plane 2 is discarded
(R81, R83). -/
def deriveFromPlane1 (P : Params) (s1 s2 : GridShift) (a : Planes) : Planes :=
  let a1 := shiftPlane P s1 a.p1
  ⟨a.p0, a1, shiftPlane P s2 a1⟩

/-- Step 2 (R81). -/
def stateStep2 (P : Params) (rc : Plane) (a : Planes) : Planes :=
  deriveFromPlane1 P P.bW1 P.bW2 { a with p0 := a.p0 ^^^ rc }

/-- The operation of the nonlinear layer (R82, parameter B_CHI_OP). -/
def chiOp (P : Params) (u v : Plane) : Plane :=
  match P.bChiOp with
  | .xor => u ^^^ v
  | .and => u &&& v

/-- Step 3 (R82): each plane takes op(~ its next neighbour, its second next), all from the planes as step 2 left
them. The complement is within the plane (R76). -/
def stateStep3 (P : Params) (a : Planes) : Planes :=
  ⟨a.p0 ^^^ chiOp P (~~~a.p1) a.p2, a.p1 ^^^ chiOp P (~~~a.p2) a.p0, a.p2 ^^^ chiOp P (~~~a.p0) a.p1⟩

/-- Step 4 (R83). -/
def stateStep4 (P : Params) (a : Planes) : Planes :=
  deriveFromPlane1 P P.bE1 P.bE2 a

/-- Steps 1 to 4 of round r (R80 to R83). -/
def stateRound (P : Params) (k : Key) (r : Nat) (a : Planes) : Planes :=
  stateStep4 P (stateStep3 P (stateStep2 P (roundConstant P k r) (stateStep1 P a)))

/-- The state planes after each of the given rounds (R84): each round goes on from the one before it. -/
def scheduleFrom (P : Params) (k : Key) : List Nat → Planes → List Planes
  | [], _ => []
  | r :: rs, a => stateRound P k r a :: scheduleFrom P k rs (stateRound P k r a)

/-- The schedule S_0 to S_7 of a key (R84). -/
def schedule (P : Params) (k : Key) : List Planes :=
  scheduleFrom P k rounds (keyState P k)

/-- The XOR of three planes into three planes (R85, R87). -/
def xorPlanes (d s : Planes) : Planes :=
  ⟨d.p0 ^^^ s.p0, d.p1 ^^^ s.p1, d.p2 ^^^ s.p2⟩

/-- rho: plane 0 takes plane 1, plane 1 takes plane 2, plane 2 takes plane 0 (R85). -/
def rho (d : Planes) : Planes :=
  ⟨d.p1, d.p2, d.p0⟩

/-- rho_inv (R85). -/
def rhoInv (d : Planes) : Planes :=
  ⟨d.p2, d.p0, d.p1⟩

/-- The data round dataB (R85). -/
def dataRound (d s : Planes) : Planes :=
  rho (xorPlanes d s)

/-- The inverse data round (R87). -/
def dataRoundInv (d s : Planes) : Planes :=
  xorPlanes (rhoInv d) s

/-- E_B (R86). -/
def encryptB (P : Params) (b : Block) (k : Key) : Block :=
  planesToBlock P ((schedule P k).foldl dataRound (planesOf P b))

/-- D_B (R87): the recorded schedule applied in reverse round order. -/
def decryptB (P : Params) (b : Block) (k : Key) : Block :=
  planesToBlock P ((schedule P k).reverse.foldl dataRoundInv (planesOf P b))

end Sys2Proof.Machine
end

