-- ==== Sys2Proof/Machine/Operands.lean ====
section
/-!
DEFINITION. The operands of commands and host accesses: the 32-bit registers of a group (spec/10_state.md R17, R18),
the map of the window (R16), the effective key (44_command_control.md R114) and the two permutations behind their
common capability (00_scope.md R3).
-/

namespace Sys2Proof.Machine

/-- A value with the 32 bits from bit `lo` up replaced by a word. -/
def setWordAt {n : Nat} (g : BitVec n) (lo : Nat) (v : Word) : BitVec n :=
  (g &&& ~~~((BitVec.allOnes 32).setWidth n <<< lo)) ||| (v.setWidth n <<< lo)

/-- Register G[k] of a 384-bit group: bits `383-32k : 352-32k` (R17). -/
def groupWord (g : Block) (k : Fin 12) : Word :=
  g.extractLsb' (352 - 32 * k.val) 32

/-- The group with register G[k] replaced (R17). -/
def setGroupWord (g : Block) (k : Fin 12) (v : Word) : Block :=
  setWordAt g (352 - 32 * k.val) v

/-- Register KEY[k]: bits `255-32k : 224-32k` (R18). -/
def keyGroupWord (g : Key) (k : Fin 8) : Word :=
  g.extractLsb' (224 - 32 * k.val) 32

/-- The key group with KEY[k] replaced (R18). -/
def setKeyGroupWord (g : Key) (k : Fin 8) (v : Word) : Key :=
  setWordAt g (224 - 32 * k.val) v

/-- The index of an offset in a run of `n` registers that starts at `base`, if it is in the run (R16). -/
def runIndex (n base off : Nat) : Option (Fin n) :=
  if h : base ≤ off ∧ (off - base) / 4 < n then some ⟨(off - base) / 4, h.2⟩ else none

/-- The register at an offset (R16): none where the offset is misaligned (R36) or unmapped. -/
def regAt (off : Offset) : Option Reg :=
  let n := off.toNat
  if n % 4 ≠ 0 then none
  else if n = 0x000 then some .id
  else if n = 0x004 then some .cmd
  else if n = 0x008 then some .status
  else if n = 0x00C then some .ctrl
  else
    ((runIndex 8 0x020 n).map .key).orElse fun _ =>
    ((runIndex 12 0x080 n).map .din).orElse fun _ =>
    ((runIndex 12 0x0C0 n).map .din2).orElse fun _ =>
    ((runIndex 12 0x100 n).map .dout).orElse fun _ =>
    ((runIndex 12 0x140 n).map .dout2).orElse fun _ =>
    ((runIndex 12 0x180 n).map .chain).orElse fun _ =>
    (runIndex 12 0x1C0 n).map .digest

/-- The offset of a register (R16). -/
def Reg.offset : Reg → Offset
  | .id => 0x000
  | .cmd => 0x004
  | .status => 0x008
  | .ctrl => 0x00C
  | .key k => BitVec.ofNat 12 (0x020 + 4 * k.val)
  | .din k => BitVec.ofNat 12 (0x080 + 4 * k.val)
  | .din2 k => BitVec.ofNat 12 (0x0C0 + 4 * k.val)
  | .dout k => BitVec.ofNat 12 (0x100 + 4 * k.val)
  | .dout2 k => BitVec.ofNat 12 (0x140 + 4 * k.val)
  | .chain k => BitVec.ofNat 12 (0x180 + 4 * k.val)
  | .digest k => BitVec.ofNat 12 (0x1C0 + 4 * k.val)

/-- The access column of R16: whether the host may write the register. -/
def Reg.writable : Reg → Bool
  | .cmd | .ctrl | .key _ | .din _ | .din2 _ | .chain _ => true
  | .id | .status | .dout _ | .dout2 _ | .digest _ => false

/-- The common capability of the two permutations under one key (R3). -/
structure Cipher where
  enc : Block → Block
  dec : Block → Block

/-- The permutation that ALG selects, under a key (R3, R92). -/
def cipher (P : Params) (alg : Alg) (k : Key) : Cipher :=
  match alg with
  | .a => ⟨fun b => encryptA P b k, fun b => decryptA P b k⟩
  | .b => ⟨fun b => encryptB P b k, fun b => decryptB P b k⟩

/-- The effective key of a command that uses one (R114). -/
def effKey (ksel : KeySel) (alg : Alg) (s : State) : Key :=
  match ksel, alg with
  | .registers, _ => s.key
  | .builtIn, .a => Config.defaultKeyA
  | .builtIn, .b => Config.defaultKeyB

/-- Whether a command that uses a key lacks one (R113 check 4). -/
def keyMissing (ksel : KeySel) (s : State) : Bool :=
  match ksel with
  | .registers => !s.keyLoaded
  | .builtIn => false

end Sys2Proof.Machine
end

