-- ==== Sys2Proof/Machine/Ops.lean ====
section
/-!
DEFINITION. The shared operations of the engine: reset (spec/70_reset_and_hazards.md R151), accept and completion
(44_command_control.md R112, R115), the command error, the engine's one exception (60_exceptions.md R138), and the host
accesses (20_memory.md R36, R37; 44 R117 to R120).
-/

namespace Sys2Proof.Machine

/-- Every reset source sets each state element to its reset value (R150, R151) and abandons a pending command (R152).
The parameters, the host's future and past, and the count of latencies drawn are no state of the engine. -/
def resetEngine (s : State) : State :=
  { State.reset with
    params := s.params
    latencyIndex := s.latencyIndex
    hostQueue := s.hostQueue
    responses := s.responses }

/-- Accept of a word that is to complete after `latency` cycles (R112): every result field is cleared, BUSY is set.
KEY_LOADED is not stored in `Status` and keeps its value. 70_reset_and_hazards.md R157 has MATCH, EXTRA, STRIP and DROP
hold their previous values until the completion, against R28, R111, R112, R116 and R118, and no model meets both; this
one follows those five (DESIGN CHOICE, log 22). -/
def acceptWith (latency : Nat) (w : Word) (s : State) : State :=
  { s with
    cmd := w
    status := { busy := true }
    pending := some ⟨w, latency⟩ }

/-- Accept with CMD_LATENCY, a free value of at least one cycle (R112, R160; log 4). -/
def accept (w : Word) (s : State) : State :=
  acceptWith (Config.cmdLatencyBeyondOne s.latencyIndex w + 1) w { s with latencyIndex := s.latencyIndex + 1 }

/-- What the completion of a valid command does beside its results (R115): DONE, BUSY and the pending record. -/
def complete (s : State) : State :=
  { s with
    status := { s.status with done := true, busy := false }
    pending := none }

/-- Error entry, `raise CmdError(e)` (R138): the whole completion step of a command whose validation fails. Nothing is
saved and no control is transferred (R135). The exit is the next accept, or a reset (R139). -/
def commandError (e : ErrCode) (s : State) : State :=
  { s with
    status := { s.status with err := true, errCode := e, done := true, busy := false }
    pending := none }

/-- The outcome of a command that passed its checks, with its results committed in the one completion step (R115). -/
def succeed (s : State) : Host.Outcome State Fault Refusal :=
  .next (complete s)

/-- The outcome of a command that failed a check (R115, R138). -/
def failWith (e : ErrCode) (s : State) : Host.Outcome State Fault Refusal :=
  .next (commandError e s)

/-- The completion of a command that uses a key (R113 check 4, R115): KEY_MISSING, or the results under the effective
key. -/
def withKey (ksel : KeySel) (alg : Alg) (s : State) (results : Key → State) : Host.Outcome State Fault Refusal :=
  if keyMissing ksel s then failWith .keyMissing s else succeed (results (effKey ksel alg s))

/-- One engine cycle of a pending command (R160). -/
def tick (s : State) : State :=
  { s with pending := s.pending.map fun p => { p with cyclesLeft := p.cyclesLeft - 1 } }

/-- The value a host read of a register returns (R26 to R29, R17, R18). -/
def readReg (r : Reg) (s : State) : Word :=
  match r with
  | .id => idWord
  | .cmd => s.cmd
  | .status => statusWord s
  | .ctrl => ctrlWord s
  | .key k => keyGroupWord s.key k
  | .din k => groupWord s.din k
  | .din2 k => groupWord s.din2 k
  | .dout k => groupWord s.dout k
  | .dout2 k => groupWord s.dout2 k
  | .chain k => groupWord s.chain k
  | .digest k => groupWord s.digest k

/-- A host write to CTRL (R119, R120): SRST resets at once and the write's IE bit is ignored; else IE is written. -/
def writeCtrl (v : Word) (s : State) : State :=
  if v.getLsbD 1 then resetEngine s else { s with ie := v.getLsbD 0 }

/-- The effect of a host write that is neither refused nor dropped (R120). A read-only register has no such write. -/
def writeReg (r : Reg) (v : Word) (s : State) : State :=
  match r with
  | .cmd => accept v s
  | .ctrl => writeCtrl v s
  | .key k => { s with key := setKeyGroupWord s.key k v, keyLoaded := true }
  | .din k => { s with din := setGroupWord s.din k v }
  | .din2 k => { s with din2 := setGroupWord s.din2 k v }
  | .chain k => { s with chain := setGroupWord s.chain k v }
  | .id | .status | .dout _ | .dout2 _ | .digest _ => s

/-- The register an access reaches: none where the width is not 32 bits, or the offset is misaligned or unmapped, so
that the access is refused (R36, R37). -/
def target (width : Width) (off : Offset) : Option Reg :=
  match width with
  | .w32 => regAt off
  | .w8 | .w16 | .w64 => none

/-- A host write that was dropped because BUSY was 1 (R117). -/
def dropWrite (s : State) : State :=
  { s with status := { s.status with ovr := true } }

/-- A host read (R37, R40, R118): no side effect, and a refused read returns the data 0. -/
def busRead (width : Width) (off : Offset) (s : State) : Response :=
  match target width off with
  | some r => .okRead (readReg r s)
  | none => .errRead 0

/-- A host write (R37, R117, R120): refused, dropped or taken. A write to CTRL is never dropped. -/
def busWrite (width : Width) (off : Offset) (v : Word) (s : State) : Response × State :=
  match target width off with
  | none => (.errWrite, s)
  | some r =>
    if !r.writable then (.errWrite, s)
    else if s.status.busy && r != .ctrl then (.okWrite, dropWrite s)
    else (.okWrite, writeReg r v s)

/-- One bus transaction (R58): the engine's answer and its state after. -/
def exchange (a : Access) (s : State) : Response × State :=
  match a with
  | .read width off => (busRead width off s, s)
  | .write width off v => busWrite width off v s

/-- One host access or platform reset, as one atomic step (R42, R150); the answer to an access is kept (log 3). -/
def applyEvent (e : Event) (s : State) : State :=
  match e with
  | .access a =>
    let t := exchange a s
    { t.2 with responses := t.2.responses ++ [t.1] }
  | .extReset => resetEngine s
  | .powerOn => resetEngine s

/-- The next thing that reaches the engine from outside, if there is one; an idle engine keeps all its state (R148). -/
def hostTurn (s : State) : State :=
  match s.hostQueue with
  | [] => s
  | e :: rest => applyEvent e { s with hostQueue := rest }

/-- The state in which a command word has been accepted and is due: its completion is the very next step (log 1). -/
def placeCommand (w : Word) (s : State) : State :=
  acceptWith 1 w s

end Sys2Proof.Machine
end

