-- ==== Sys2Proof/Machine/Control.lean ====
section
/-!
DEFINITION. The command that does nothing but complete (spec/44_command_control.md R111).
-/

namespace Sys2Proof.Machine

/-- NOP (R111). -/
def execNop (s : State) : Host.Outcome State Fault Refusal :=
  succeed s

end Sys2Proof.Machine
end

