-- ==== Sys2Proof/Machine/Modes.lean ====
section
/-!
DEFINITION. The mode-of-operation engine (spec/42_mode_engine.md R91 to R102): one block per MSTEP, CHAIN_INIT, and the
sequence functions the stream laws speak of.
-/

namespace Sys2Proof.Machine

/-- What a mode rule computes from a block x and the chaining value c (R92): the output block y and the new chaining
value c'. -/
structure ModeResult where
  out : Block
  chain : Block
  deriving DecidableEq, Repr

/-- ECB encrypt (R93). -/
def ecbE (f : Cipher) (x c : Block) : ModeResult :=
  ⟨f.enc x, c⟩

/-- ECB decrypt (R94). -/
def ecbD (f : Cipher) (x c : Block) : ModeResult :=
  ⟨f.dec x, c⟩

/-- CBC encrypt (R95). -/
def cbcE (f : Cipher) (x c : Block) : ModeResult :=
  ⟨f.enc (x ^^^ c), f.enc (x ^^^ c)⟩

/-- CBC decrypt (R96): the chaining value becomes the input block. -/
def cbcD (f : Cipher) (x c : Block) : ModeResult :=
  ⟨f.dec x ^^^ c, x⟩

/-- CFB encrypt (R97). -/
def cfbE (f : Cipher) (x c : Block) : ModeResult :=
  ⟨f.enc c ^^^ x, f.enc c ^^^ x⟩

/-- CFB decrypt (R98): the encrypt direction of the permutation, and the chaining value becomes the input block. -/
def cfbD (f : Cipher) (x c : Block) : ModeResult :=
  ⟨f.enc c ^^^ x, x⟩

/-- OFB encrypt (R99): the chaining value becomes the pad. -/
def ofbE (f : Cipher) (x c : Block) : ModeResult :=
  ⟨f.enc c ^^^ x, f.enc c⟩

/-- OFB decrypt (R100): identical to R99, DIR has no effect. -/
def ofbD (f : Cipher) (x c : Block) : ModeResult :=
  ⟨f.enc c ^^^ x, f.enc c⟩

/-- The frame of every MSTEP (R92): one call of the mode rule on DIN, CHAIN and the effective key, and its results
committed to DOUT, CHAIN and, with FOLD, DIGEST. -/
def mstep (rule : Cipher → Block → Block → ModeResult) (alg : Alg) (fold : Bool) (ksel : KeySel) (s : State) :
    Host.Outcome State Fault Refusal :=
  withKey ksel alg s fun kk =>
    let r := rule (cipher s.params alg kk) s.din s.chain
    { s with
      dout := r.out
      chain := r.chain
      digest := if fold then s.digest ^^^ r.out else s.digest }

/-- MSTEP.ECB.E (R93). -/
def execMstepEcbE (alg : Alg) (fold : Bool) (ksel : KeySel) (s : State) : Host.Outcome State Fault Refusal :=
  mstep ecbE alg fold ksel s

/-- MSTEP.ECB.D (R94). -/
def execMstepEcbD (alg : Alg) (fold : Bool) (ksel : KeySel) (s : State) : Host.Outcome State Fault Refusal :=
  mstep ecbD alg fold ksel s

/-- MSTEP.CBC.E (R95). -/
def execMstepCbcE (alg : Alg) (fold : Bool) (ksel : KeySel) (s : State) : Host.Outcome State Fault Refusal :=
  mstep cbcE alg fold ksel s

/-- MSTEP.CBC.D (R96). -/
def execMstepCbcD (alg : Alg) (fold : Bool) (ksel : KeySel) (s : State) : Host.Outcome State Fault Refusal :=
  mstep cbcD alg fold ksel s

/-- MSTEP.CFB.E (R97). -/
def execMstepCfbE (alg : Alg) (fold : Bool) (ksel : KeySel) (s : State) : Host.Outcome State Fault Refusal :=
  mstep cfbE alg fold ksel s

/-- MSTEP.CFB.D (R98). -/
def execMstepCfbD (alg : Alg) (fold : Bool) (ksel : KeySel) (s : State) : Host.Outcome State Fault Refusal :=
  mstep cfbD alg fold ksel s

/-- MSTEP.OFB.E (R99). -/
def execMstepOfbE (alg : Alg) (fold : Bool) (ksel : KeySel) (s : State) : Host.Outcome State Fault Refusal :=
  mstep ofbE alg fold ksel s

/-- MSTEP.OFB.D (R100). -/
def execMstepOfbD (alg : Alg) (fold : Bool) (ksel : KeySel) (s : State) : Host.Outcome State Fault Refusal :=
  mstep ofbD alg fold ksel s

/-- CHAIN_INIT (R101). -/
def execChainInit (s : State) : Host.Outcome State Fault Refusal :=
  succeed { s with chain := Config.chainIV }

/-- The mode rule of a mode and a direction, `step_m_d` of R102. -/
def modeRule (m : Mode) (d : Dir) : Cipher → Block → Block → ModeResult :=
  match m, d with
  | .ecb, .enc => ecbE
  | .ecb, .dec => ecbD
  | .cbc, .enc => cbcE
  | .cbc, .dec => cbcD
  | .cfb, .enc => cfbE
  | .cfb, .dec => cfbD
  | .ofb, .enc => ofbE
  | .ofb, .dec => ofbD

/-- The sequence function of a mode rule (R102): the output blocks, and the chaining value after the last. -/
def sequence (rule : Block → Block → ModeResult) : List Block → Block → List Block × Block
  | [], c => ([], c)
  | x :: xs, c =>
    let r := rule x c
    let t := sequence rule xs r.chain
    (r.out :: t.1, t.2)

/-- `mode_m_d(X, c, k)` of R102, for the algorithm `alg`. -/
def modeSequence (P : Params) (alg : Alg) (m : Mode) (d : Dir) (k : Key) (xs : List Block) (c : Block) :
    List Block × Block :=
  sequence (modeRule m d (cipher P alg k)) xs c

end Sys2Proof.Machine
end

