-- ==== Sys2Proof/Machine/PadDigest.lean ====
section
/-!
DEFINITION. The padding and digest commands (spec/43_padding_digest.md R104 to R109).
-/

namespace Sys2Proof.Machine

/-- rep8(b, g): the value whose bytes 0 to g - 1 all equal the byte b and whose higher bytes are zero (R10). -/
def rep8 (b : Byte) : Nat → Block
  | 0 => 0
  | n + 1 => rep8 b n + (b.setWidth 384 <<< (8 * n))

/-- The low n bytes of a block, the bits `8n-1 : 0`, in a block whose other bits are zero. -/
def lowBytes (b : Block) (n : Nat) : Block :=
  b &&& BitVec.ofNat 384 (2 ^ (8 * n) - 1)

/-- The results of PAD for a chunk of s bytes (R104): DOUT, DOUT2 and EXTRA, with g = 48 - s the gap. -/
def padResults (s : Nat) (x : State) : State :=
  let g := 48 - s
  let shifted := x.din <<< (8 * g)
  if g ≥ 2 then
    { x with
      dout := shifted ^^^ rep8 (BitVec.ofNat 8 g) g
      dout2 := 0
      status := { x.status with extra := false } }
  else
    { x with
      dout := shifted
      dout2 := BitVec.ofNat 384 (2 * 48 - s)
      status := { x.status with extra := true } }

/-- PAD (R104): BAD_SLEN where s is not in 1..47 (R113 check 3). -/
def execPad (slen : Byte) (s : State) : Host.Outcome State Fault Refusal :=
  if 1 ≤ slen.toNat ∧ slen.toNat ≤ 47 then succeed (padResults slen.toNat s) else failWith .badSlen s

/-- What UNPAD reports (R105): the number of bytes to strip, and whether the last block is a sentinel. -/
structure UnpadReport where
  strip : BitVec 6
  drop : Bool
  deriving DecidableEq, Repr

/-- UNPAD's inspection of the last block `last` and, where there is one, the block before it (R105). -/
def unpadReport (hasPrev : Bool) (last prev : Block) : UnpadReport :=
  let c := last.extractLsb' 0 8
  if c = 49 ∧ hasPrev = true ∧ prev.extractLsb' 0 8 = (0 : Byte) then ⟨1, true⟩
  else if 2 ≤ c.toNat ∧ c.toNat ≤ 48 ∧ lowBytes last c.toNat = rep8 c c.toNat then ⟨c.setWidth 6, false⟩
  else ⟨0, false⟩

/-- UNPAD (R105). -/
def execUnpad (hasPrev : Bool) (s : State) : Host.Outcome State Fault Refusal :=
  let r := unpadReport hasPrev s.din s.din2
  succeed { s with status := { s.status with strip := r.strip, drop := r.drop } }

/-- DIGEST_CLEAR (R106). -/
def execDigestClear (s : State) : Host.Outcome State Fault Refusal :=
  succeed { s with digest := 0 }

/-- DFOLD (R107). -/
def execDfold (s : State) : Host.Outcome State Fault Refusal :=
  succeed { s with digest := s.digest ^^^ s.din }

/-- VERIFY (R108). -/
def execVerify (s : State) : Host.Outcome State Fault Refusal :=
  succeed { s with status := { s.status with matched := s.digest == s.din } }

/-- The XOR-fold of a block sequence (R109); that of the empty sequence is 0 (R106). -/
def xorFold (ys : List Block) : Block :=
  ys.foldl (· ^^^ ·) 0

/-- The digest of a block sequence under an algorithm, a mode and a key (R109). -/
def digestOf (P : Params) (alg : Alg) (m : Mode) (k : Key) (xs : List Block) : Block :=
  xorFold (modeSequence P alg m .enc k xs Config.chainIV).1

end Sys2Proof.Machine
end

