-- ==== Sys2Proof/Machine/PermCommands.lean ====
section
/-!
DEFINITION. The commands that expose the permutations (spec/40_perm_a_arx.md R72, R73; 41_perm_b_bitplane.md R89, R90).
-/

namespace Sys2Proof.Machine

/-- PERMA.E (R72). -/
def execPermaE (ksel : KeySel) (s : State) : Host.Outcome State Fault Refusal :=
  withKey ksel .a s fun kk => { s with dout := encryptA s.params s.din kk }

/-- PERMA.D (R73). -/
def execPermaD (ksel : KeySel) (s : State) : Host.Outcome State Fault Refusal :=
  withKey ksel .a s fun kk => { s with dout := decryptA s.params s.din kk }

/-- PERMB.E (R89). -/
def execPermbE (ksel : KeySel) (s : State) : Host.Outcome State Fault Refusal :=
  withKey ksel .b s fun kk => { s with dout := encryptB s.params s.din kk }

/-- PERMB.D (R90). -/
def execPermbD (ksel : KeySel) (s : State) : Host.Outcome State Fault Refusal :=
  withKey ksel .b s fun kk => { s with dout := decryptB s.params s.din kk }

end Sys2Proof.Machine
end

