-- ==== Sys2Proof/Machine/Dispatch.lean ====
section
/-!
DEFINITION. The meaning of each command: its whole completion step, checks and error entry included
(spec/44_command_control.md R113, R115). One arm per constructor of Instr.
-/

namespace Sys2Proof.Machine

def exec (i : Instr) (s : State) : Host.Outcome State Fault Refusal :=
  match i with
  | .nop => Sys2Proof.Machine.execNop s
  | .permaE ksel => Sys2Proof.Machine.execPermaE ksel s
  | .permaD ksel => Sys2Proof.Machine.execPermaD ksel s
  | .permbE ksel => Sys2Proof.Machine.execPermbE ksel s
  | .permbD ksel => Sys2Proof.Machine.execPermbD ksel s
  | .mstepEcbE alg fold ksel => Sys2Proof.Machine.execMstepEcbE alg fold ksel s
  | .mstepEcbD alg fold ksel => Sys2Proof.Machine.execMstepEcbD alg fold ksel s
  | .mstepCbcE alg fold ksel => Sys2Proof.Machine.execMstepCbcE alg fold ksel s
  | .mstepCbcD alg fold ksel => Sys2Proof.Machine.execMstepCbcD alg fold ksel s
  | .mstepCfbE alg fold ksel => Sys2Proof.Machine.execMstepCfbE alg fold ksel s
  | .mstepCfbD alg fold ksel => Sys2Proof.Machine.execMstepCfbD alg fold ksel s
  | .mstepOfbE alg fold ksel => Sys2Proof.Machine.execMstepOfbE alg fold ksel s
  | .mstepOfbD alg fold ksel => Sys2Proof.Machine.execMstepOfbD alg fold ksel s
  | .chainInit => Sys2Proof.Machine.execChainInit s
  | .digestClear => Sys2Proof.Machine.execDigestClear s
  | .dfold => Sys2Proof.Machine.execDfold s
  | .pad slen => Sys2Proof.Machine.execPad slen s
  | .unpad hasPrev => Sys2Proof.Machine.execUnpad hasPrev s
  | .verify => Sys2Proof.Machine.execVerify s

end Sys2Proof.Machine
end

