-- ==== Sys2Proof/Machine/Complete.lean ====
section
/-!
DEFINITION. What one step of the whole machine is: the completion of the pending command when it is due
(spec/44_command_control.md R115), else one cycle in which the host or the platform may act (20_memory.md R42,
70_reset_and_hazards.md R160).
-/

namespace Sys2Proof.Machine

/-- The error code of a word that is no command (R113 checks 1 and 2). -/
def decodeErrorCode : DecodeError → ErrCode
  | .illegalOp => .illegalOp
  | .badField => .badField

/-- The completion of a command word (R115): its own meaning, or the error entry of a word that is no command
(R52, R53). -/
def completeWord (w : Word) (s : State) : Host.Outcome State Fault Refusal :=
  match decodeWord w with
  | .ok i => exec i s
  | .error e => failWith (decodeErrorCode e) s

/-- One step in the one global order (R42). A pending command that is due completes; before that each of its cycles
passes, and what comes next from outside, if anything, takes effect in it (log 5). With nothing pending the engine is
idle and only the outside acts (R148, R153). -/
def advance (s : State) : Host.Outcome State Fault Refusal :=
  match s.pending with
  | none => .next (hostTurn s)
  | some p => if p.cyclesLeft ≤ 1 then completeWord p.word s else .next (hostTurn (tick s))

end Sys2Proof.Machine
end

