-- ==== Sys2Proof/Machine/Step.lean ====
section
/-!
DEFINITION. One step of the machine, and the placing of a command so that the next step runs it.
-/

namespace Sys2Proof.Machine

/-- One atomic step of the engine or of the host (spec/20_memory.md R42). -/
def step (s : State) : Host.Outcome State Fault Refusal :=
  advance s

/-- The state with the table's word `w` of `nbits` bits accepted as the command and due, so that the next step
completes it. The engine fetches nothing (R31, R45): a command comes by a host write to CMD, which this stands for
(log 1). -/
def State.withFetchWord (s : State) (nbits w : Nat) : State :=
  placeCommand (tableWord nbits w) s

end Sys2Proof.Machine
end

