-- ==== Sys2Proof/Machine/HostProtocol.lean ====
section
/-!
DEFINITION. The host's procedures over the engine (spec/30_encoding.md R56, R57; 45_host_protocol.md R123 to R134). A
procedure is the sequence of register accesses the spec gives it; what WAIT waits for is the pending command's
completion, so EXEC's effect on the engine is the accept and that completion, whatever the latency (log 17). These
add no state to the engine.
-/

namespace Sys2Proof.Machine

/-- Why an action ends without output (R133). -/
inductive HostError where
  /-- The input length is not a multiple of 48 and padding is disallowed (R133). -/
  | alignment
  /-- An action that requires a key has none: an empty key file (R126, R133). -/
  | keyAbsent
  /-- An engine command completed with ERR = 1 (R133). -/
  | command (code : ErrCode)
  /-- The engine stopped; it never does (R161). -/
  | stopped
  deriving DecidableEq, Repr

/-! ### Host steps (R56, R57) -/

/-- `WR <reg>, <value>` (R56): a 32-bit write at the register's offset. -/
def hostWrite (r : Reg) (v : Word) (s : State) : State :=
  (exchange (.write .w32 r.offset v) s).2

/-- `WR384 G, v` (R57): the twelve words in order, the most significant first. -/
def wr384 (g : Fin 12 → Reg) (v : Block) (s : State) : State :=
  (List.finRange 12).foldl (fun t k => hostWrite (g k) (groupWord v k) t) s

/-- `RD384 G` (R57): `G[0] ‖ ... ‖ G[11]`. -/
def rd384 (g : Fin 12 → Reg) (s : State) : Block :=
  (List.finRange 12).foldl (fun v k => v <<< 32 ||| (readReg (g k) s).setWidth 384) 0

/-- `WRKEY v` (R57). -/
def wrKey (v : Key) (s : State) : State :=
  (List.finRange 8).foldl (fun t k => hostWrite (.key k) (keyGroupWord v k) t) s

/-- `WAIT` (R57), as its effect on the engine: the pending command, if there is one, completes. -/
def waitIdle (s : State) : Host.Outcome State Fault Refusal :=
  match s.pending with
  | none => .next s
  | some p => completeWord p.word s

/-- `EXEC <command> [options]` (R57), fatal to an action when the command fails (R133). -/
def execCommand (i : Instr) (s : State) : Except HostError State :=
  match waitIdle (hostWrite .cmd (encode i) s) with
  | .next t => if (readReg .status t).getLsbD 2 then .error (.command t.status.errCode) else .ok t
  | .fault _ => .error .stopped
  | .refused _ => .error .stopped

/-! ### Framing (R123 to R126) -/

/-- `int(b)`: a byte string read as one big-endian integer (45_host_protocol.md, opening). -/
def intOfBytes (bs : List Byte) : Block :=
  bs.foldl (fun v b => v <<< 8 ||| b.setWidth 384) 0

/-- `bytes(v)`: the 48-byte big-endian serialisation of a block. -/
def bytesOfBlock (v : Block) : List Byte :=
  (List.range 48).map fun i => v.extractLsb' (8 * (47 - i)) 8

/-- The serialisation of a block sequence. -/
def bytesOfBlocks (ys : List Block) : List Byte :=
  ys.flatMap bytesOfBlock

/-- The full blocks of a byte string (R123): block i is `int(F[48i : 48i+48])` for i < floor(n / 48). -/
def fullBlocks (f : List Byte) : List Block :=
  (List.range (f.length / 48)).map fun i => intOfBytes ((f.drop (48 * i)).take 48)

/-- The final partial chunk of a byte string, empty where its length is a multiple of 48 (R123). -/
def finalChunk (f : List Byte) : List Byte :=
  f.drop (48 * (f.length / 48))

/-- `padseq(F)` (R124): the block sequence of a file, its final partial chunk padded by the engine. -/
def padSeq (f : List Byte) (s : State) : Except HostError (List Block × State) := do
  let chunk := finalChunk f
  if chunk.length = 0 then
    return (fullBlocks f, s)
  else
    let t ← execCommand (.pad (BitVec.ofNat 8 chunk.length)) (wr384 .din (intOfBytes chunk) s)
    let sentinel := if (readReg .status t).getLsbD 5 then [rd384 .dout2 t] else []
    return (fullBlocks f ++ [rd384 .dout t] ++ sentinel, t)

/-- `unpadout(Y)` (R125): the bytes of an output block sequence, stripped as UNPAD reports. -/
def unpadOut (ys : List Block) (s : State) : Except HostError (List Byte × State) := do
  match ys.reverse with
  | [] => return ([], s)
  | last :: before =>
    let s1 := wr384 .din last s
    let t ← match before with
      | prev :: _ => execCommand (.unpad true) (wr384 .din2 prev s1)
      | [] => execCommand (.unpad false) s1
    let kept := if (readReg .status t).getLsbD 6 then ys.dropLast else ys
    let out := bytesOfBlocks kept
    return (out.take (out.length - ((readReg .status t).extractLsb' 12 6).toNat), t)

/-- The key of a key file (R126): its first 32 bytes, or the first 32 bytes of its padded block; an empty file is an
absent key (D48). -/
def keyFromFile (kf : List Byte) (s : State) : Except HostError (Key × State) := do
  if kf.length ≥ 32 then
    return ((intOfBytes (kf.take 32)).setWidth 256, s)
  else if kf.length = 0 then
    throw .keyAbsent
  else
    let t ← execCommand (.pad (BitVec.ofNat 8 kf.length)) (wr384 .din (intOfBytes kf) s)
    return ((rd384 .dout t).extractLsb' 128 256, t)

/-! ### The six actions (R127 to R132) -/

/-- The MSTEPs of a stream in block order (R91): for each block, `WR384 DIN`, `EXEC MSTEP` and `RD384 DOUT`. -/
def runStream (i : Instr) : List Block → State → Except HostError (List Block × State)
  | [], s => .ok ([], s)
  | x :: xs, s => do
    let t ← execCommand i (wr384 .din x s)
    let rest ← runStream i xs t
    return (rd384 .dout t :: rest.1, rest.2)

/-- Encrypt (R127). -/
def encryptFile (alg : Alg) (m : Mode) (k : Key) (f : List Byte) (s : State) :
    Except HostError (List Byte × State) := do
  let (xs, s1) ← padSeq f (wrKey k s)
  let s2 ← execCommand .chainInit s1
  let (ys, s3) ← runStream (mstepInstr m .enc alg false .registers) xs s2
  return (bytesOfBlocks ys, s3)

/-- Decrypt (R128): padding is disallowed, so a length that is no multiple of 48 is an alignment error. -/
def decryptFile (alg : Alg) (m : Mode) (k : Key) (g : List Byte) (s : State) :
    Except HostError (List Byte × State) := do
  if g.length % 48 ≠ 0 then
    throw .alignment
  else
    let s1 ← execCommand .chainInit (wrKey k s)
    let (xs, s2) ← runStream (mstepInstr m .dec alg false .registers) (fullBlocks g) s1
    unpadOut xs s2

/-- The digest of a file left in DIGEST (R129), under the caller's key or, where there is none, the default key. -/
def digestFile (alg : Alg) (m : Mode) (k : Option Key) (f : List Byte) (s : State) : Except HostError State := do
  let s0 := match k with
    | some kk => wrKey kk s
    | none => s
  let ksel := match k with
    | some _ => KeySel.registers
    | none => KeySel.builtIn
  let (xs, s1) ← padSeq f s0
  let s2 ← execCommand .digestClear s1
  let s3 ← execCommand .chainInit s2
  let (_, s4) ← runStream (mstepInstr m .enc alg true ksel) xs s3
  return s4

/-- Hash (R129): exactly the 48 bytes of the digest. -/
def hashFile (alg : Alg) (m : Mode) (k : Option Key) (f : List Byte) (s : State) :
    Except HostError (List Byte × State) := do
  let t ← digestFile alg m k f s
  return (bytesOfBlock (rd384 .digest t), t)

/-- Sign (R130): the file followed by its digest's 48 bytes. -/
def signFile (alg : Alg) (m : Mode) (k : Key) (f : List Byte) (s : State) :
    Except HostError (List Byte × State) := do
  let (tag, t) ← hashFile alg m (some k) f s
  return (f ++ tag, t)

/-- The comparison of a file's digest with an expected block, by VERIFY (R131, R132): STATUS.MATCH. -/
def checkDigest (alg : Alg) (m : Mode) (k : Option Key) (f : List Byte) (tag : Block) (s : State) :
    Except HostError (Bool × State) := do
  let t ← digestFile alg m k f s
  let u ← execCommand .verify (wr384 .din tag t)
  return ((readReg .status u).getLsbD 4, u)

/-- Verify (R131): the body is the signed file less its last 48 bytes; a shorter file does not verify (D49). -/
def verifyFile (alg : Alg) (m : Mode) (k : Key) (signed : List Byte) (s : State) :
    Except HostError (Bool × State) :=
  if signed.length < 48 then .ok (false, s)
  else
    checkDigest alg m (some k) (signed.take (signed.length - 48))
      (intOfBytes (signed.drop (signed.length - 48))) s

/-- The key of a caller who may give none (R129, R132): the key of the key file, by R126, and none where there is no key
file or it is empty, an empty key file being an absent key (R126). For hash and compare that is no error, since R133
does not name them among the actions that require a key: the default key is used (log 23). -/
def optionalKey (keyPath : Option (List Byte)) (s : State) : Except HostError (Option Key × State) :=
  match keyPath with
  | none | some [] => .ok (none, s)
  | some (b :: bs) => do
    let (k, t) ← keyFromFile (b :: bs) s
    return (some k, t)

/-- The key of an action that requires one (R133): its absence, no key file or an empty one, ends the action at once,
before any permutation call. -/
def requiredKey (keyPath : Option (List Byte)) (s : State) : Except HostError (Key × State) :=
  match keyPath with
  | none => .error .keyAbsent
  | some kf => keyFromFile kf s

/-- The key of a compare (R132): the key from the helper file when it is given as a key, and none otherwise. -/
def helperKey (asKey : Bool) (helper : List Byte) (s : State) : Except HostError (Option Key × State) :=
  optionalKey (if asKey then some helper else none) s

/-- Compare (R132, D50): whether the helper file holds exactly the 48 bytes of the input's digest, taken under the key
from the helper when it is given as a key, and under the default key otherwise. -/
def compareFile (alg : Alg) (m : Mode) (asKey : Bool) (f helper : List Byte) (s : State) :
    Except HostError (Bool × State) := do
  let (k, s1) ← helperKey asKey helper s
  if helper.length = 48 then checkDigest alg m k f (intOfBytes helper) s1
  else
    let t ← digestFile alg m k f s1
    return (false, t)

/-! ### The contract with the dispatch layer (R133, R134) -/

/-- An action as the dispatch layer asks for it (R134), beside its algorithm, mode and input file: its key file, where
there is one, and for compare the helper file and whether it is given as a key. -/
inductive Action where
  | encrypt (keyPath : Option (List Byte))
  | decrypt (keyPath : Option (List Byte))
  | sign (keyPath : Option (List Byte))
  | verify (keyPath : Option (List Byte))
  | hash (keyPath : Option (List Byte))
  | compare (asKey : Bool) (helper : List Byte)
  deriving DecidableEq, Repr

/-- What an action ends with when no error ends it: a file to write, or the plain result of verify and compare
(R131, R132). -/
inductive ActionResult where
  | file (bytes : List Byte)
  | verdict (holds : Bool)
  deriving DecidableEq, Repr

/-- An action's output file with the engine's state. -/
def asFile (r : List Byte × State) : ActionResult × State :=
  (.file r.1, r.2)

/-- An action's plain result with the engine's state. -/
def asVerdict (r : Bool × State) : ActionResult × State :=
  (.verdict r.1, r.2)

/-- One action (R134). An action that requires a key takes it first, so that its absence is found before the input is
looked at (R133; log 24). An error ends the action without a file, so no partial file is written (R133). -/
def runAction (alg : Alg) (m : Mode) (a : Action) (f : List Byte) (s : State) :
    Except HostError (ActionResult × State) :=
  match a with
  | .encrypt keyPath => do
    let (k, s1) ← requiredKey keyPath s
    asFile <$> encryptFile alg m k f s1
  | .decrypt keyPath => do
    let (k, s1) ← requiredKey keyPath s
    asFile <$> decryptFile alg m k f s1
  | .sign keyPath => do
    let (k, s1) ← requiredKey keyPath s
    asFile <$> signFile alg m k f s1
  | .verify keyPath => do
    let (k, s1) ← requiredKey keyPath s
    asVerdict <$> verifyFile alg m k f s1
  | .hash keyPath => do
    let (k, s1) ← optionalKey keyPath s
    asFile <$> hashFile alg m k f s1
  | .compare asKey helper => asVerdict <$> compareFile alg m asKey f helper s

end Sys2Proof.Machine
end

