-- ==== Sys2Proof/Safety.lean ====
section
/-!
DEFINITION. The terms that claims about the machine use: the check of a command word as the spec states it, the
invariants of the state, an idle engine, and a run of steps that nothing stops.
-/

namespace Sys2Proof.Machine

/-- Whether a word matches a row of spec/30_encoding.md R51. -/
def matchesRow (w : Word) : Bool :=
  rows.any fun r => r.encodes w

/-- Whether a word's command uses a key, PERM or MSTEP (R113 check 4). -/
def usesKey (w : Word) : Bool :=
  opField w == 0x01 || opField w == 0x02

/-- `validate(w)` as R113 words it: the first check that applies gives the error, in the order of R137. The machine
does not use it; its decoder and its meanings have to agree with it. -/
def validate (w : Word) (keyLoaded : Bool) : ErrCode :=
  if opField w ≥ 0x09 then .illegalOp
  else if !matchesRow w then .badField
  else if opField w == 0x06 && !(1 ≤ slenField w && slenField w ≤ 47) then .badSlen
  else if usesKey w && !w.getLsbD 13 && !keyLoaded then .keyMissing
  else .none

/-- The bookkeeping of the pending command and STATUS agrees with itself: BUSY is 1 exactly while a command is pending
(R28, R30); the pending word is the CMD readback (R118) and at least one cycle is left (R160); while BUSY, DONE and
every result field but OVR are 0 (R112, R118); ERR is 1 exactly when ERRCODE is not 0, and implies DONE (R116, R138,
R141); a result field is set only when DONE (R28); STRIP is at most 48, and 1 when DROP is set (R28, R105). -/
structure Coherent (s : State) : Prop where
  busy_iff_pending : s.status.busy = s.pending.isSome
  pending_word : ∀ p, s.pending = some p → p.word = s.cmd
  pending_cycles : ∀ p, s.pending = some p → 1 ≤ p.cyclesLeft
  busy_clear : s.status.busy = true → s.status = { busy := true, ovr := s.status.ovr }
  err_iff_code : s.status.err = true ↔ s.status.errCode ≠ .none
  err_done : s.status.err = true → s.status.done = true
  result_done : s.status.matched = true ∨ s.status.extra = true ∨ s.status.drop = true ∨ s.status.strip ≠ 0 →
    s.status.done = true ∧ s.status.err = false
  strip_le : s.status.strip ≤ 48
  drop_strip : s.status.drop = true → s.status.strip = 1

/-- A result field of STATUS names its command (R116): MATCH is set only by a VERIFY, EXTRA only by a PAD, and STRIP
and DROP only by an UNPAD, each the last accepted word. -/
structure ResultsNamed (s : State) : Prop where
  matched_verify : s.status.matched = true → decodeWord s.cmd = .ok .verify
  extra_pad : s.status.extra = true → decodeWord s.cmd = .ok (.pad 47)
  unpad_results : s.status.drop = true ∨ s.status.strip ≠ 0 → ∃ h, decodeWord s.cmd = .ok (.unpad h)

/-- KEY_LOADED is 0 only while no KEY write has been taken since reset, so KEY still holds its reset value
(R25, R34). -/
def KeyUntouched (s : State) : Prop :=
  s.keyLoaded = false → s.key = 0

/-- The engine is idle: nothing is pending and BUSY is 0 (R148, R153). -/
structure Idle (s : State) : Prop where
  not_busy : s.status.busy = false
  nothing_pending : s.pending = none

/-- `k` steps of the machine lead from one state to another, each answering a next state. -/
def Runs : Nat → State → State → Prop
  | 0, s, t => s = t
  | n + 1, s, t => ∃ u, step s = .next u ∧ Runs n u t

/-- A safe run: every step answers a next state, so that nothing stops the machine (R161). -/
def NeverStops (s : State) : Prop :=
  ∀ n, ∃ t, Runs n s t

/-- Every register but those that `except` picks out reads in `t` as it reads in `s`. -/
def ReadsKept (except : Reg → Prop) (s t : State) : Prop :=
  ∀ r, ¬ except r → readReg r t = readReg r s

/-- Byte k of a block, `v[8k+7:8k]`; byte 0 is the low byte (R9). -/
def blockByte (b : Block) (k : Nat) : Byte :=
  b.extractLsb' (8 * k) 8

/-- A key is at hand for a command with this KSEL: the default key, or KEY with KEY_LOADED = 1 (R113 check 4). -/
def KeyAvailable (ksel : KeySel) (s : State) : Prop :=
  ksel = .registers → s.keyLoaded = true

/-- rho^2(D0, D1, D2) = (D2, D0, D1) on a block (R88). -/
def rhoSquared (P : Params) (b : Block) : Block :=
  planesToBlock P (rho (rho (planesOf P b)))

/-- An event that resets the engine: the RST input, power-on, or a host write to CTRL with SRST = 1 (R150). -/
def isReset : Event → Bool
  | .access (.write .w32 off v) => off == 0x00C && v.getLsbD 1
  | .access _ => false
  | .extReset | .powerOn => true

/-- A file after padding, as bytes (R104, R124): a block-aligned file as it is; one whose final chunk has 47 bytes
followed by a zero byte and the sentinel block, the number 49; every other one followed by its gap of g bytes, each g. -/
def paddedBytes (f : List Byte) : List Byte :=
  let s := f.length % 48
  if s = 0 then f
  else if s = 47 then f ++ [0] ++ (List.replicate 47 0 ++ [49])
  else f ++ List.replicate (48 - s) (BitVec.ofNat 8 (48 - s))

/-- The bytes that unpadding leaves of the serialised blocks (R105, R125), by their last byte c: a 49 after a block that
ends in 0 takes the sentinel block and that byte away; a c of 2 to 48 that fills the last c bytes takes them away; else
all bytes stay. -/
def unpaddedBytes (bs : List Byte) : List Byte :=
  let c := (bs.getLast?).getD 0
  if c = 49 ∧ 96 ≤ bs.length ∧ bs[bs.length - 49]? = some 0 then bs.take (bs.length - 49)
  else if 2 ≤ c.toNat ∧ c.toNat ≤ 48 ∧ bs.drop (bs.length - c.toNat) = List.replicate c.toNat c then
    bs.take (bs.length - c.toNat)
  else bs

/-- A state up to what the host is still to send and what the bus has answered: the engine's own state and the model's
parameters and latency count. -/
def engineView (s : State) : State :=
  { s with hostQueue := [], responses := [] }

end Sys2Proof.Machine
end

