-- ==== Sys2Proof/Certificates/Slice0/Obligations.lean ====
section
/-!
DEFINITION. The statements for the provers. Each docstring names the rules of spec/ it speaks of.
-/

open Sys2Proof Sys2Proof.Machine

/-! ### Encoding (30_encoding.md) -/

/-- R48, R49, R51: decoding the word of a well-formed instruction gives the instruction back, with every field at every
value. -/
def Obligations.DecodeOfEncode : Prop :=
  ∀ i : Instr, i.WellFormed → decodeWord (encode i) = .ok i

/-- R51, R53, R54: every word that decodes is the word of the instruction it decodes to, which is well formed; so no
bit of a word is ignored, and no two words mean the same. -/
def Obligations.EncodeOfDecode : Prop :=
  ∀ (w : Word) (i : Instr), decodeWord w = .ok i → i.WellFormed ∧ encode i = w

/-- R51: no word matches two rows of the table. -/
def Obligations.RowPatternsDisjoint : Prop :=
  ∀ (w : Word) (r₁ r₂ : Row), r₁ ∈ rows → r₂ ∈ rows → r₁.encodes w = true → r₂.encodes w = true →
    r₁.mnemonic = r₂.mnemonic

/-- R48, R51, R56: words written out from the table decode to the commands they stand for. -/
def Obligations.SampleWordsDecode : Prop :=
  decodeWord 0b0000000000_000000_0_0_0_0_00_0_0_00000000 = .ok .nop ∧
  decodeWord 0b0000000000_000000_0_0_1_0_00_1_0_00000001 = .ok (.permaD .builtIn) ∧
  decodeWord 0b0000000000_000000_0_0_0_1_01_0_0_00000010 = .ok (.mstepCbcE .a true .registers) ∧
  decodeWord 0b0000000000_101111_0_0_0_0_00_0_0_00000110 = .ok (.pad 47) ∧
  decodeWord 0b0000000000_000000_0_1_0_0_00_0_0_00000111 = .ok (.unpad true) ∧
  decodeWord 0b0000000000_000000_1_0_0_0_00_0_0_00000001 = .error .badField ∧
  decodeWord 0b0000000000_000000_0_0_0_0_00_0_0_00001001 = .error .illegalOp

/-! ### The command cycle (44_command_control.md, 60_exceptions.md) -/

/-- R113: before any result is committed the pending word is checked, in the order ILLEGAL_OP, BAD_FIELD, BAD_SLEN,
KEY_MISSING, and the first check that applies gives the error; a word that passes every check is the word of a command,
whose completion reports no error. -/
def Obligations.ValidationDecidesCompletion : Prop :=
  ∀ (w : Word) (s : State),
    (validate w s.keyLoaded ≠ .none → completeWord w s = .next (commandError (validate w s.keyLoaded) s)) ∧
    (validate w s.keyLoaded = .none → ∃ i t, decodeWord w = .ok i ∧ completeWord w s = .next t ∧
      t.status.done = true ∧ t.status.err = s.status.err ∧ t.status.errCode = s.status.errCode)

/-- R138: the completion step of a command whose validation fails sets ERR, ERRCODE, DONE, clears BUSY and the pending
record, and changes no other state: MATCH, EXTRA, DROP and STRIP stay 0 as accept left them, OVR stays as it was, and
IRQ then follows IE. -/
def Obligations.ErrorEntryChangesOnlyStatus : Prop :=
  ∀ (w : Word) (s : State), validate w s.keyLoaded ≠ .none →
    ∃ t, completeWord w s = .next t ∧
      t.status.err = true ∧ t.status.errCode = validate w s.keyLoaded ∧ t.status.done = true ∧
      t.status.busy = false ∧ t.pending = none ∧
      t.status.matched = s.status.matched ∧ t.status.extra = s.status.extra ∧ t.status.drop = s.status.drop ∧
      t.status.strip = s.status.strip ∧ t.status.ovr = s.status.ovr ∧
      ReadsKept (· = .status) s t ∧ t.keyLoaded = s.keyLoaded ∧ t.params = s.params ∧
      t.latencyIndex = s.latencyIndex ∧ t.hostQueue = s.hostQueue ∧ t.responses = s.responses ∧ irq t = s.ie ∧
      (Coherent s → s.status.busy = true →
        t.status.matched = false ∧ t.status.extra = false ∧ t.status.drop = false ∧ t.status.strip = 0)

/-- R112: a host write of any word to CMD when BUSY = 0 is accepted: CMD, the cleared fields of STATUS, BUSY, and one
pending command of that word with at least one cycle left; when BUSY = 1 it is not accepted. No other register
changes. R157's words on the result fields of STATUS differ from R112's, which stand here (log 22). -/
def Obligations.CommandAccept : Prop :=
  ∀ (w : Word) (s : State),
    (s.status.busy = false →
      ∃ t n, exchange (.write .w32 0x004 w) s = (.okWrite, t) ∧
        t.cmd = w ∧ t.status = { busy := true } ∧ t.pending = some ⟨w, n⟩ ∧ 1 ≤ n ∧ t.keyLoaded = s.keyLoaded ∧
        t.params = s.params ∧ ReadsKept (fun r => r = .cmd ∨ r = .status) s t) ∧
    (s.status.busy = true →
      ∃ t, exchange (.write .w32 0x004 w) s = (.okWrite, t) ∧ t.cmd = s.cmd ∧ t.pending = s.pending)

/-- R116: what STATUS holds after the pending command completes: MATCH is set only by a VERIFY, EXTRA only by a valid
PAD, the one of 47 bytes (R104), and STRIP and DROP only by an UNPAD. -/
def Obligations.StatusAfterCompletion : Prop :=
  ∀ (s : State) (p : Pending), Coherent s → s.pending = some p → p.cyclesLeft ≤ 1 →
    ∃ t, step s = .next t ∧
      t.status.busy = false ∧ t.status.done = true ∧
      t.status.errCode = validate p.word s.keyLoaded ∧
      (t.status.err = true ↔ validate p.word s.keyLoaded ≠ .none) ∧
      (t.status.matched = true → decodeWord p.word = .ok .verify) ∧
      (t.status.extra = true → decodeWord p.word = .ok (.pad 47)) ∧
      (t.status.drop = true ∨ t.status.strip ≠ 0 → ∃ h, decodeWord p.word = .ok (.unpad h)) ∧
      t.status.ovr = s.status.ovr ∧ t.keyLoaded = s.keyLoaded

/-- R112, R115, R160: a command written to an idle engine, with no further input, completes: CMD holds the word and
STATUS reports what validation finds. The number of steps is the model's choice: the latency is drawn from the model's
own counter (log 4) and a step of a pending command is one cycle (log 5); the spec gives no count. -/
def Obligations.CommandCompletesAfterLatency : Prop :=
  ∀ (s : State) (w : Word), Idle s → s.hostQueue = [.access (.write .w32 0x004 w)] →
    ∃ t, Runs (Config.cmdLatencyBeyondOne s.latencyIndex w + 2) s t ∧ Idle t ∧ t.cmd = w ∧
      t.status.done = true ∧ t.status.errCode = validate w s.keyLoaded ∧
      (t.status.err = true ↔ validate w s.keyLoaded ≠ .none)

/-- First two clauses, R115: when the pending command is due, the step is the completion of its word, the error entry of
R52, R53 and R138 for a word that is no command, and its instruction's meaning for one that decodes to a well-formed
instruction. The last clause is the model's choice of what any other step is (log 5): before that a step is one cycle of
the pending command, and with nothing pending no cycle, and in it the oldest event from outside takes effect. With none
to come the state is else kept (R148); a host access does what `exchange` says, and its answer is kept (log 3); RST and
power-on reset the engine (R150). That a record with no cycle left is due, and that the record decides where BUSY
disagrees with it, is the model's choice too (log 10). -/
def Obligations.StepRunsDecodedCommand : Prop :=
  ∀ s : State,
    (∀ p, s.pending = some p → p.cyclesLeft ≤ 1 → step s = completeWord p.word s ∧
      (decodeWord p.word = .error .illegalOp → step s = .next (commandError .illegalOp s)) ∧
      (decodeWord p.word = .error .badField → step s = .next (commandError .badField s))) ∧
    (∀ p i, s.pending = some p → p.cyclesLeft ≤ 1 → decodeWord p.word = .ok i → i.WellFormed → step s = exec i s) ∧
    ∀ u : State,
      ((∃ p, s.pending = some p ∧ 1 < p.cyclesLeft ∧ u = { s with pending := some ⟨p.word, p.cyclesLeft - 1⟩ }) ∨
        (s.pending = none ∧ u = s)) →
      (s.hostQueue = [] → step s = .next u) ∧
      (∀ a q, s.hostQueue = .access a :: q → ∃ r v, exchange a { u with hostQueue := q } = (r, v) ∧
        v.responses = s.responses ∧ step s = .next { v with responses := s.responses ++ [r] }) ∧
      (∀ e q, s.hostQueue = e :: q → e = .extReset ∨ e = .powerOn →
        step s = .next (resetEngine { u with hostQueue := q }))

/-- R161: the engine never stops by itself: from every state, every number of steps can be taken. -/
def Obligations.MachineNeverStops : Prop :=
  ∀ s : State, NeverStops s

/-- R117: while BUSY = 1 a host write to CMD, KEY, DIN, DIN2 or CHAIN is answered ok, sets OVR and changes nothing else;
a write to CTRL takes effect as R120 says; busy or not, a write to a read-only register or an unmapped offset is
refused and does not set OVR. -/
def Obligations.BusyWritesDropped : Prop :=
  ∀ (s : State) (v : Word),
    (s.status.busy = true →
      (∀ r : Reg, (r = .cmd ∨ (∃ k, r = .key k) ∨ (∃ k, r = .din k) ∨ (∃ k, r = .din2 k) ∨ ∃ k, r = .chain k) →
        exchange (.write .w32 r.offset v) s = (.okWrite, { s with status := { s.status with ovr := true } })) ∧
      (v.getLsbD 1 = true → exchange (.write .w32 0x00C v) s = (.okWrite, resetEngine s)) ∧
      (v.getLsbD 1 = false → exchange (.write .w32 0x00C v) s = (.okWrite, { s with ie := v.getLsbD 0 }))) ∧
    (∀ r : Reg, (r = .id ∨ r = .status ∨ (∃ k, r = .dout k) ∨ (∃ k, r = .dout2 k) ∨ ∃ k, r = .digest k) →
      exchange (.write .w32 r.offset v) s = (.errWrite, s)) ∧
    (∀ off, regAt off = none → exchange (.write .w32 off v) s = (.errWrite, s))

/-- R118: while BUSY = 1 every host read succeeds with the register's current value and no side effect; STATUS reads
with every result field 0 but OVR and KEY_LOADED, and CMD reads the pending word. R157's
words on the result fields differ from R118's, which stand here (log 22). -/
def Obligations.BusyReadsSucceed : Prop :=
  ∀ s : State, Coherent s → s.status.busy = true →
    (∀ r : Reg, exchange (.read .w32 r.offset) s = (.okRead (readReg r s), s)) ∧
    readReg .status s = 1 ||| ((BitVec.ofBool s.keyLoaded).setWidth 32 <<< 3) |||
      ((BitVec.ofBool s.status.ovr).setWidth 32 <<< 7) ∧
    ∃ p, s.pending = some p ∧ readReg .cmd s = p.word

/-- R39, R115, R118: until it is due, a pending command's operands and every result register keep their values, whatever
comes from outside but a reset; only CTRL and STATUS may read otherwise. -/
def Obligations.OperandsFixedWhilePending : Prop :=
  ∀ (s : State) (p : Pending), Coherent s → s.pending = some p → 1 < p.cyclesLeft →
    (∀ e q, s.hostQueue = e :: q → isReset e = false) →
    ∃ t, step s = .next t ∧ t.pending = some ⟨p.word, p.cyclesLeft - 1⟩ ∧ t.keyLoaded = s.keyLoaded ∧
      t.params = s.params ∧ t.status.busy = true ∧ ReadsKept (fun r => r = .ctrl ∨ r = .status) s t

/-- R120: the effect of a host write that is neither refused nor dropped, register by register. -/
def Obligations.RegisterWriteEffects : Prop :=
  ∀ (s : State) (v : Word),
    (v.getLsbD 1 = true → exchange (.write .w32 0x00C v) s = (.okWrite, resetEngine s)) ∧
    (v.getLsbD 1 = false → exchange (.write .w32 0x00C v) s = (.okWrite, { s with ie := v.getLsbD 0 })) ∧
    (s.status.busy = false →
      exchange (.write .w32 0x004 v) s = (.okWrite, accept v s) ∧
      ∀ r : Reg, ((∃ k, r = .key k) ∨ (∃ k, r = .din k) ∨ (∃ k, r = .din2 k) ∨ ∃ k, r = .chain k) →
        ∃ t, exchange (.write .w32 r.offset v) s = (.okWrite, t) ∧ readReg r t = v ∧
          ReadsKept (fun r' => r' = r ∨ r' = .status) s t ∧ t.status = s.status ∧ t.pending = s.pending ∧
          ((∃ k, r = .key k) → t.keyLoaded = true) ∧ ((¬ ∃ k, r = .key k) → t.keyLoaded = s.keyLoaded))

/-- R36, R37: an access of another width than 32 bits, at an offset that is no multiple of 4 or in a gap of the map
(R16), and a write to a read-only register, is refused: an error response, read data 0, and no state changes. -/
def Obligations.RefusedAccessesChangeNothing : Prop :=
  ∀ (s : State) (width : Width) (off : Offset) (v : Word),
    let n := off.toNat
    let outside := width ≠ .w32 ∨ n % 4 ≠ 0 ∨ (0x010 ≤ n ∧ n < 0x020) ∨ (0x040 ≤ n ∧ n < 0x080) ∨
      (0x0B0 ≤ n ∧ n < 0x0C0) ∨ (0x0F0 ≤ n ∧ n < 0x100) ∨ (0x130 ≤ n ∧ n < 0x140) ∨ (0x170 ≤ n ∧ n < 0x180) ∨
      (0x1B0 ≤ n ∧ n < 0x1C0) ∨ 0x1F0 ≤ n
    let readOnly := n < 0x004 ∨ (0x008 ≤ n ∧ n < 0x00C) ∨ (0x100 ≤ n ∧ n < 0x180) ∨ (0x1C0 ≤ n ∧ n < 0x1F0)
    (outside → exchange (.read width off) s = (.errRead 0, s)) ∧
    (outside ∨ readOnly → exchange (.write width off v) s = (.errWrite, s))

/-- R16, R26, R29, R40, R41: each register of the map is read at its offset, and a host read has no side effect. CTRL
reads IE in bit 0 and zero in bits 31:1, SRST among them; the fields of STATUS are the statement
StatusFieldPositions. -/
def Obligations.RegisterMapReads : Prop :=
  ∀ (s : State),
    exchange (.read .w32 0x000) s = (.okRead 0x584F524B, s) ∧
    exchange (.read .w32 0x004) s = (.okRead s.cmd, s) ∧
    exchange (.read .w32 0x008) s = (.okRead (readReg .status s), s) ∧
    (∃ w : Word, exchange (.read .w32 0x00C) s = (.okRead w, s) ∧ w.getLsbD 0 = s.ie ∧ w.extractLsb' 1 31 = 0) ∧
    (∀ k : Fin 8, exchange (.read .w32 (BitVec.ofNat 12 (0x020 + 4 * k.val))) s =
      (.okRead (s.key.extractLsb' (224 - 32 * k.val) 32), s)) ∧
    (∀ k : Fin 12,
      exchange (.read .w32 (BitVec.ofNat 12 (0x080 + 4 * k.val))) s =
        (.okRead (s.din.extractLsb' (352 - 32 * k.val) 32), s) ∧
      exchange (.read .w32 (BitVec.ofNat 12 (0x0C0 + 4 * k.val))) s =
        (.okRead (s.din2.extractLsb' (352 - 32 * k.val) 32), s) ∧
      exchange (.read .w32 (BitVec.ofNat 12 (0x100 + 4 * k.val))) s =
        (.okRead (s.dout.extractLsb' (352 - 32 * k.val) 32), s) ∧
      exchange (.read .w32 (BitVec.ofNat 12 (0x140 + 4 * k.val))) s =
        (.okRead (s.dout2.extractLsb' (352 - 32 * k.val) 32), s) ∧
      exchange (.read .w32 (BitVec.ofNat 12 (0x180 + 4 * k.val))) s =
        (.okRead (s.chain.extractLsb' (352 - 32 * k.val) 32), s) ∧
      exchange (.read .w32 (BitVec.ofNat 12 (0x1C0 + 4 * k.val))) s =
        (.okRead (s.digest.extractLsb' (352 - 32 * k.val) 32), s))

/-- R28: the fields of STATUS stand at their bits, and bits 31:18 read as zero. -/
def Obligations.StatusFieldPositions : Prop :=
  ∀ s : State,
    let w := readReg .status s
    w.getLsbD 0 = s.status.busy ∧ w.getLsbD 1 = s.status.done ∧ w.getLsbD 2 = s.status.err ∧
    w.getLsbD 3 = s.keyLoaded ∧ w.getLsbD 4 = s.status.matched ∧ w.getLsbD 5 = s.status.extra ∧
    w.getLsbD 6 = s.status.drop ∧ w.getLsbD 7 = s.status.ovr ∧
    w.extractLsb' 8 4 = (match s.status.errCode with
      | .none => 0 | .illegalOp => 1 | .badField => 2 | .badSlen => 3 | .keyMissing => 4) ∧
    w.extractLsb' 12 6 = s.status.strip ∧ w.extractLsb' 18 14 = 0

/-- R17: a 384-bit group is the concatenation of its registers, G[0] the most significant, and G[k] is the big-endian
number of the file bytes 4k to 4k + 3. -/
def Obligations.GroupIsItsRegisters : Prop :=
  ∀ g : Block,
    g = groupWord g 0 ++ groupWord g 1 ++ groupWord g 2 ++ groupWord g 3 ++ groupWord g 4 ++ groupWord g 5 ++
      groupWord g 6 ++ groupWord g 7 ++ groupWord g 8 ++ groupWord g 9 ++ groupWord g 10 ++ groupWord g 11 ∧
    ∀ k : Fin 12, ∃ b0 b1 b2 b3, (bytesOfBlock g)[4 * k.val]? = some b0 ∧ (bytesOfBlock g)[4 * k.val + 1]? = some b1 ∧
      (bytesOfBlock g)[4 * k.val + 2]? = some b2 ∧ (bytesOfBlock g)[4 * k.val + 3]? = some b3 ∧
      groupWord g k = b0 ++ b1 ++ b2 ++ b3

/-! ### Interrupt and reset (60_exceptions.md, 70_reset_and_hazards.md) -/

/-- R141: IRQ is IE and (DONE or ERR); ERR implies DONE, so it is IE and DONE; and it is 0 after reset. -/
def Obligations.InterruptLevel : Prop :=
  (∀ s : State, irq s = (s.ie && (s.status.done || s.status.err))) ∧
  (∀ s : State, Coherent s → irq s = (s.ie && s.status.done)) ∧
  (∀ s : State, irq (resetEngine s) = false)

/-- R34, R150, R151: each reset source leaves every state element at its reset value: CHAIN at CHAIN_IV, every other
register but ID at 0, and nothing pending. -/
def Obligations.ResetValues : Prop :=
  ∀ (s : State) (e : Event), isReset e = true →
    ∃ t, applyEvent e s = t ∧
      readReg .id t = 0x584F524B ∧ readReg .cmd t = 0 ∧ readReg .status t = 0 ∧ readReg .ctrl t = 0 ∧
      (∀ k, readReg (.key k) t = 0) ∧
      (∀ k, readReg (.din k) t = 0 ∧ readReg (.din2 k) t = 0 ∧ readReg (.dout k) t = 0 ∧ readReg (.dout2 k) t = 0 ∧
        readReg (.digest k) t = 0 ∧ readReg (.chain k) t = groupWord Config.chainIV k) ∧
      t.keyLoaded = false ∧ t.pending = none ∧ irq t = false

/-- R152: a soft reset while BUSY = 1 abandons the pending command, which never completes: the state is the reset
state, DONE is not set, IRQ does not rise, and with nothing more from outside it stays so. -/
def Obligations.SoftResetAbandonsPending : Prop :=
  ∀ (s : State) (v : Word), s.status.busy = true → v.getLsbD 1 = true →
    ∃ t, exchange (.write .w32 0x00C v) s = (.okWrite, t) ∧
      engineView t = { engineView State.reset with params := s.params, latencyIndex := s.latencyIndex } ∧
      t.status.done = false ∧ irq t = false ∧
      ∀ n u, Runs n { t with hostQueue := [] } u → u = { t with hostQueue := [] }

/-! ### Invariants of every step -/

/-- R28, R30, R112, R116, R118, R138: the bookkeeping of the pending command and STATUS stays coherent in every step. -/
def Obligations.CoherentInvariant : Prop :=
  ∀ s t : State, Coherent s → step s = .next t → Coherent t

/-- R116: in every step the result fields of STATUS stay named by the last accepted command: MATCH by a VERIFY, EXTRA by
a PAD of 47 bytes, STRIP and DROP by an UNPAD. -/
def Obligations.ResultsNamedInvariant : Prop :=
  ∀ s t : State, Coherent s → ResultsNamed s → step s = .next t → ResultsNamed t

/-- R25, R34: as long as KEY_LOADED is 0, KEY holds its reset value. -/
def Obligations.KeyUntouchedInvariant : Prop :=
  ∀ s t : State, KeyUntouched s → step s = .next t → KeyUntouched t

/-- R34: the invariants hold right after reset. -/
def Obligations.ResetMeetsInvariants : Prop :=
  Coherent State.reset ∧ ResultsNamed State.reset ∧ KeyUntouched State.reset ∧ Idle State.reset

/-- The model's choice, of its own fields: no step changes the algorithm parameters of R8 (log 6), and a step draws a
latency exactly when it accepts a command, a host write to CMD taken with BUSY = 0 in a step that is not the completion
of a pending command (logs 4 and 5). -/
def Obligations.ParametersConstant : Prop :=
  ∀ s t : State, step s = .next t →
    let accepts := (∃ v q, s.hostQueue = .access (.write .w32 0x004 v) :: q) ∧ s.status.busy = false ∧
      ∀ p, s.pending = some p → 1 < p.cyclesLeft
    t.params = s.params ∧
    (accepts → t.latencyIndex = s.latencyIndex + 1) ∧ (¬ accepts → t.latencyIndex = s.latencyIndex)

/-- R19 to R25: which commands write which register. No command writes DIN, DIN2, KEY, KEY_LOADED, CMD or CTRL; DOUT2 is
written only by PAD, DOUT only by a PERM, an MSTEP or PAD, CHAIN only by a chained MSTEP or CHAIN_INIT, and DIGEST only
by DIGEST_CLEAR, DFOLD or an MSTEP with FOLD. -/
def Obligations.CommandsWriteOnlyTheirRegisters : Prop :=
  ∀ (i : Instr) (s t : State), exec i s = .next t →
    t.din = s.din ∧ t.din2 = s.din2 ∧ t.key = s.key ∧ t.keyLoaded = s.keyLoaded ∧ t.cmd = s.cmd ∧ t.ie = s.ie ∧
    t.params = s.params ∧ t.hostQueue = s.hostQueue ∧ t.responses = s.responses ∧
    (t.dout2 ≠ s.dout2 → ∃ n, i = .pad n) ∧
    (t.dout ≠ s.dout → (∃ k, i = .permaE k ∨ i = .permaD k ∨ i = .permbE k ∨ i = .permbD k) ∨
      (∃ m d alg fold k, i = mstepInstr m d alg fold k) ∨ ∃ n, i = .pad n) ∧
    (t.chain ≠ s.chain → (∃ m d alg fold k, m ≠ .ecb ∧ i = mstepInstr m d alg fold k) ∨ i = .chainInit) ∧
    (t.digest ≠ s.digest → i = .digestClear ∨ i = .dfold ∨ ∃ m d alg k, i = mstepInstr m d alg true k)

/-! ### The commands, each with the state it leaves -/

/-- R111: NOP completes and changes no register. -/
def Obligations.NopCompletes : Prop :=
  ∀ s : State, exec .nop s =
    .next { s with status := { s.status with done := true, busy := false }, pending := none }

/-- R72, R73, R89, R90: a PERM command with a key at hand writes the permuted block of DIN to DOUT and changes no other
register; the key is KEY, or with KSEL = 1 the algorithm's default key (R114). -/
def Obligations.PermCommandsComplete : Prop :=
  ∀ (ksel : KeySel) (s : State), KeyAvailable ksel s →
    let ka := match ksel with | .registers => s.key | .builtIn => Config.defaultKeyA
    let kb := match ksel with | .registers => s.key | .builtIn => Config.defaultKeyB
    let after (y : Block) : Host.Outcome State Fault Refusal :=
      .next { s with dout := y, status := { s.status with done := true, busy := false }, pending := none }
    exec (.permaE ksel) s = after (encryptA s.params s.din ka) ∧
    exec (.permaD ksel) s = after (decryptA s.params s.din ka) ∧
    exec (.permbE ksel) s = after (encryptB s.params s.din kb) ∧
    exec (.permbD ksel) s = after (decryptB s.params s.din kb)

/-- R92 to R100: an MSTEP with a key at hand writes the mode's output block to DOUT and its next chaining value to CHAIN,
folds the output block into DIGEST when FOLD is set, and changes no other register. E and D are the selected
permutation under the effective key (R114), x is DIN and c is CHAIN. -/
def Obligations.MstepCommandsComplete : Prop :=
  ∀ (alg : Alg) (fold : Bool) (ksel : KeySel) (s : State), KeyAvailable ksel s →
    let k := match ksel, alg with
      | .registers, _ => s.key | .builtIn, .a => Config.defaultKeyA | .builtIn, .b => Config.defaultKeyB
    let E (b : Block) : Block := match alg with | .a => encryptA s.params b k | .b => encryptB s.params b k
    let D (b : Block) : Block := match alg with | .a => decryptA s.params b k | .b => decryptB s.params b k
    let x := s.din
    let c := s.chain
    let after (y c' : Block) : Host.Outcome State Fault Refusal :=
      .next { s with
        dout := y
        chain := c'
        digest := if fold then s.digest ^^^ y else s.digest
        status := { s.status with done := true, busy := false }
        pending := none }
    exec (.mstepEcbE alg fold ksel) s = after (E x) c ∧
    exec (.mstepEcbD alg fold ksel) s = after (D x) c ∧
    exec (.mstepCbcE alg fold ksel) s = after (E (x ^^^ c)) (E (x ^^^ c)) ∧
    exec (.mstepCbcD alg fold ksel) s = after (D x ^^^ c) x ∧
    exec (.mstepCfbE alg fold ksel) s = after (E c ^^^ x) (E c ^^^ x) ∧
    exec (.mstepCfbD alg fold ksel) s = after (E c ^^^ x) x ∧
    exec (.mstepOfbE alg fold ksel) s = after (E c ^^^ x) (E c) ∧
    exec (.mstepOfbD alg fold ksel) s = after (E c ^^^ x) (E c)

/-- R113, R136: a PERM or MSTEP command with KSEL = 0 and KEY_LOADED = 0 fails with KEY_MISSING and writes no data
register. -/
def Obligations.KeyMissingTraps : Prop :=
  ∀ s : State, s.keyLoaded = false →
    let failed : Host.Outcome State Fault Refusal :=
      .next { s with
        status := { s.status with err := true, errCode := .keyMissing, done := true, busy := false }
        pending := none }
    exec (.permaE .registers) s = failed ∧ exec (.permaD .registers) s = failed ∧
    exec (.permbE .registers) s = failed ∧ exec (.permbD .registers) s = failed ∧
    ∀ m d alg fold, exec (mstepInstr m d alg fold .registers) s = failed

/-- R101: CHAIN_INIT loads CHAIN_IV and changes no other register. -/
def Obligations.ChainInitCompletes : Prop :=
  ∀ s : State, exec .chainInit s =
    .next { s with
      chain := Config.chainIV
      status := { s.status with done := true, busy := false }
      pending := none }

/-- R106, R107, R108: DIGEST_CLEAR clears DIGEST, DFOLD folds DIN into it, and VERIFY sets MATCH to whether DIGEST and DIN
are equal in all 384 bits, a mismatch being no error. No other register changes. -/
def Obligations.DigestCommandsComplete : Prop :=
  ∀ s : State,
    exec .digestClear s = .next { s with
      digest := 0
      status := { s.status with done := true, busy := false }
      pending := none } ∧
    exec .dfold s = .next { s with
      digest := s.digest ^^^ s.din
      status := { s.status with done := true, busy := false }
      pending := none } ∧
    exec .verify s = .next { s with
      status := { s.status with
        matched := decide (∀ k : Fin 12, groupWord s.digest k = groupWord s.din k)
        done := true
        busy := false }
      pending := none }

/-- R104: PAD of s bytes, 1 to 47. With the gap g = 48 - s, the chunk's s low bytes of DIN stand at the top of DOUT in
their order; for g of at least 2 every gap byte is g, DOUT2 is 0 and EXTRA is 0; for g = 1 the low byte is 0, DOUT2 is
the sentinel 49 and EXTRA is 1. No other register changes. -/
def Obligations.PadCompletes : Prop :=
  ∀ (slen : Byte) (s : State), 1 ≤ slen.toNat → slen.toNat ≤ 47 →
    let g := 48 - slen.toNat
    ∃ y : Block,
      exec (.pad slen) s = .next { s with
        dout := y
        dout2 := if g = 1 then 49 else 0
        status := { s.status with extra := decide (g = 1), done := true, busy := false }
        pending := none } ∧
      (∀ k, k < g → blockByte y k = if g = 1 then 0 else BitVec.ofNat 8 g) ∧
      (∀ k, k < slen.toNat → blockByte y (g + k) = blockByte s.din k)

/-- R104, R113, R136: PAD with SLEN 0 or 48 and above fails with BAD_SLEN and writes no data register. -/
def Obligations.PadLengthTraps : Prop :=
  ∀ (slen : Byte) (s : State), slen.toNat = 0 ∨ 48 ≤ slen.toNat →
    exec (.pad slen) s = .next { s with
      status := { s.status with err := true, errCode := .badSlen, done := true, busy := false }
      pending := none }

/-- R105: UNPAD. c is the last block's low byte. A c of 49 after a block that ends in 0 reports the sentinel; else a c of
2 to 48 that fills the low c bytes reports c bytes to strip; else nothing is reported. No data register changes. -/
def Obligations.UnpadCompletes : Prop :=
  ∀ (hasPrev : Bool) (s : State),
    let c := (blockByte s.din 0).toNat
    ∃ (strip : BitVec 6) (drop : Bool),
      exec (.unpad hasPrev) s = .next { s with
        status := { s.status with strip := strip, drop := drop, done := true, busy := false }
        pending := none } ∧
      (if c = 49 ∧ hasPrev = true ∧ blockByte s.din2 0 = 0 then strip = 1 ∧ drop = true
       else if 2 ≤ c ∧ c ≤ 48 ∧ ∀ k, k < c → blockByte s.din k = BitVec.ofNat 8 c then
         strip.toNat = c ∧ drop = false
       else strip = 0 ∧ drop = false)

/-- R110: UNPAD recognises what PAD made. For s of at most 46, UNPAD of PAD's DOUT reports 48 - s bytes, whatever stands
before it; for s = 47, UNPAD of DOUT2 after DOUT reports the sentinel. -/
def Obligations.UnpadAfterPad : Prop :=
  ∀ (slen : Byte) (s t : State), 1 ≤ slen.toNat → slen.toNat ≤ 47 → exec (.pad slen) s = .next t →
    (slen.toNat ≤ 46 → ∀ (h : Bool) (u : State), u.din = t.dout →
      ∃ v, exec (.unpad h) u = .next v ∧ v.status.strip.toNat = 48 - slen.toNat ∧ v.status.drop = false) ∧
    (slen.toNat = 47 → ∀ u : State, u.din = t.dout2 → u.din2 = t.dout →
      ∃ v, exec (.unpad true) u = .next v ∧ v.status.strip = 1 ∧ v.status.drop = true)

/-! ### Permutation A (40_perm_a_arx.md) -/

/-- R62: the function l in halves, its inverse, so that it is a bijection, and the rule's examples. -/
def Obligations.DiffusionFunction : Prop :=
  (∀ x : Word, ell x = x.rotateLeft 16 ^^^ (x &&& 0xFFFF) ∧
    ell x = x.extractLsb' 0 16 ++ (x.extractLsb' 16 16 ^^^ x.extractLsb' 0 16) ∧
    ((ell x).extractLsb' 0 16 ^^^ (ell x).extractLsb' 16 16) ++ (ell x).extractLsb' 16 16 = x) ∧
  Function.Bijective ell ∧
  ell 0x12345678 = 0x5678444C ∧ ell 0xFFFF0000 = 0x0000FFFF ∧ ell 0x0000FFFF = 0xFFFFFFFF ∧
  ell 0x80000001 = 0x00018001

/-- R61, R63, R64: the ARX sub-round in the rule's steps, and the sub-round and its inverse undo each other, for both
rotation directions. -/
def Obligations.AlzetteInverse : Prop :=
  (∀ (P : Params) (c x y : Word),
    let rot (v : Word) (n : Nat) : Word := match P.aRotDir with | .right => v.rotateRight n | .left => v.rotateLeft n
    let x1 := x + rot y 31
    let y1 := y ^^^ rot x1 24
    let x2 := (x1 ^^^ c) + rot y1 17
    let y2 := y1 ^^^ rot x2 17
    let x3 := (x2 ^^^ c) + y2
    let y3 := y2 ^^^ rot x3 31
    let x4 := (x3 ^^^ c) + rot y3 24
    let y4 := y3 ^^^ rot x4 16
    alz P c ⟨x, y⟩ = ⟨x4 ^^^ c, y4⟩) ∧
  ∀ (P : Params) (c : Word) (p : Pair), alzInv P c (alz P c p) = p ∧ alz P c (alzInv P c p) = p

/-- R65, R66: the linear layer in the rule's wiring, with l in its halves (R62), and the layer and its inverse undo each
other. -/
def Obligations.LinearLayerInverse : Prop :=
  (∀ x0 y0 x1 y1 x2 y2 x3 y3 x4 y4 x5 y5 : Word,
    let l (x : Word) : Word := x.extractLsb' 0 16 ++ (x.extractLsb' 16 16 ^^^ x.extractLsb' 0 16)
    let tx := l (x0 ^^^ x1 ^^^ x2)
    let ty := l (y0 ^^^ y1 ^^^ y2)
    linearLayer ⟨⟨x0, y0⟩, ⟨x1, y1⟩, ⟨x2, y2⟩, ⟨x3, y3⟩, ⟨x4, y4⟩, ⟨x5, y5⟩⟩ =
      ⟨⟨x4 ^^^ x1 ^^^ ty, y4 ^^^ y1 ^^^ tx⟩, ⟨x5 ^^^ x2 ^^^ ty, y5 ^^^ y2 ^^^ tx⟩, ⟨x3 ^^^ x0 ^^^ ty, y3 ^^^ y0 ^^^ tx⟩,
        ⟨x0, y0⟩, ⟨x1, y1⟩, ⟨x2, y2⟩⟩) ∧
  ∀ w : AWords, linearLayerInv (linearLayer w) = w ∧ linearLayer (linearLayerInv w) = w

/-- R59, R60, R67, R69: the words of a block in both orders and back, a round in the rule's steps, and the eight rounds
of E_A in their order. -/
def Obligations.PermutationASteps : Prop :=
  ∀ (P : Params) (k : Key),
    let K (i : Nat) : Word := match P.aKeyWordOrder with
      | .mswFirst => k.extractLsb' (224 - 32 * i) 32 | .lswFirst => k.extractLsb' (32 * i) 32
    let pairs (w : Nat → Word) : AWords :=
      ⟨⟨w 0, w 1⟩, ⟨w 2, w 3⟩, ⟨w 4, w 5⟩, ⟨w 6, w 7⟩, ⟨w 8, w 9⟩, ⟨w 10, w 11⟩⟩
    (∀ (w : Nat → Word) (r : Nat), r < 8 →
      let C (j : Nat) : Word := match P.aAlzConst with | .branch => K j | .round => K r
      roundA P k (pairs w) r = linearLayer
        ⟨alz P (C 0) ⟨w 0, w 1 ^^^ K r⟩, alz P (C 1) ⟨w 2, w 3 ^^^ BitVec.ofNat 32 r⟩, alz P (C 2) ⟨w 4, w 5⟩,
          alz P (C 3) ⟨w 6, w 7⟩, alz P (C 4) ⟨w 8, w 9⟩, alz P (C 5) ⟨w 10, w 11⟩⟩) ∧
    (∀ b : Block,
      blockToWords P b = pairs (fun i => match P.aWordOrder with
        | .mswFirst => b.extractLsb' (352 - 32 * i) 32 | .lswFirst => b.extractLsb' (32 * i) 32) ∧
      wordsToBlock P (blockToWords P b) = b ∧
      let R (r : Nat) (w : AWords) : AWords := roundA P k w r
      encryptA P b k = wordsToBlock P (R 7 (R 6 (R 5 (R 4 (R 3 (R 2 (R 1 (R 0 (blockToWords P b))))))))))

/-- R71: for every key and every value of the parameters, D_A undoes E_A and E_A undoes D_A, so E_A is a bijection. -/
def Obligations.PermutationARoundTrip : Prop :=
  ∀ (P : Params) (k : Key),
    (∀ b : Block, decryptA P (encryptA P b k) k = b ∧ encryptA P (decryptA P b k) k = b) ∧
    Function.Bijective (fun b : Block => encryptA P b k)

/-! ### Permutation B (41_perm_b_bitplane.md) -/

/-- R75, R77: for every lane layout, the shift by (a, b) moves lane (i, j) to ((i + a) mod 8, (j + b) mod 4). -/
def Obligations.PlaneShiftMovesLanes : Prop :=
  ∀ (P : Params) (s : GridShift) (p : Plane) (i j : Nat), P.WellFormed → i < 8 → j < 4 →
    lane P (shiftPlane P s p) ((i + s.a) % 8) ((j + s.b) % 4) = lane P p i j

/-- R80 to R83: steps 1 to 4 of a round on the state planes, in the rules' steps. Plane 2 is derived from the shifted
plane 1, twice; the shift is that of the statement PlaneShiftMovesLanes. -/
def Obligations.PermutationBStateRound : Prop :=
  ∀ (P : Params) (k : Key) (r : Nat) (a0 a1 a2 : Plane),
    let sh := shiftPlane P
    let p := a0 ^^^ a1 ^^^ a2
    let e := sh ⟨1, 5⟩ p ^^^ sh ⟨1, 14⟩ p
    let mix (a : Plane) : Plane := if P.bApplyE then a ^^^ e else a
    let b0 := mix a0 ^^^ roundConstant P k r
    let b1 := sh P.bW1 (mix a1)
    let b2 := sh P.bW2 b1
    let op (u v : Plane) : Plane := match P.bChiOp with | .xor => u ^^^ v | .and => u &&& v
    let c0 := b0 ^^^ op (~~~b1) b2
    let c1 := b1 ^^^ op (~~~b2) b0
    let d1 := sh P.bE1 c1
    stateRound P k r ⟨a0, a1, a2⟩ = ⟨c0, d1, sh P.bE2 d1⟩

/-- R74, R78, R79, R84, R85, R86: the planes of a block in both orders and back, the default key state and, under the
default lane index, the default round constants, the eight entries of the schedule, each carried on from the one
before it, the data round, and the eight data rounds of E_B in their order. -/
def Obligations.PermutationBSchedule : Prop :=
  ∀ (P : Params) (k : Key),
    (∀ b : Block,
      planesOf P b = (match P.bPlaneOrder with
        | .mspFirst => ⟨b.extractLsb' 256 128, b.extractLsb' 128 128, b.extractLsb' 0 128⟩
        | .lspFirst => ⟨b.extractLsb' 0 128, b.extractLsb' 128 128, b.extractLsb' 256 128⟩) ∧
      planesToBlock P (planesOf P b) = b) ∧
    (P.bKeyState = .zeroExtend → keyState P k = (match P.bPlaneOrder with
      | .mspFirst => ⟨0, k.extractLsb' 128 128, k.extractLsb' 0 128⟩
      | .lspFirst => ⟨k.extractLsb' 0 128, k.extractLsb' 128 128, 0⟩)) ∧
    (P.bRc = .nibbleColumn → P.bLaneIndex = defaultLaneIndex → ∀ r, r < 8 →
      roundConstant P k r = k.extractLsb' 0 128 &&& ((0xFFFF : Plane) <<< (16 * r))) ∧
    (∀ d0 d1 d2 a0 a1 a2 : Plane,
      dataRound ⟨d0, d1, d2⟩ ⟨a0, a1, a2⟩ = ⟨d1 ^^^ a1, d2 ^^^ a2, d0 ^^^ a0⟩) ∧
    let S := stateRound P k
    let s0 := S 0 (keyState P k)
    let s1 := S 1 s0
    let s2 := S 2 s1
    let s3 := S 3 s2
    let s4 := S 4 s3
    let s5 := S 5 s4
    let s6 := S 6 s5
    let s7 := S 7 s6
    schedule P k = [s0, s1, s2, s3, s4, s5, s6, s7] ∧
    ∀ b : Block,
      let D := dataRound
      encryptB P b k = planesToBlock P (D (D (D (D (D (D (D (D (planesOf P b) s0) s1) s2) s3) s4) s5) s6) s7)

/-- R88: for every key and every value of the parameters, D_B undoes E_B and E_B undoes D_B; E_B is affine in the block,
so two blocks that differ by a value have encryptions that differ by rho^2 of it. -/
def Obligations.PermutationBRoundTripAffine : Prop :=
  ∀ (P : Params) (k : Key),
    (∀ b : Block, decryptB P (encryptB P b k) k = b ∧ encryptB P (decryptB P b k) k = b) ∧
    (∀ b : Block, encryptB P b k = rhoSquared P b ^^^ encryptB P 0 k) ∧
    (∀ b delta : Block, encryptB P (b ^^^ delta) k = encryptB P b k ^^^ rhoSquared P delta)

/-! ### Streams and digests (42_mode_engine.md, 43_padding_digest.md) -/

/-- R102, mode round-trip: for every mode, algorithm, block sequence, start value, key and parameter value, the decrypt
sequence function undoes the encrypt one. -/
def Obligations.ModeRoundTrip : Prop :=
  ∀ (P : Params) (alg : Alg) (m : Mode) (k : Key) (xs : List Block) (c : Block),
    (modeSequence P alg m .dec k (modeSequence P alg m .enc k xs c).1 c).1 = xs

/-- R102: the encrypt stream and the decrypt stream of its output end with the same chaining value; in CBC and CFB it is
the last ciphertext block, in OFB the last pad, the pads being E applied over and over to the start value and each
the XOR of an input block and its output block, and in ECB the start value. -/
def Obligations.StreamsEndAlike : Prop :=
  ∀ (P : Params) (alg : Alg) (m : Mode) (k : Key) (xs : List Block) (c : Block),
    let E (b : Block) : Block := match alg with | .a => encryptA P b k | .b => encryptB P b k
    let r := modeSequence P alg m .enc k xs c
    (modeSequence P alg m .dec k r.1 c).2 = r.2 ∧
    (m = .ecb → r.2 = c) ∧
    (m = .cbc ∨ m = .cfb → r.2 = (r.1.getLast?).getD c) ∧
    (m = .ofb → r.2 = E^[xs.length] c ∧ r.2 = ((List.zipWith (· ^^^ ·) xs r.1).getLast?).getD c)

/-- R91, R92, R102, sequence law: a stream of MSTEPs through the register interface of an idle engine with its key at hand
leaves in DOUT, block by block, what the sequence function gives, CHAIN at its final chaining value, and DIGEST, with
FOLD, folded with every output block. EXEC stands by its net effect, the model's reading of WAIT (log 17). -/
def Obligations.StreamRefinesSequence : Prop :=
  ∀ (m : Mode) (d : Dir) (alg : Alg) (fold : Bool) (ksel : KeySel) (xs : List Block) (s : State),
    Idle s → KeyAvailable ksel s →
    let r := modeSequence s.params alg m d (effKey ksel alg s) xs s.chain
    ∃ t, runStream (mstepInstr m d alg fold ksel) xs s = .ok (r.1, t) ∧ Idle t ∧ t.chain = r.2 ∧
      t.digest = (if fold then s.digest ^^^ xorFold r.1 else s.digest) ∧
      t.key = s.key ∧ t.keyLoaded = s.keyLoaded ∧ t.params = s.params ∧ t.din2 = s.din2 ∧ t.dout2 = s.dout2 ∧
      t.ie = s.ie

/-- R109, R129: DIGEST_CLEAR, CHAIN_INIT and one MSTEP.m.E with FOLD for each block leave the digest of the block
sequence in DIGEST; and hash gives the 48 bytes of the digest of the file's padded blocks, under the caller's key or,
without one, the algorithm's default key. EXEC stands by its net effect, the model's reading of WAIT (log 17). -/
def Obligations.DigestComputedByCommands : Prop :=
  (∀ (m : Mode) (alg : Alg) (ksel : KeySel) (xs : List Block) (s : State), Idle s → KeyAvailable ksel s →
    ∃ s₁ s₂ t ys, execCommand .digestClear s = .ok s₁ ∧ execCommand .chainInit s₁ = .ok s₂ ∧
      runStream (mstepInstr m .enc alg true ksel) xs s₂ = .ok (ys, t) ∧
      rd384 .digest t = digestOf s.params alg m (effKey ksel alg s) xs) ∧
  ∀ (m : Mode) (alg : Alg) (key : Option Key) (f : List Byte) (s : State), Idle s →
    let k := match key, alg with
      | some k, _ => k | none, .a => Config.defaultKeyA | none, .b => Config.defaultKeyB
    let d := digestOf s.params alg m k (fullBlocks (paddedBytes f))
    ∃ t, hashFile alg m key f s = .ok (bytesOfBlock d, t) ∧ t.digest = d ∧ Idle t

/-- R109: under Permutation B in ECB the digest is rho^2 of the XOR of the blocks, with E_B(0, k) folded in once when
their number is odd; so for an even number it does not depend on the key. -/
def Obligations.BitPlaneEcbDigestLaw : Prop :=
  ∀ (P : Params) (k : Key) (xs : List Block),
    digestOf P .b .ecb k xs =
      rhoSquared P (xorFold xs) ^^^ (if xs.length % 2 = 1 then encryptB P 0 k else 0)

/-! ### Host procedures (30_encoding.md R57, 45_host_protocol.md) -/

/-- R57: on an engine that is not busy, WR384 sets a whole writable group, WRKEY the whole key and KEY_LOADED, and
RD384 reads a whole group. -/
def Obligations.WideAccesses : Prop :=
  ∀ (s : State) (v : Block) (k : Key), s.status.busy = false →
    wr384 .din v s = { s with din := v } ∧ wr384 .din2 v s = { s with din2 := v } ∧
    wr384 .chain v s = { s with chain := v } ∧ wrKey k s = { s with key := k, keyLoaded := true } ∧
    rd384 .din s = s.din ∧ rd384 .din2 s = s.din2 ∧ rd384 .dout s = s.dout ∧ rd384 .dout2 s = s.dout2 ∧
    rd384 .chain s = s.chain ∧ rd384 .digest s = s.digest

/-- R57, R115, R160: what EXEC, modelled by its net effect (log 17), does to an idle engine is what the machine's own
steps (log 5) do, after some number of them, when the host writes the command word and then waits, whatever the
latency. An EXEC whose command fails ends an action (R133) and is not spoken of here: what the machine does then is
the statement CommandCompletesAfterLatency. -/
def Obligations.ExecRefinesSteps : Prop :=
  ∀ (i : Instr) (s t : State), Idle s → execCommand i s = .ok t →
    ∃ n u, Runs n { s with hostQueue := [.access (.write .w32 0x004 (encode i))] } u ∧ engineView u = engineView t

/-- R126: a key file of 1 to 31 bytes gives the key of its bytes followed by 32 - t bytes of value 48 - t; one of 32
bytes or more gives its first 32 bytes; an empty one is an absent key. -/
def Obligations.KeyFileRule : Prop :=
  ∀ (kf : List Byte) (s : State), Idle s →
    (kf = [] → keyFromFile kf s = .error .keyAbsent) ∧
    (kf ≠ [] → ∃ k t, keyFromFile kf s = .ok (k, t) ∧
      ∀ j, j < 32 → k.extractLsb' (8 * (31 - j)) 8 = (kf[j]?).getD (BitVec.ofNat 8 (48 - kf.length)))

/-- R128, R133: decrypt disallows padding: a length that is no multiple of 48 is an alignment error. -/
def Obligations.DecryptAlignmentError : Prop :=
  ∀ (alg : Alg) (m : Mode) (k : Key) (g : List Byte) (s : State), g.length % 48 ≠ 0 →
    decryptFile alg m k g s = .error .alignment

/-- R123 to R125, R127, R128: encrypt gives the serialised output blocks of the encrypt sequence of the file's padded
blocks, from CHAIN_IV; decrypt of a block-aligned file gives what unpadding leaves of the serialised decrypt sequence;
so for every file whose length is no multiple of 48, every algorithm, mode, key and parameter value, encrypt and then
decrypt, each from an idle engine with the same parameters, give the file back. The actions run EXEC by its net effect
(log 17). -/
def Obligations.FileRoundTrip : Prop :=
  (∀ (alg : Alg) (m : Mode) (k : Key) (f : List Byte) (s : State), Idle s →
    (∃ t, encryptFile alg m k f s =
      .ok (bytesOfBlocks (modeSequence s.params alg m .enc k (fullBlocks (paddedBytes f)) Config.chainIV).1, t)) ∧
    (f.length % 48 = 0 → ∃ t, decryptFile alg m k f s =
      .ok (unpaddedBytes (bytesOfBlocks (modeSequence s.params alg m .dec k (fullBlocks f) Config.chainIV).1), t))) ∧
  ∀ (alg : Alg) (m : Mode) (k : Key) (f : List Byte) (s s' : State),
    Idle s → Idle s' → s'.params = s.params → f.length % 48 ≠ 0 →
    ∃ g t t', encryptFile alg m k f s = .ok (g, t) ∧ g.length % 48 = 0 ∧ decryptFile alg m k g s' = .ok (f, t')

/-- R130, R131: verifying a signed file with the same algorithm, mode and key succeeds, for a file of every length. The
actions run EXEC by its net effect (log 17). -/
def Obligations.SignThenVerify : Prop :=
  ∀ (alg : Alg) (m : Mode) (k : Key) (f : List Byte) (s s' : State),
    Idle s → Idle s' → s'.params = s.params →
    ∃ g t t', signFile alg m k f s = .ok (g, t) ∧ g.length = f.length + 48 ∧
      verifyFile alg m k g s' = .ok (true, t')

/-- R129, R132: compare answers whether the helper file is the hash of the input, taken without a key, or, for a helper
given as a key, under the key that the helper gives (R126). For an empty helper given as a key the answer is false,
which is the model's choice (log 23). The actions run EXEC by its net effect (log 17). -/
def Obligations.CompareResult : Prop :=
  ∀ (alg : Alg) (m : Mode) (f helper : List Byte) (s s' : State),
    Idle s → Idle s' → s'.params = s.params →
    (∃ tag u t, hashFile alg m none f s = .ok (tag, u) ∧ tag.length = 48 ∧
      compareFile alg m false f helper s' = .ok (decide (helper = tag), t)) ∧
    (helper ≠ [] → ∃ k v tag u t, keyFromFile helper s = .ok (k, v) ∧ hashFile alg m (some k) f s = .ok (tag, u) ∧
      tag.length = 48 ∧ compareFile alg m true f helper s' = .ok (decide (helper = tag), t)) ∧
    (helper = [] → ∃ t, compareFile alg m true f helper s' = .ok (false, t))

/-- R126, R133: encrypt, decrypt, sign and verify end with the error of an absent key when they get no key file or an
empty one, whatever the input (that the key is looked for before the input is the model's choice, log 24); with any
other key file they are the procedure of their rule under the key the file gives. Hash uses the key file in the same
way, and without one, or with an empty one, it is the hash without a key (log 23). The actions run EXEC by its net
effect (log 17). -/
def Obligations.ActionsTakeTheirKey : Prop :=
  ∀ (alg : Alg) (m : Mode) (f : List Byte) (s : State),
    (∀ keyPath : Option (List Byte), keyPath = none ∨ keyPath = some [] →
      (∀ a : Action, a = .encrypt keyPath ∨ a = .decrypt keyPath ∨ a = .sign keyPath ∨ a = .verify keyPath →
        runAction alg m a f s = .error .keyAbsent) ∧
      runAction alg m (.hash keyPath) f s = asFile <$> hashFile alg m none f s) ∧
    (∀ kf : List Byte, kf ≠ [] → Idle s → ∃ k t, keyFromFile kf s = .ok (k, t) ∧ Idle t ∧ t.params = s.params ∧
      runAction alg m (.encrypt (some kf)) f s = asFile <$> encryptFile alg m k f t ∧
      runAction alg m (.decrypt (some kf)) f s = asFile <$> decryptFile alg m k f t ∧
      runAction alg m (.sign (some kf)) f s = asFile <$> signFile alg m k f t ∧
      runAction alg m (.verify (some kf)) f s = asVerdict <$> verifyFile alg m k f t ∧
      runAction alg m (.hash (some kf)) f s = asFile <$> hashFile alg m (some k) f t)
end

