-- ==== Sys2Proof/Laws/State.lean ====
section
/-!
SUPPORT. What each shared update of the state does to each field: one lemma per field per update, true by rfl, so that
no proof unfolds a record update. The updates are those of Machine/Ops.lean.
-/

namespace Sys2Proof.Machine

section Updates

variable (s : State) (w : Word) (n : Nat) (e : ErrCode)

/-! ### Reset (R151) -/

@[simp] theorem resetEngine_cmd : (resetEngine s).cmd = 0 := rfl
@[simp] theorem resetEngine_status : (resetEngine s).status = {} := rfl
@[simp] theorem resetEngine_ie : (resetEngine s).ie = false := rfl
@[simp] theorem resetEngine_keyLoaded : (resetEngine s).keyLoaded = false := rfl
@[simp] theorem resetEngine_key : (resetEngine s).key = 0 := rfl
@[simp] theorem resetEngine_din : (resetEngine s).din = 0 := rfl
@[simp] theorem resetEngine_din2 : (resetEngine s).din2 = 0 := rfl
@[simp] theorem resetEngine_dout : (resetEngine s).dout = 0 := rfl
@[simp] theorem resetEngine_dout2 : (resetEngine s).dout2 = 0 := rfl
@[simp] theorem resetEngine_chain : (resetEngine s).chain = Config.chainIV := rfl
@[simp] theorem resetEngine_digest : (resetEngine s).digest = 0 := rfl
@[simp] theorem resetEngine_pending : (resetEngine s).pending = none := rfl
@[simp] theorem resetEngine_params : (resetEngine s).params = s.params := rfl
@[simp] theorem resetEngine_latencyIndex : (resetEngine s).latencyIndex = s.latencyIndex := rfl
@[simp] theorem resetEngine_hostQueue : (resetEngine s).hostQueue = s.hostQueue := rfl
@[simp] theorem resetEngine_responses : (resetEngine s).responses = s.responses := rfl

/-! ### Accept (R112) -/

@[simp] theorem acceptWith_cmd : (acceptWith n w s).cmd = w := rfl
@[simp] theorem acceptWith_status : (acceptWith n w s).status = { busy := true } := rfl
@[simp] theorem acceptWith_ie : (acceptWith n w s).ie = s.ie := rfl
@[simp] theorem acceptWith_keyLoaded : (acceptWith n w s).keyLoaded = s.keyLoaded := rfl
@[simp] theorem acceptWith_key : (acceptWith n w s).key = s.key := rfl
@[simp] theorem acceptWith_din : (acceptWith n w s).din = s.din := rfl
@[simp] theorem acceptWith_din2 : (acceptWith n w s).din2 = s.din2 := rfl
@[simp] theorem acceptWith_dout : (acceptWith n w s).dout = s.dout := rfl
@[simp] theorem acceptWith_dout2 : (acceptWith n w s).dout2 = s.dout2 := rfl
@[simp] theorem acceptWith_chain : (acceptWith n w s).chain = s.chain := rfl
@[simp] theorem acceptWith_digest : (acceptWith n w s).digest = s.digest := rfl
@[simp] theorem acceptWith_pending : (acceptWith n w s).pending = some ⟨w, n⟩ := rfl
@[simp] theorem acceptWith_params : (acceptWith n w s).params = s.params := rfl
@[simp] theorem acceptWith_latencyIndex : (acceptWith n w s).latencyIndex = s.latencyIndex := rfl
@[simp] theorem acceptWith_hostQueue : (acceptWith n w s).hostQueue = s.hostQueue := rfl
@[simp] theorem acceptWith_responses : (acceptWith n w s).responses = s.responses := rfl

/-! ### Accept with the free latency (R112, R160) -/

@[simp] theorem accept_cmd : (accept w s).cmd = w := rfl
@[simp] theorem accept_status : (accept w s).status = { busy := true } := rfl
@[simp] theorem accept_ie : (accept w s).ie = s.ie := rfl
@[simp] theorem accept_keyLoaded : (accept w s).keyLoaded = s.keyLoaded := rfl
@[simp] theorem accept_key : (accept w s).key = s.key := rfl
@[simp] theorem accept_din : (accept w s).din = s.din := rfl
@[simp] theorem accept_din2 : (accept w s).din2 = s.din2 := rfl
@[simp] theorem accept_dout : (accept w s).dout = s.dout := rfl
@[simp] theorem accept_dout2 : (accept w s).dout2 = s.dout2 := rfl
@[simp] theorem accept_chain : (accept w s).chain = s.chain := rfl
@[simp] theorem accept_digest : (accept w s).digest = s.digest := rfl
@[simp] theorem accept_pending : (accept w s).pending = some ⟨w, Config.cmdLatencyBeyondOne s.latencyIndex w + 1⟩ := rfl
@[simp] theorem accept_params : (accept w s).params = s.params := rfl
@[simp] theorem accept_latencyIndex : (accept w s).latencyIndex = s.latencyIndex + 1 := rfl
@[simp] theorem accept_hostQueue : (accept w s).hostQueue = s.hostQueue := rfl
@[simp] theorem accept_responses : (accept w s).responses = s.responses := rfl

/-! ### Placing a command (log 1) -/

@[simp] theorem placeCommand_cmd : (placeCommand w s).cmd = w := rfl
@[simp] theorem placeCommand_status : (placeCommand w s).status = { busy := true } := rfl
@[simp] theorem placeCommand_ie : (placeCommand w s).ie = s.ie := rfl
@[simp] theorem placeCommand_keyLoaded : (placeCommand w s).keyLoaded = s.keyLoaded := rfl
@[simp] theorem placeCommand_key : (placeCommand w s).key = s.key := rfl
@[simp] theorem placeCommand_din : (placeCommand w s).din = s.din := rfl
@[simp] theorem placeCommand_din2 : (placeCommand w s).din2 = s.din2 := rfl
@[simp] theorem placeCommand_dout : (placeCommand w s).dout = s.dout := rfl
@[simp] theorem placeCommand_dout2 : (placeCommand w s).dout2 = s.dout2 := rfl
@[simp] theorem placeCommand_chain : (placeCommand w s).chain = s.chain := rfl
@[simp] theorem placeCommand_digest : (placeCommand w s).digest = s.digest := rfl
@[simp] theorem placeCommand_pending : (placeCommand w s).pending = some ⟨w, 1⟩ := rfl
@[simp] theorem placeCommand_params : (placeCommand w s).params = s.params := rfl
@[simp] theorem placeCommand_latencyIndex : (placeCommand w s).latencyIndex = s.latencyIndex := rfl
@[simp] theorem placeCommand_hostQueue : (placeCommand w s).hostQueue = s.hostQueue := rfl
@[simp] theorem placeCommand_responses : (placeCommand w s).responses = s.responses := rfl

/-! ### Completion of a valid command (R115) -/

@[simp] theorem complete_cmd : (complete s).cmd = s.cmd := rfl
@[simp] theorem complete_status : (complete s).status = { s.status with done := true, busy := false } := rfl
@[simp] theorem complete_ie : (complete s).ie = s.ie := rfl
@[simp] theorem complete_keyLoaded : (complete s).keyLoaded = s.keyLoaded := rfl
@[simp] theorem complete_key : (complete s).key = s.key := rfl
@[simp] theorem complete_din : (complete s).din = s.din := rfl
@[simp] theorem complete_din2 : (complete s).din2 = s.din2 := rfl
@[simp] theorem complete_dout : (complete s).dout = s.dout := rfl
@[simp] theorem complete_dout2 : (complete s).dout2 = s.dout2 := rfl
@[simp] theorem complete_chain : (complete s).chain = s.chain := rfl
@[simp] theorem complete_digest : (complete s).digest = s.digest := rfl
@[simp] theorem complete_pending : (complete s).pending = none := rfl
@[simp] theorem complete_params : (complete s).params = s.params := rfl
@[simp] theorem complete_latencyIndex : (complete s).latencyIndex = s.latencyIndex := rfl
@[simp] theorem complete_hostQueue : (complete s).hostQueue = s.hostQueue := rfl
@[simp] theorem complete_responses : (complete s).responses = s.responses := rfl

/-! ### Error entry (R138) -/

@[simp] theorem commandError_cmd : (commandError e s).cmd = s.cmd := rfl
@[simp] theorem commandError_status : (commandError e s).status = { s.status with err := true, errCode := e, done := true, busy := false } := rfl
@[simp] theorem commandError_ie : (commandError e s).ie = s.ie := rfl
@[simp] theorem commandError_keyLoaded : (commandError e s).keyLoaded = s.keyLoaded := rfl
@[simp] theorem commandError_key : (commandError e s).key = s.key := rfl
@[simp] theorem commandError_din : (commandError e s).din = s.din := rfl
@[simp] theorem commandError_din2 : (commandError e s).din2 = s.din2 := rfl
@[simp] theorem commandError_dout : (commandError e s).dout = s.dout := rfl
@[simp] theorem commandError_dout2 : (commandError e s).dout2 = s.dout2 := rfl
@[simp] theorem commandError_chain : (commandError e s).chain = s.chain := rfl
@[simp] theorem commandError_digest : (commandError e s).digest = s.digest := rfl
@[simp] theorem commandError_pending : (commandError e s).pending = none := rfl
@[simp] theorem commandError_params : (commandError e s).params = s.params := rfl
@[simp] theorem commandError_latencyIndex : (commandError e s).latencyIndex = s.latencyIndex := rfl
@[simp] theorem commandError_hostQueue : (commandError e s).hostQueue = s.hostQueue := rfl
@[simp] theorem commandError_responses : (commandError e s).responses = s.responses := rfl

/-! ### A dropped write (R117) -/

@[simp] theorem dropWrite_cmd : (dropWrite s).cmd = s.cmd := rfl
@[simp] theorem dropWrite_status : (dropWrite s).status = { s.status with ovr := true } := rfl
@[simp] theorem dropWrite_ie : (dropWrite s).ie = s.ie := rfl
@[simp] theorem dropWrite_keyLoaded : (dropWrite s).keyLoaded = s.keyLoaded := rfl
@[simp] theorem dropWrite_key : (dropWrite s).key = s.key := rfl
@[simp] theorem dropWrite_din : (dropWrite s).din = s.din := rfl
@[simp] theorem dropWrite_din2 : (dropWrite s).din2 = s.din2 := rfl
@[simp] theorem dropWrite_dout : (dropWrite s).dout = s.dout := rfl
@[simp] theorem dropWrite_dout2 : (dropWrite s).dout2 = s.dout2 := rfl
@[simp] theorem dropWrite_chain : (dropWrite s).chain = s.chain := rfl
@[simp] theorem dropWrite_digest : (dropWrite s).digest = s.digest := rfl
@[simp] theorem dropWrite_pending : (dropWrite s).pending = s.pending := rfl
@[simp] theorem dropWrite_params : (dropWrite s).params = s.params := rfl
@[simp] theorem dropWrite_latencyIndex : (dropWrite s).latencyIndex = s.latencyIndex := rfl
@[simp] theorem dropWrite_hostQueue : (dropWrite s).hostQueue = s.hostQueue := rfl
@[simp] theorem dropWrite_responses : (dropWrite s).responses = s.responses := rfl

/-! ### A cycle of a pending command (R160) -/

@[simp] theorem tick_cmd : (tick s).cmd = s.cmd := rfl
@[simp] theorem tick_status : (tick s).status = s.status := rfl
@[simp] theorem tick_ie : (tick s).ie = s.ie := rfl
@[simp] theorem tick_keyLoaded : (tick s).keyLoaded = s.keyLoaded := rfl
@[simp] theorem tick_key : (tick s).key = s.key := rfl
@[simp] theorem tick_din : (tick s).din = s.din := rfl
@[simp] theorem tick_din2 : (tick s).din2 = s.din2 := rfl
@[simp] theorem tick_dout : (tick s).dout = s.dout := rfl
@[simp] theorem tick_dout2 : (tick s).dout2 = s.dout2 := rfl
@[simp] theorem tick_chain : (tick s).chain = s.chain := rfl
@[simp] theorem tick_digest : (tick s).digest = s.digest := rfl
@[simp] theorem tick_pending : (tick s).pending = s.pending.map fun p => { p with cyclesLeft := p.cyclesLeft - 1 } := rfl
@[simp] theorem tick_params : (tick s).params = s.params := rfl
@[simp] theorem tick_latencyIndex : (tick s).latencyIndex = s.latencyIndex := rfl
@[simp] theorem tick_hostQueue : (tick s).hostQueue = s.hostQueue := rfl
@[simp] theorem tick_responses : (tick s).responses = s.responses := rfl

end Updates

end Sys2Proof.Machine
end

