-- ==== Sys2Proof/Laws/Registers.lean ====
section
/-!
SUPPORT. The registers of a group behave as storage (spec/10_state.md R17, R18), and the map of the window (R16) gives
each register its own offset. This hardware has no byte memory (20_memory.md R35): these are its read-after-write laws.
-/

namespace Sys2Proof.Machine

/-- The bits of register G[k] (R17). -/
theorem getLsbD_groupWord (g : Block) (k : Fin 12) (i : Nat) :
    (groupWord g k).getLsbD i = (decide (i < 32) && g.getLsbD (352 - 32 * k.val + i)) := by
  simp [groupWord]

theorem getLsbD_keyGroupWord (g : Key) (k : Fin 8) (i : Nat) :
    (keyGroupWord g k).getLsbD i = (decide (i < 32) && g.getLsbD (224 - 32 * k.val + i)) := by
  simp [keyGroupWord]

/-- The bits of a value after a word is put into it: the word's in its 32 bits, the value's own elsewhere. -/
theorem getLsbD_setWordAt {n : Nat} (g : BitVec n) (lo : Nat) (v : Word) (i : Nat) (hi : i < n) :
    (setWordAt g lo v).getLsbD i = if lo ≤ i ∧ i < lo + 32 then v.getLsbD (i - lo) else g.getLsbD i := by
  have hd : i - lo < n := by omega
  simp only [setWordAt, BitVec.getLsbD_or, BitVec.getLsbD_and, BitVec.getLsbD_not, BitVec.getLsbD_shiftLeft,
    BitVec.getLsbD_setWidth, BitVec.getLsbD_allOnes, hi, hd, decide_true, Bool.true_and]
  by_cases h1 : i < lo
  · have h2 : ¬ (lo ≤ i ∧ i < lo + 32) := by omega
    simp [h1, h2]
  · by_cases h3 : i - lo < 32
    · have h2 : lo ≤ i ∧ i < lo + 32 := by omega
      simp [h1, h2, h3]
    · have h2 : ¬ (lo ≤ i ∧ i < lo + 32) := by omega
      have hv : v.getLsbD (i - lo) = false := BitVec.getLsbD_of_ge _ _ (by omega)
      simp [h1, h2, h3, hv]

/-- The bits of a group after register G[k] is replaced. -/
theorem getLsbD_setGroupWord (g : Block) (k : Fin 12) (v : Word) (i : Nat) (hi : i < 384) :
    (setGroupWord g k v).getLsbD i =
      if 352 - 32 * k.val ≤ i ∧ i < 352 - 32 * k.val + 32 then v.getLsbD (i - (352 - 32 * k.val)) else g.getLsbD i :=
  getLsbD_setWordAt g _ v i hi

/-- The bits of the key group after KEY[k] is replaced. -/
theorem getLsbD_setKeyGroupWord (g : Key) (k : Fin 8) (v : Word) (i : Nat) (hi : i < 256) :
    (setKeyGroupWord g k v).getLsbD i =
      if 224 - 32 * k.val ≤ i ∧ i < 224 - 32 * k.val + 32 then v.getLsbD (i - (224 - 32 * k.val)) else g.getLsbD i :=
  getLsbD_setWordAt g _ v i hi

/-- Reading back the register of a group that was written. -/
@[simp] theorem groupWord_setGroupWord_self (g : Block) (k : Fin 12) (v : Word) :
    groupWord (setGroupWord g k v) k = v := by
  apply BitVec.eq_of_getLsbD_eq
  intro i hi
  have hk := k.isLt
  rw [getLsbD_groupWord, getLsbD_setGroupWord _ _ _ _ (by omega), if_pos (by omega)]
  simp [hi]

/-- Writing one register of a group leaves the others. -/
theorem groupWord_setGroupWord_ne (g : Block) {j k : Fin 12} (v : Word) (h : j ≠ k) :
    groupWord (setGroupWord g k v) j = groupWord g j := by
  apply BitVec.eq_of_getLsbD_eq
  intro i hi
  have hk := k.isLt
  have hj := j.isLt
  have hne : j.val ≠ k.val := fun e => h (Fin.ext e)
  rw [getLsbD_groupWord, getLsbD_groupWord, getLsbD_setGroupWord _ _ _ _ (by omega), if_neg (by omega)]

@[simp] theorem keyGroupWord_setKeyGroupWord_self (g : Key) (k : Fin 8) (v : Word) :
    keyGroupWord (setKeyGroupWord g k v) k = v := by
  apply BitVec.eq_of_getLsbD_eq
  intro i hi
  have hk := k.isLt
  rw [getLsbD_keyGroupWord, getLsbD_setKeyGroupWord _ _ _ _ (by omega), if_pos (by omega)]
  simp [hi]

theorem keyGroupWord_setKeyGroupWord_ne (g : Key) {j k : Fin 8} (v : Word) (h : j ≠ k) :
    keyGroupWord (setKeyGroupWord g k v) j = keyGroupWord g j := by
  apply BitVec.eq_of_getLsbD_eq
  intro i hi
  have hk := k.isLt
  have hj := j.isLt
  have hne : j.val ≠ k.val := fun e => h (Fin.ext e)
  rw [getLsbD_keyGroupWord, getLsbD_keyGroupWord, getLsbD_setKeyGroupWord _ _ _ _ (by omega), if_neg (by omega)]

/-- A group is determined by its twelve registers (R17). -/
theorem group_ext {a b : Block} (h : ∀ k, groupWord a k = groupWord b k) : a = b := by
  apply BitVec.eq_of_getLsbD_eq
  intro i hi
  have e := congrArg (fun w => w.getLsbD (i % 32)) (h ⟨11 - i / 32, by omega⟩)
  simp only [getLsbD_groupWord] at e
  have h1 : i % 32 < 32 := by omega
  have h2 : 352 - 32 * (11 - i / 32) + i % 32 = i := by omega
  simpa [h1, h2] using e

/-- The key group is determined by its eight registers (R18). -/
theorem keyGroup_ext {a b : Key} (h : ∀ k, keyGroupWord a k = keyGroupWord b k) : a = b := by
  apply BitVec.eq_of_getLsbD_eq
  intro i hi
  have e := congrArg (fun w => w.getLsbD (i % 32)) (h ⟨7 - i / 32, by omega⟩)
  simp only [getLsbD_keyGroupWord] at e
  have h1 : i % 32 < 32 := by omega
  have h2 : 224 - 32 * (7 - i / 32) + i % 32 = i := by omega
  simpa [h1, h2] using e

/-- The offset of each register maps back to it (R16). -/
@[simp] theorem regAt_offset (r : Reg) : regAt r.offset = some r := by
  cases r with
  | id | cmd | status | ctrl => rfl
  | key k | din k | din2 k | dout k | dout2 k | chain k | digest k => revert k; decide

@[simp] theorem target_offset (r : Reg) : target .w32 r.offset = some r := by
  simp [target]

/-- Only 32-bit accesses reach a register (R36). -/
theorem target_eq_some {w : Width} {off : Offset} {r : Reg} (h : target w off = some r) : w = .w32 ∧ regAt off = some r := by
  cases w <;> simp_all [target]

end Sys2Proof.Machine
end

