-- ==== Sys2Proof/Laws/Ops.lean ====
section
/-!
SUPPORT. For each shared operation one lemma that says once everything it can do, for proofs to cite instead of
unfolding the operation.
-/

namespace Sys2Proof.Machine

variable {s t : State} {ksel : KeySel} {alg : Alg}

@[simp] theorem succeed_eq (s : State) : succeed s = .next (complete s) := rfl

@[simp] theorem failWith_eq (e : ErrCode) (s : State) : failWith e s = .next (commandError e s) := rfl

@[simp] theorem keyMissing_registers (s : State) : keyMissing .registers s = !s.keyLoaded := rfl

@[simp] theorem keyMissing_builtIn (s : State) : keyMissing .builtIn s = false := rfl

/-- A command that uses a key either fails with KEY_MISSING or commits its results (R113, R115). -/
theorem withKey_cases {results : Key → State} (h : withKey ksel alg s results = .next t) :
    (keyMissing ksel s = true ∧ t = commandError .keyMissing s) ∨
    (keyMissing ksel s = false ∧ t = complete (results (effKey ksel alg s))) := by
  unfold withKey at h
  split at h <;> simp_all

/-- A command with its key is its results (R114). -/
theorem withKey_of_key {results : Key → State} (h : keyMissing ksel s = false) :
    withKey ksel alg s results = .next (complete (results (effKey ksel alg s))) := by
  simp [withKey, h]

/-- An MSTEP with its key (R92). -/
theorem mstep_of_key {rule : Cipher → Block → Block → ModeResult} {fold : Bool} (h : keyMissing ksel s = false) :
    mstep rule alg fold ksel s = .next (complete
      { s with
        dout := (rule (cipher s.params alg (effKey ksel alg s)) s.din s.chain).out
        chain := (rule (cipher s.params alg (effKey ksel alg s)) s.din s.chain).chain
        digest := if fold then s.digest ^^^ (rule (cipher s.params alg (effKey ksel alg s)) s.din s.chain).out
          else s.digest }) :=
  withKey_of_key h

/-- A host write is refused and changes nothing, is dropped while BUSY, or is taken (R37, R117, R120). -/
theorem busWrite_cases (width : Width) (off : Offset) (v : Word) (s : State) :
    busWrite width off v s = (.errWrite, s) ∨
    (∃ r, target width off = some r ∧ r.writable = true ∧ r ≠ .ctrl ∧ s.status.busy = true ∧
      busWrite width off v s = (.okWrite, dropWrite s)) ∨
    (∃ r, target width off = some r ∧ r.writable = true ∧ (r = .ctrl ∨ s.status.busy = false) ∧
      busWrite width off v s = (.okWrite, writeReg r v s)) := by
  unfold busWrite
  cases ht : target width off with
  | none => exact .inl rfl
  | some r =>
    by_cases hw : r.writable = true
    · by_cases hb : s.status.busy = true ∧ r ≠ .ctrl
      · exact .inr (.inl ⟨r, rfl, hw, hb.2, hb.1, by simp [hw, hb.1, hb.2]⟩)
      · refine .inr (.inr ⟨r, rfl, hw, ?_, ?_⟩)
        · by_cases hc : r = .ctrl
          · exact .inl hc
          · exact .inr (by simpa [hc] using hb)
        · have : (s.status.busy && r != .ctrl) = false := by
            by_cases hc : r = .ctrl <;> simp_all
          simp [hw, this]
    · exact .inl (by simp [hw])

/-- A register write does one of six things (R120): nothing for a read-only register. -/
theorem writeReg_cases (r : Reg) (v : Word) (s : State) :
    writeReg r v s = s ∨ writeReg r v s = accept v s ∨ writeReg r v s = resetEngine s ∨
    writeReg r v s = { s with ie := v.getLsbD 0 } ∨
    (∃ k, writeReg r v s = { s with key := k, keyLoaded := true }) ∨
    (∃ b, writeReg r v s = { s with din := b } ∨ writeReg r v s = { s with din2 := b } ∨
      writeReg r v s = { s with chain := b }) := by
  cases r with
  | id | status | dout | dout2 | digest => exact .inl rfl
  | cmd => exact .inr (.inl rfl)
  | ctrl =>
    by_cases h : v.getLsbD 1 = true
    · exact .inr (.inr (.inl (by simp [writeReg, writeCtrl, h])))
    · exact .inr (.inr (.inr (.inl (if_neg h))))
  | key k => exact .inr (.inr (.inr (.inr (.inl ⟨_, rfl⟩))))
  | din k => exact .inr (.inr (.inr (.inr (.inr ⟨_, .inl rfl⟩))))
  | din2 k => exact .inr (.inr (.inr (.inr (.inr ⟨_, .inr (.inl rfl)⟩))))
  | chain k => exact .inr (.inr (.inr (.inr (.inr ⟨_, .inr (.inr rfl)⟩))))

/-- A host read has no side effect (R40). -/
@[simp] theorem exchange_read_snd (width : Width) (off : Offset) (s : State) :
    (exchange (.read width off) s).2 = s := rfl

/-- An access itself leaves the answers so far alone: keeping its own is `applyEvent`'s (log 3). -/
@[simp] theorem exchange_responses (a : Access) (s : State) : (exchange a s).2.responses = s.responses := by
  cases a with
  | read => rfl
  | write width off v =>
    rcases busWrite_cases width off v s with h | ⟨_, _, _, _, _, h⟩ | ⟨r, _, _, _, h⟩ <;> simp only [exchange, h]
    · rfl
    · rcases writeReg_cases r v s with e | e | e | e | ⟨k, e⟩ | ⟨b, e | e | e⟩ <;> rw [e] <;> rfl

/-- What reaches the engine from outside changes its state in one of three ways: not at all (a read or a refused
write), as a dropped or a taken write, or as a reset; the answer of an access is appended to the answers (R42, R150). -/
theorem applyEvent_cases (e : Event) (s : State) :
    (∃ l, applyEvent e s = { s with responses := l }) ∨
    (s.status.busy = true ∧ ∃ l, applyEvent e s = { dropWrite s with responses := l }) ∨
    (∃ r v l, (r = .ctrl ∨ s.status.busy = false) ∧ applyEvent e s = { writeReg r v s with responses := l }) ∨
    applyEvent e s = resetEngine s := by
  cases e with
  | extReset => exact .inr (.inr (.inr rfl))
  | powerOn => exact .inr (.inr (.inr rfl))
  | access a =>
    cases a with
    | read width off => exact .inl ⟨_, rfl⟩
    | write width off v =>
      rcases busWrite_cases width off v s with h | ⟨_, _, _, _, hb, h⟩ | ⟨r, _, _, hr, h⟩
      · exact .inl ⟨s.responses ++ [.errWrite], by simp [applyEvent, exchange, h]⟩
      · exact .inr (.inl ⟨hb, s.responses ++ [.okWrite], by simp [applyEvent, exchange, h]⟩)
      · exact .inr (.inr (.inl ⟨r, v, (writeReg r v s).responses ++ [.okWrite], hr, by
          simp [applyEvent, exchange, h]⟩))

/-- With nothing to come the outside does nothing (R148); else the oldest event is applied. -/
theorem hostTurn_nil (h : s.hostQueue = []) : hostTurn s = s := by
  simp [hostTurn, h]

theorem hostTurn_cons {e : Event} {q : List Event} (h : s.hostQueue = e :: q) :
    hostTurn s = applyEvent e { s with hostQueue := q } := by
  simp [hostTurn, h]

/-- What the completion of a word is (R115): its instruction's meaning, or an error entry (R52, R53). -/
theorem completeWord_ok {w : Word} {i : Instr} (h : decodeWord w = .ok i) : completeWord w s = exec i s := by
  simp [completeWord, h]

theorem completeWord_error {w : Word} {e : DecodeError} (h : decodeWord w = .error e) :
    completeWord w s = .next (commandError (decodeErrorCode e) s) := by
  simp [completeWord, h]

/-- What one step can do, once: the outside acts with nothing pending, a cycle of the pending command passes and the
outside acts, or the pending command completes (R42, R115, R160). -/
theorem step_cases (h : step s = .next t) :
    (s.pending = none ∧ t = hostTurn s) ∨
    (∃ p, s.pending = some p ∧ 1 < p.cyclesLeft ∧ t = hostTurn (tick s)) ∨
    (∃ p, s.pending = some p ∧ p.cyclesLeft ≤ 1 ∧ completeWord p.word s = .next t) := by
  unfold step advance at h
  split at h
  · simp_all
  · next p hp =>
    split at h
    · exact .inr (.inr ⟨p, hp, by assumption, h⟩)
    · refine .inr (.inl ⟨p, hp, by omega, ?_⟩)
      simp_all

/-- A state that differs from another at most in what commands write: DOUT, DOUT2, CHAIN, DIGEST and the result fields
MATCH, EXTRA, DROP and STRIP (R19 to R25, R28). -/
structure ResultsOnly (s u : State) : Prop where
  cmd : u.cmd = s.cmd
  ie : u.ie = s.ie
  keyLoaded : u.keyLoaded = s.keyLoaded
  key : u.key = s.key
  din : u.din = s.din
  din2 : u.din2 = s.din2
  pending : u.pending = s.pending
  params : u.params = s.params
  latencyIndex : u.latencyIndex = s.latencyIndex
  hostQueue : u.hostQueue = s.hostQueue
  responses : u.responses = s.responses
  busy : u.status.busy = s.status.busy
  done : u.status.done = s.status.done
  err : u.status.err = s.status.err
  ovr : u.status.ovr = s.status.ovr
  errCode : u.status.errCode = s.status.errCode

theorem padResults_resultsOnly (n : Nat) (s : State) : ResultsOnly s (padResults n s) := by
  unfold padResults
  dsimp only
  split <;> constructor <;> rfl

theorem withKey_resultsOnly (results : Key → State) (h : ∀ k, ResultsOnly s (results k)) :
    (∃ e, e ≠ .none ∧ withKey ksel alg s results = .next (commandError e s)) ∨
    ∃ u, ResultsOnly s u ∧ withKey ksel alg s results = .next (complete u) := by
  by_cases hk : keyMissing ksel s = true
  · exact .inl ⟨.keyMissing, by decide, by simp [withKey, hk]⟩
  · exact .inr ⟨_, h _, withKey_of_key (by simpa using hk)⟩

/-- What the completion of a command can do, once (R115, R138): an error entry, or its results and the completion. -/
theorem exec_cases (i : Instr) (s : State) :
    (∃ e, e ≠ .none ∧ exec i s = .next (commandError e s)) ∨
    ∃ u, ResultsOnly s u ∧ exec i s = .next (complete u) := by
  cases i with
  | permaE | permaD | permbE | permbD =>
    simp only [exec, execPermaE, execPermaD, execPermbE, execPermbD]
    exact withKey_resultsOnly _ fun k => by constructor <;> rfl
  | mstepEcbE | mstepEcbD | mstepCbcE | mstepCbcD | mstepCfbE | mstepCfbD | mstepOfbE | mstepOfbD =>
    simp only [exec, execMstepEcbE, execMstepEcbD, execMstepCbcE, execMstepCbcD, execMstepCfbE, execMstepCfbD,
      execMstepOfbE, execMstepOfbD]
    exact withKey_resultsOnly _ fun k => by constructor <;> rfl
  | pad slen =>
    by_cases h : 1 ≤ slen.toNat ∧ slen.toNat ≤ 47
    · exact .inr ⟨_, padResults_resultsOnly slen.toNat s, if_pos h⟩
    · exact .inl ⟨.badSlen, by decide, if_neg h⟩
  | nop | chainInit | digestClear | dfold | unpad | verify => exact .inr ⟨_, by constructor <;> rfl, rfl⟩

/-- The completion of any word is an error entry, or the results and the completion (R115, R138). -/
theorem completeWord_cases (w : Word) (s : State) :
    (∃ e, e ≠ .none ∧ completeWord w s = .next (commandError e s)) ∨
    ∃ u, ResultsOnly s u ∧ completeWord w s = .next (complete u) := by
  cases h : decodeWord w with
  | ok i => rw [completeWord_ok h]; exact exec_cases i s
  | error e =>
    refine .inl ⟨decodeErrorCode e, ?_, completeWord_error h⟩
    cases e <;> decide

/-- What the completion of a command can write to STATUS beside DONE and BUSY, once (R115, R116): nothing, or the results
of VERIFY, PAD or UNPAD, in their ranges (R104, R105, R108). -/
theorem exec_status_cases (i : Instr) (s : State) :
    (∃ e, e ≠ .none ∧ exec i s = .next (commandError e s)) ∨
    ∃ u, ResultsOnly s u ∧ exec i s = .next (complete u) ∧
      (u.status = s.status ∨
       (i = .verify ∧ ∃ b, u.status = { s.status with matched := b }) ∨
       (∃ n b, i = .pad n ∧ u.status = { s.status with extra := b } ∧ (b = true → n = 47)) ∨
       ∃ h st d, i = .unpad h ∧ u.status = { s.status with strip := st, drop := d } ∧ st ≤ 48 ∧
         (d = true → st = 1)) := by
  cases i with
  | permaE k | permaD k | permbE k | permbD k =>
    simp only [exec, execPermaE, execPermaD, execPermbE, execPermbD]
    by_cases hk : keyMissing k s = true
    · exact .inl ⟨.keyMissing, by decide, by simp [withKey, hk]⟩
    · exact .inr ⟨_, by constructor <;> rfl, withKey_of_key (by simpa using hk), .inl rfl⟩
  | mstepEcbE _ _ k | mstepEcbD _ _ k | mstepCbcE _ _ k | mstepCbcD _ _ k | mstepCfbE _ _ k | mstepCfbD _ _ k
  | mstepOfbE _ _ k | mstepOfbD _ _ k =>
    simp only [exec, execMstepEcbE, execMstepEcbD, execMstepCbcE, execMstepCbcD, execMstepCfbE, execMstepCfbD,
      execMstepOfbE, execMstepOfbD]
    by_cases hk : keyMissing k s = true
    · exact .inl ⟨.keyMissing, by decide, by simp [mstep, withKey, hk]⟩
    · exact .inr ⟨_, by constructor <;> rfl, mstep_of_key (by simpa using hk), .inl rfl⟩
  | pad slen =>
    by_cases h : 1 ≤ slen.toNat ∧ slen.toNat ≤ 47
    · refine .inr ⟨_, padResults_resultsOnly slen.toNat s, if_pos h, .inr (.inr (.inl ?_))⟩
      unfold padResults
      dsimp only
      split
      · exact ⟨slen, _, rfl, rfl, by simp⟩
      · exact ⟨slen, _, rfl, rfl, fun _ => BitVec.eq_of_toNat_eq (by change _ = 47; omega)⟩
    · exact .inl ⟨.badSlen, by decide, if_neg h⟩
  | unpad hasPrev =>
    refine .inr ⟨_, by constructor <;> rfl, rfl, .inr (.inr (.inr ⟨hasPrev, _, _, rfl, rfl, ?_⟩))⟩
    unfold unpadReport
    dsimp only
    split
    · exact ⟨by decide, fun _ => rfl⟩
    · split
      · next h =>
        refine ⟨?_, by simp⟩
        simp only [BitVec.le_def, BitVec.toNat_setWidth]
        have := h.2.1
        change _ ≤ 48
        omega
      · exact ⟨by decide, by simp⟩
  | verify => exact .inr ⟨_, by constructor <;> rfl, rfl, .inr (.inl ⟨rfl, _, rfl⟩)⟩
  | nop | chainInit | digestClear | dfold => exact .inr ⟨_, by constructor <;> rfl, rfl, .inl rfl⟩

/-- A host write at a register's offset (R37, R117, R120). -/
theorem exchange_write_offset (r : Reg) (v : Word) (s : State) :
    exchange (.write .w32 r.offset v) s =
      if !r.writable then (.errWrite, s)
      else if s.status.busy && r != .ctrl then (.okWrite, dropWrite s)
      else (.okWrite, writeReg r v s) := by
  simp only [exchange, busWrite, target_offset]

/-- A host read at a register's offset (R40, R118). -/
theorem exchange_read_offset (r : Reg) (s : State) :
    exchange (.read .w32 r.offset) s = (.okRead (readReg r s), s) := by
  simp [exchange, busRead]

/-- The key of a caller who gives no key file, or an empty one (R126; log 23), and of one who gives a key file. -/
@[simp] theorem optionalKey_none (s : State) : optionalKey none s = .ok (none, s) := rfl

@[simp] theorem optionalKey_empty (s : State) : optionalKey (some []) s = .ok (none, s) := rfl

theorem optionalKey_of_key {kf : List Byte} {k : Key} (hne : kf ≠ []) (h : keyFromFile kf s = .ok (k, t)) :
    optionalKey (some kf) s = .ok (some k, t) := by
  cases kf with
  | nil => exact absurd rfl hne
  | cons b bs => simp [optionalKey, h, bind, Except.bind, pure, Except.pure]

/-- The key of an action that requires one (R133). -/
@[simp] theorem requiredKey_none (s : State) : requiredKey none s = .error .keyAbsent := rfl

@[simp] theorem requiredKey_empty (s : State) : requiredKey (some []) s = .error .keyAbsent := rfl

@[simp] theorem requiredKey_some (kf : List Byte) (s : State) : requiredKey (some kf) s = keyFromFile kf s := rfl

/-- The key of a compare (R132). -/
@[simp] theorem helperKey_notKey (helper : List Byte) (s : State) : helperKey false helper s = .ok (none, s) := rfl

@[simp] theorem helperKey_asKey (helper : List Byte) (s : State) :
    helperKey true helper s = optionalKey (some helper) s := rfl

end Sys2Proof.Machine
end

