-- ==== Sys2Proof/Laws/PerInstr.lean ====
section
/-!
SUPPORT. Laws stated of every instruction, one lemma per constructor.
-/

namespace Sys2Proof.Laws.EncodeReserved

/-- The reserved fields of an instruction's word, bit 15 and bits 31:22, are 0 (spec/30_encoding.md R48). -/
def Statement (i : Instr) : Prop :=
  i.WellFormed → encode i &&& 0xFFC08000 = 0

theorem encode_mstep_reserved (base : Word) (h : base &&& 0xFFC08000 = 0) (alg : Alg) (fold : Bool) (ksel : KeySel) :
    (base ||| mstepBits alg fold ksel) &&& 0xFFC08000 = 0 := by
  rw [BitVec.and_or_distrib_right, h]
  cases alg <;> cases fold <;> cases ksel <;> rfl

theorem nop : Statement .nop := fun _ => rfl

theorem permaE (ksel : KeySel) : Statement (.permaE ksel) := fun _ => by cases ksel <;> rfl

theorem permaD (ksel : KeySel) : Statement (.permaD ksel) := fun _ => by cases ksel <;> rfl

theorem permbE (ksel : KeySel) : Statement (.permbE ksel) := fun _ => by cases ksel <;> rfl

theorem permbD (ksel : KeySel) : Statement (.permbD ksel) := fun _ => by cases ksel <;> rfl

theorem mstepEcbE (alg : Alg) (fold : Bool) (ksel : KeySel) : Statement (.mstepEcbE alg fold ksel) :=
  fun _ => encode_mstep_reserved _ rfl alg fold ksel

theorem mstepEcbD (alg : Alg) (fold : Bool) (ksel : KeySel) : Statement (.mstepEcbD alg fold ksel) :=
  fun _ => encode_mstep_reserved _ rfl alg fold ksel

theorem mstepCbcE (alg : Alg) (fold : Bool) (ksel : KeySel) : Statement (.mstepCbcE alg fold ksel) :=
  fun _ => encode_mstep_reserved _ rfl alg fold ksel

theorem mstepCbcD (alg : Alg) (fold : Bool) (ksel : KeySel) : Statement (.mstepCbcD alg fold ksel) :=
  fun _ => encode_mstep_reserved _ rfl alg fold ksel

theorem mstepCfbE (alg : Alg) (fold : Bool) (ksel : KeySel) : Statement (.mstepCfbE alg fold ksel) :=
  fun _ => encode_mstep_reserved _ rfl alg fold ksel

theorem mstepCfbD (alg : Alg) (fold : Bool) (ksel : KeySel) : Statement (.mstepCfbD alg fold ksel) :=
  fun _ => encode_mstep_reserved _ rfl alg fold ksel

theorem mstepOfbE (alg : Alg) (fold : Bool) (ksel : KeySel) : Statement (.mstepOfbE alg fold ksel) :=
  fun _ => encode_mstep_reserved _ rfl alg fold ksel

theorem mstepOfbD (alg : Alg) (fold : Bool) (ksel : KeySel) : Statement (.mstepOfbD alg fold ksel) :=
  fun _ => encode_mstep_reserved _ rfl alg fold ksel

theorem chainInit : Statement .chainInit := fun _ => rfl

theorem digestClear : Statement .digestClear := fun _ => rfl

theorem dfold : Statement .dfold := fun _ => rfl

/-- SLEN has six bits in the word, so a well-formed PAD sets none of bits 31:22. -/
theorem pad (slen : Byte) : Statement (.pad slen) := by
  intro h
  revert h slen
  decide +kernel

theorem unpad (hasPrev : Bool) : Statement (.unpad hasPrev) := fun _ => by cases hasPrev <;> rfl

theorem verify : Statement .verify := fun _ => rfl

end Sys2Proof.Laws.EncodeReserved
end

