-- ==== Sys2Proof/Tests/Slice0.lean ====
section
/-!
SUPPORT. Tests: ill-formed terms the checks refuse, words written out from the encoding table, vectors of
spec/95_test_vectors.md (derived there from the rules, with the default parameters), and for each statement that has
hypotheses a witness that meets them.
-/

namespace Sys2Proof.Tests

open Sys2Proof.Machine

/-! ### Well-formedness: one ill-formed term for each check -/

theorem test_pad_slen_64_refused : ¬ (Instr.pad 64).WellFormed := by decide

theorem test_short_lane_table_refused : ¬ ({ defaultParams with bLaneIndex := [0, 1] } : Params).WellFormed := by decide

theorem test_repeated_lane_refused :
    ¬ ({ defaultParams with bLaneIndex := 1 :: defaultLaneIndex.tail } : Params).WellFormed := by decide

theorem test_default_params_well_formed : defaultParams.WellFormed := by decide

/-! ### Decoding: a word for each row, written out from R51's pattern column with the free fields filled in -/

theorem test_decode_nop : decodeWord 0b0000000000_000000_0_0_0_0_00_0_0_00000000 = .ok .nop := by rfl

theorem test_decode_permaE :
    decodeWord 0b0000000000_000000_0_0_1_0_00_0_0_00000001 = .ok (.permaE .builtIn) := by rfl

theorem test_decode_permaD :
    decodeWord 0b0000000000_000000_0_0_0_0_00_1_0_00000001 = .ok (.permaD .registers) := by rfl

theorem test_decode_permbE :
    decodeWord 0b0000000000_000000_0_0_0_0_00_0_1_00000001 = .ok (.permbE .registers) := by rfl

theorem test_decode_permbD :
    decodeWord 0b0000000000_000000_0_0_1_0_00_1_1_00000001 = .ok (.permbD .builtIn) := by rfl

theorem test_decode_mstepEcbE :
    decodeWord 0b0000000000_000000_0_0_0_1_00_0_1_00000010 = .ok (.mstepEcbE .b true .registers) := by rfl

theorem test_decode_mstepEcbD :
    decodeWord 0b0000000000_000000_0_0_1_0_00_1_0_00000010 = .ok (.mstepEcbD .a false .builtIn) := by rfl

theorem test_decode_mstepCbcE :
    decodeWord 0b0000000000_000000_0_0_0_1_01_0_0_00000010 = .ok (.mstepCbcE .a true .registers) := by rfl

theorem test_decode_mstepCbcD :
    decodeWord 0b0000000000_000000_0_0_1_1_01_1_1_00000010 = .ok (.mstepCbcD .b true .builtIn) := by rfl

theorem test_decode_mstepCfbE :
    decodeWord 0b0000000000_000000_0_0_0_0_10_0_1_00000010 = .ok (.mstepCfbE .b false .registers) := by rfl

theorem test_decode_mstepCfbD :
    decodeWord 0b0000000000_000000_0_0_1_0_10_1_0_00000010 = .ok (.mstepCfbD .a false .builtIn) := by rfl

theorem test_decode_mstepOfbE :
    decodeWord 0b0000000000_000000_0_0_0_1_11_0_0_00000010 = .ok (.mstepOfbE .a true .registers) := by rfl

theorem test_decode_mstepOfbD :
    decodeWord 0b0000000000_000000_0_0_0_0_11_1_0_00000010 = .ok (.mstepOfbD .a false .registers) := by rfl

theorem test_decode_chainInit : decodeWord 0b0000000000_000000_0_0_0_0_00_0_0_00000011 = .ok .chainInit := by rfl

theorem test_decode_digestClear : decodeWord 0b0000000000_000000_0_0_0_0_00_0_0_00000100 = .ok .digestClear := by rfl

theorem test_decode_dfold : decodeWord 0b0000000000_000000_0_0_0_0_00_0_0_00000101 = .ok .dfold := by rfl

theorem test_decode_pad : decodeWord 0b0000000000_101111_0_0_0_0_00_0_0_00000110 = .ok (.pad 47) := by rfl

theorem test_decode_unpad : decodeWord 0b0000000000_000000_0_1_0_0_00_0_0_00000111 = .ok (.unpad true) := by rfl

theorem test_decode_verify : decodeWord 0b0000000000_000000_0_0_0_0_00_0_0_00001000 = .ok .verify := by rfl

/-- 95 section 2.8, rows E3, E4, E5, E8, E9, E12: words that are no command. -/
theorem test_decode_refused :
    [0x00000100, 0x00000009, 0xFFFFFFFF, 0x00008001, 0x00001001, 0x00400006].map
      (fun w => match decodeWord w with | .ok _ => none | .error e => some e) =
    [some .badField, some .illegalOp, some .illegalOp, some .badField, some .badField, some .badField] := by
  decide +kernel

/-! ### The permutations (95 sections 2.1 to 2.4) -/

/-- KEY1 of 95, the bytes 0x00 to 0x1F. -/
def key1 : Key :=
  0x000102030405060708090A0B0C0D0E0F101112131415161718191A1B1C1D1E1F

/-- X1 of 95, the bytes 0x00 to 0x2F. -/
def x1 : Block :=
  0x000102030405060708090A0B0C0D0E0F101112131415161718191A1B1C1D1E1F202122232425262728292A2B2C2D2E2F

/-- R63's example. -/
theorem test_alz : alz defaultParams 0xB7E15162 ⟨0x12345678, 0x9ABCDEF0⟩ = ⟨0x34C1EAB0, 0x5EC8C79D⟩ := by
  decide +kernel

/-- R65's example. -/
theorem test_linearLayer :
    linearLayer ⟨⟨1, 2⟩, ⟨3, 4⟩, ⟨5, 6⟩, ⟨7, 8⟩, ⟨9, 10⟩, ⟨11, 12⟩⟩ =
      ⟨⟨0xA, 0x70009⟩, ⟨0xE, 0x7000D⟩, ⟨0x6, 0x7000D⟩, ⟨1, 2⟩, ⟨3, 4⟩, ⟨5, 6⟩⟩ := by
  decide +kernel

/-- R77's example, and 95 section 2.3 for a shift whose second coordinate is reduced. -/
theorem test_shiftPlane :
    shiftPlane defaultParams ⟨1, 0⟩ 0x0123456789ABCDEF0123456789ABCDEF = 0x456789ABCDEF0123456789ABCDEF0123 ∧
    shiftPlane defaultParams ⟨0, 11⟩ 0x0123456789ABCDEF0123456789ABCDEF = 0x30127456B89AFCDE30127456B89AFCDE := by
  decide +kernel

/-- 95 section 2.4: the other values of B_CHI_OP and B_APPLY_E. -/
theorem test_encryptB_chi_and_apply_e :
    encryptB { defaultParams with bChiOp := .and, bApplyE := true } 0 key1 =
      0xF3E256468C8D2F3E6E7FB8A97160F1F11001AABA989861719F8E87974756263656461F0F585868691514B0B11B0BABBA := by
  decide +kernel

/-! ### One step of the machine on a placed command -/

/-- A reset machine with KEY loaded and given inputs. -/
def keyed (k : Key) (din chain : Block) : State :=
  { State.reset with key := k, keyLoaded := true, din := din, chain := chain }

/-- What the next step leaves of a state in which a word is placed. -/
def runWord {α : Type} (w : Nat) (s : State) (view : State → α) : Option α :=
  match step (s.withFetchWord 32 w) with
  | .next t => some (view t)
  | .fault _ => none
  | .refused _ => none

/-- 95 section 2.8, row E2. -/
theorem test_nop : runWord 0x00000000 (keyed 0 0 0) (readReg .status) = some 0x0000000A := by decide +kernel

/-- 95 section 2.2. -/
theorem test_permaE : runWord 0x00000001 (keyed key1 x1 0) State.dout =
    some 0x4C3D0C3C8A5DB86B82D4D1349998B47C3C7CCC233FE019050FFF29D2944F3A8EA5EE23C3A19493CF30E38F9EEDE1B1F4 := by
  decide +kernel

theorem test_permaD : runWord 0x00000201 (keyed key1 x1 0) State.dout =
    some 0x1F16E840692E0BDF83922B42B83ACDE0119F164C4F7D7D0A3D1EE2369794332D3A7A7F6477E86286F7BE4910BAF41D37 := by
  decide +kernel

/-- 95 section 2.4. -/
theorem test_permbE : runWord 0x00000101 (keyed key1 x1 0) State.dout =
    some 0x16063727060721218B9A0617CFCFEEFE72720101415171611C1D3726F2F26474051514050D0DBABAE7F70A0BEEFFF1E1 := by
  decide +kernel

theorem test_permbD : runWord 0x00000301 (keyed key1 x1 0) State.dout =
    some 0x62621111514161710C0D2736E2E27464352524353D3D8A8AD7C73A3BDECFC1D13626170726270101ABBA2637EFEFCEDE := by
  decide +kernel

/-- All ones, ONES of 95. -/
def ones : Block :=
  BitVec.allOnes 384

/-- 95 section 2.5, first steps from CHAIN = ONES, DIN = 0: DOUT and CHAIN (R93 to R100). -/
theorem test_mstepEcbE : runWord 0x00000102 (keyed key1 0 ones) (fun t => (t.dout, t.chain)) =
    some (0x3627150422220706A3B32C3CE3E2C0D1727303024554776614143D2DFEFF6A7B150406161918ACADFFEE1010F2E2EFFE, ones) := by
  decide +kernel

theorem test_mstepEcbD : runWord 0x00000302 (keyed key1 0 ones) (fun t => (t.dout, t.chain)) =
    some (0x727303024554776614143D2DFEFF6A7B150406161918ACADFFEE1010F2E2EFFE3627150422220706A3B32C3CE3E2C0D1, ones) := by
  decide +kernel

theorem test_mstepCbcE_fold : runWord 0x00001402 (keyed key1 0 ones) (fun t => (t.chain, t.digest)) =
    some (0xD9D8B6C25BBB7463C755AA98A54E82441833C2BED83ABD2A98CE45B75BDBFF3C2FB944E52D59B8F482113FB041482BC8,
      0xD9D8B6C25BBB7463C755AA98A54E82441833C2BED83ABD2A98CE45B75BDBFF3C2FB944E52D59B8F482113FB041482BC8) := by
  decide +kernel

theorem test_mstepCbcD : runWord 0x00000602 (keyed key1 0 ones) (fun t => (t.dout, t.chain)) =
    some (0x4FD231B1A9725EF52E13BAA2983E9DD4FAA6DD20D68C8413F14C9BB5B3960BAC95F7EF8699912976ADC5B2A73040B274, 0) := by
  decide +kernel

/-- 95 section 2.5, second steps, from the CHAIN that the first step leaves, DIN = X1. -/
theorem test_mstepCfbE : runWord 0x00000902
      (keyed key1 x1 0xC9D8EAFBDDDDF8F95C4CD3C31C1D3F2E8D8CFCFDBAAB8899EBEBC2D201009584EAFBF9E9E6E753520011EFEF0D1D1001)
      State.chain =
    some 0xDCDDEEEEC0C05253ABABC9D8E2F2DEDFABBAFBEA8C9C99885041F4F5FEFF4B4AB8A9D8C8879602133C2CF8E9DFCF5455 := by
  decide +kernel

theorem test_mstepCfbD : runWord 0x00000B02 (keyed key1 x1 0) (fun t => (t.dout, t.chain)) =
    some (0x3626170726270101ABBA2637EFEFCEDE62621111514161710C0D2736E2E27464352524353D3D8A8AD7C73A3BDECFC1D1, x1) := by
  decide +kernel

theorem test_mstepOfbE : runWord 0x00000D02
      (keyed key1 x1 0xC9D8EAFBDDDDF8F95C4CD3C31C1D3F2E8D8CFCFDBAAB8899EBEBC2D201009584EAFBF9E9E6E753520011EFEF0D1D1001)
      State.chain =
    some 0xDCDCECEDC4C55454A3A2C3D3EEFFD0D0BBABE9F998898F9F4858EEEEE2E255559888FAEBA3B324341405D2C2F3E27A7A := by
  decide +kernel

theorem test_mstepOfbD : runWord 0x00000E02 (keyed key1 0 ones) (fun t => (t.dout, t.chain)) =
    some (0xD9D8B6C25BBB7463C755AA98A54E82441833C2BED83ABD2A98CE45B75BDBFF3C2FB944E52D59B8F482113FB041482BC8,
      0xD9D8B6C25BBB7463C755AA98A54E82441833C2BED83ABD2A98CE45B75BDBFF3C2FB944E52D59B8F482113FB041482BC8) := by
  decide +kernel

/-- R101: the value itself is OPEN. -/
theorem test_chainInit : runWord 0x00000003 (keyed 0 0 ones) State.chain = some Config.chainIV := by rfl

/-- 95 section 2.7, rows G1, G3a, G3b, G3c. -/
theorem test_digestClear : runWord 0x00000004 { State.reset with digest := x1 } State.digest = some 0 := by
  decide +kernel

theorem test_dfold : runWord 0x00000005 { State.reset with digest := x1, din := x1 } State.digest = some 0 := by
  decide +kernel

theorem test_verify : runWord 0x00000008 { State.reset with digest := x1, din := x1 } (readReg .status) =
    some 0x00000012 := by decide +kernel

theorem test_verify_mismatch : runWord 0x00000008 { State.reset with digest := x1, din := ones } (readReg .status) =
    some 0x00000002 := by decide +kernel

/-- 95 section 2.6, rows P4 and P5. -/
theorem test_pad_46 : runWord 0x002E0006
      { State.reset with din := 0x00000102030405060708090A0B0C0D0E0F101112131415161718191A1B1C1D1E1F202122232425262728292A2B2C2D2E }
      (fun t => (t.dout, t.dout2, readReg .status t)) =
    some (0x0102030405060708090A0B0C0D0E0F101112131415161718191A1B1C1D1E1F202122232425262728292A2B2C2D2E0202, 0,
      0x00000002) := by decide +kernel

theorem test_pad_47 : runWord 0x002F0006 { State.reset with din := x1 }
      (fun t => (t.dout, t.dout2, readReg .status t)) =
    some (0x0102030405060708090A0B0C0D0E0F101112131415161718191A1B1C1D1E1F202122232425262728292A2B2C2D2E2F00, 49,
      0x00000022) := by decide +kernel

/-- 95 section 2.6, rows U5 and U8. -/
theorem test_unpad_sentinel : runWord 0x00004007 { State.reset with din := 49, din2 := 0x2F00 } (readReg .status) =
    some 0x00001042 := by decide +kernel

theorem test_unpad_48 : runWord 0x00000007
      { State.reset with din := 0x303030303030303030303030303030303030303030303030303030303030303030303030303030303030303030303030 }
      (readReg .status) =
    some 0x00030002 := by decide +kernel

/-- 95 section 2.8, rows E4, E6, E8, E11, without a key. -/
theorem test_errors :
    [0x00000009, 0x00000001, 0x00008001, 0x003F0006].map (fun w => runWord w State.reset (readReg .status)) =
      [some 0x00000106, some 0x00000406, some 0x00000206, some 0x00000306] := by decide +kernel

/-- 95 section 2.9: answers to accesses from reset. -/
theorem test_accesses :
    (exchange (.read .w32 0x000) State.reset).1 = .okRead 0x584F524B ∧
    (exchange (.read .w32 0x0B0) State.reset).1 = .errRead 0 ∧
    (exchange (.write .w8 0x080 1) State.reset).1 = .errWrite ∧
    (exchange (.write .w32 0x0AC 0x12345678) State.reset).2.din = 0x12345678 ∧
    readReg .status (exchange (.write .w32 0x03C 0) State.reset).2 = 0x00000008 ∧
    readReg .ctrl (exchange (.write .w32 0x00C 0xFFFFFFFD) State.reset).2 = 0x00000001 := by decide +kernel

/-- 95 section 3: the 5-byte key file. -/
theorem test_key_file :
    (match keyFromFile [1, 2, 3, 4, 5] State.reset with | .ok r => some r.1 | .error _ => none) =
      some 0x01020304052B2B2B2B2B2B2B2B2B2B2B2B2B2B2B2B2B2B2B2B2B2B2B2B2B2B2B := by decide +kernel

/-! ### The fixed names -/

theorem test_decodeTableWord : decodeTableWord 32 0x00001402 = some (.mstepCbcE .a true .registers) := by rfl

theorem test_withFetchWord_runs : step (State.reset.withFetchWord 32 0x00000003) =
    exec .chainInit (State.reset.withFetchWord 32 0x00000003) := by rfl

/-! ### Witnesses: states and operands that meet the hypotheses of the statements -/

/-- A state with a command pending for one more cycle after the next. -/
def busyState (w : Word) (cycles : Nat) : State :=
  acceptWith cycles w State.reset

theorem test_reset_idle : Idle State.reset := ⟨rfl, rfl⟩

theorem test_reset_coherent : Coherent State.reset where
  busy_iff_pending := rfl
  pending_word := by simp [State.reset]
  pending_cycles := by simp [State.reset]
  busy_clear := by decide
  err_iff_code := by decide
  err_done := by decide
  result_done := by decide
  strip_le := by decide
  drop_strip := by decide

theorem test_busy_coherent (w : Word) (n : Nat) : Coherent (busyState w (n + 1)) where
  busy_iff_pending := rfl
  pending_word := by simp [busyState]
  pending_cycles := by simp [busyState]
  busy_clear := fun _ => rfl
  err_iff_code := by simp [busyState]
  err_done := by simp [busyState]
  result_done := by simp [busyState]
  strip_le := by simp [busyState]
  drop_strip := by simp [busyState]

/-- DecodeOfEncode, at the largest SLEN a word holds. -/
theorem test_witness_decodeOfEncode : (Instr.pad 63).WellFormed := by decide

theorem test_witness_encodeOfDecode : decodeWord 0x003F0006 = .ok (.pad 63) := by rfl

/-- RowPatternsDisjoint. -/
theorem test_witness_rows : rows.head?.map (fun r => (r.mnemonic, r.encodes 0)) = some ("NOP", true) := by
  decide +kernel

/-- ValidationDecidesCompletion and CommandCompletesAfterLatency: words of every verdict,
at the boundaries of OP and SLEN. -/
theorem test_witness_validate :
    [0x00000009, 0x000000FF, 0x00000108, 0x00000006, 0x00300006, 0x00000001, 0x00010006, 0x002F0006, 0x00000008].map
      (fun w => validate w false) =
      [.illegalOp, .illegalOp, .badField, .badSlen, .badSlen, .keyMissing, .none, .none, .none] := by decide +kernel

/-- ErrorEntryChangesOnlyStatus: a pending word that fails validation. -/
theorem test_witness_errorEntry :
    validate 0x00000009 (busyState 0x00000009 1).keyLoaded ≠ .none ∧ Coherent (busyState 0x00000009 1) ∧
    (busyState 0x00000009 1).status.busy = true :=
  ⟨by decide +kernel, test_busy_coherent _ 0, rfl⟩

/-- CommandAccept: both clauses. -/
theorem test_witness_accept : State.reset.status.busy = false ∧ (busyState 0 1).status.busy = true := ⟨rfl, rfl⟩

/-- CommandCompletesAfterLatency. -/
theorem test_witness_latency :
    Idle { State.reset with hostQueue := [.access (.write .w32 0x004 0x00000001)] } := ⟨rfl, rfl⟩

/-- StatusAfterCompletion and StepRunsDecodedCommand: a due command; and one that is not due. -/
theorem test_witness_due :
    Coherent (busyState 0x00000008 1) ∧ (busyState 0x00000008 1).pending = some ⟨0x00000008, 1⟩ ∧
    decodeWord 0x00000008 = .ok .verify ∧ Instr.verify.WellFormed ∧
    (busyState 0x00000008 2).pending = some ⟨0x00000008, 2⟩ :=
  ⟨test_busy_coherent _ 0, rfl, rfl, trivial, rfl⟩

/-- BusyWritesDropped, BusyReadsSucceed: each clause, at the first and last registers and in a gap of the map. -/
theorem test_witness_busy :
    Coherent (busyState 0 2) ∧ (busyState 0 2).status.busy = true ∧ (Reg.key 7).offset = 0x03C ∧
    (Reg.chain 11).offset = 0x1AC ∧ (Reg.digest 11).offset = 0x1EC ∧ regAt 0x1F0 = none :=
  ⟨test_busy_coherent _ 1, rfl, rfl, rfl, rfl, rfl⟩

/-- OperandsFixedWhilePending, with a host write that is dropped. -/
theorem test_witness_operandsFixed :
    Coherent { busyState 1 2 with hostQueue := [.access (.write .w32 0x0AC 5)] } ∧
    (busyState 1 2).pending = some ⟨1, 2⟩ ∧ isReset (.access (.write .w32 0x0AC 5)) = false ∧
    isReset (.access (.write .w32 0x00C 1)) = false := by
  obtain ⟨h1, h2, h3, h4, h5, h6, h7, h8, h9⟩ := test_busy_coherent 1 1
  exact ⟨⟨h1, h2, h3, h4, h5, h6, h7, h8, h9⟩, rfl, by decide, by decide⟩

/-- RegisterWriteEffects and ResetValues and SoftResetAbandonsPending: values of both SRST clauses. -/
theorem test_witness_ctrl :
    (0x00000003 : Word).getLsbD 1 = true ∧ (0x00000001 : Word).getLsbD 1 = false ∧
    isReset (.access (.write .w32 0x00C 0x00000002)) = true ∧ isReset .extReset = true ∧ isReset .powerOn = true := by
  decide

/-- RefusedAccessesChangeNothing: the first and last aligned offset of each gap, and a misaligned one, reach no
register; the registers beside the gaps are mapped. -/
theorem test_witness_gaps :
    [0x010, 0x01C, 0x040, 0x07C, 0x0B0, 0x0BC, 0x0F0, 0x0FC, 0x130, 0x13C, 0x170, 0x17C, 0x1B0, 0x1BC, 0x1F0, 0xFFC,
      0x001].all (fun off => regAt off == none) = true ∧
    [0x00C, 0x020, 0x03C, 0x080, 0x0AC, 0x0C0, 0x0EC, 0x100, 0x12C, 0x140, 0x16C, 0x180, 0x1AC, 0x1C0, 0x1EC].all
      (fun off => (regAt off).isSome) = true := by decide +kernel

/-- The invariants: a coherent state and its step. -/
theorem test_witness_step_reset : step State.reset = .next State.reset := by rfl

theorem test_witness_resultsNamed : ResultsNamed State.reset ∧ KeyUntouched State.reset :=
  ⟨⟨by decide, by decide, by decide⟩, fun _ => rfl⟩

/-- CommandsWriteOnlyTheirRegisters. -/
theorem test_witness_exec : exec .nop State.reset = .next (complete State.reset) := by rfl

/-- PermCommandsComplete, MstepCommandsComplete: both values of KSEL. -/
theorem test_witness_key : KeyAvailable .builtIn State.reset ∧ KeyAvailable .registers (keyed 0 0 0) :=
  ⟨fun h => (nomatch h), fun _ => rfl⟩

/-- KeyMissingTraps. -/
theorem test_witness_noKey : State.reset.keyLoaded = false := rfl

/-- PadCompletes, PadLengthTraps and UnpadAfterPad: the boundaries of SLEN. -/
theorem test_witness_slen :
    (1 ≤ (1 : Byte).toNat ∧ (1 : Byte).toNat ≤ 46) ∧ (46 : Byte).toNat ≤ 46 ∧ (47 : Byte).toNat = 47 ∧
    (0 : Byte).toNat = 0 ∧ 48 ≤ (48 : Byte).toNat := by decide

theorem test_witness_unpadAfterPad :
    exec (.pad 47) State.reset = .next (complete (padResults 47 State.reset)) ∧
    exec (.pad 46) State.reset = .next (complete (padResults 46 State.reset)) := ⟨rfl, rfl⟩

/-- PlaneShiftMovesLanes, at the last lane and a shift that is reduced. -/
theorem test_witness_lane :
    defaultParams.WellFormed ∧ lane defaultParams (shiftPlane defaultParams ⟨2, 8⟩ (laneAt defaultParams 7 3 0xA)) 1 3 = 0xA := by
  decide +kernel

/-- StreamRefinesSequence, DigestComputedByCommands. -/
theorem test_witness_stream : Idle (keyed 0 0 0) ∧ KeyAvailable .registers (keyed 0 0 0) := ⟨⟨rfl, rfl⟩, fun _ => rfl⟩

/-- ExecRefinesSteps. -/
theorem test_witness_execCommand : execCommand .nop State.reset = .ok (complete (accept 0 State.reset)) := by rfl

/-- KeyFileRule, FileRoundTrip, SignThenVerify, DecryptAlignmentError: files at the boundaries. -/
theorem test_witness_files :
    Idle State.reset ∧ ([0] : List Byte) ≠ [] ∧ ([0] : List Byte).length % 48 ≠ 0 ∧
    (List.replicate 47 (0 : Byte)).length % 48 ≠ 0 :=
  ⟨⟨rfl, rfl⟩, by decide, by decide, by decide⟩

/-- ParametersConstant: a step that accepts, and one that does not because a command is due. -/
theorem test_witness_latencyDrawn :
    (step { State.reset with hostQueue := [.access (.write .w32 0x004 8)] } =
      .next { accept 8 State.reset with responses := [.okWrite] }) ∧
    (busyState 8 1).pending = some ⟨8, 1⟩ ∧ ¬ 1 < (Pending.mk 8 1).cyclesLeft := ⟨rfl, rfl, by decide⟩

/-- PermutationASteps and PermutationBSchedule: the parameter values of their clauses, at the last round. -/
theorem test_witness_steps :
    defaultParams.bKeyState = .zeroExtend ∧ defaultParams.bRc = .nibbleColumn ∧
    defaultParams.bLaneIndex = defaultLaneIndex ∧ 7 < 8 := by decide

/-- CompareResult: an empty helper and one that gives a key. -/
theorem test_witness_compare :
    Idle State.reset ∧ ([1, 2] : List Byte) ≠ [] ∧
    (match helperKey true [] State.reset, helperKey true [1, 2] State.reset with
      | .ok (none, _), .ok (some k, _) => k == 0x01022E2E2E2E2E2E2E2E2E2E2E2E2E2E2E2E2E2E2E2E2E2E2E2E2E2E2E2E2E2E
      | _, _ => false) = true := ⟨⟨rfl, rfl⟩, by decide, by decide +kernel⟩

/-- StepRunsDecodedCommand: due words that are no command, and each kind of event at the head of the queue. -/
theorem test_witness_stepClauses :
    (busyState 0x00000009 1).pending = some ⟨0x00000009, 1⟩ ∧ decodeWord 0x00000009 = .error .illegalOp ∧
    decodeWord 0x00000108 = .error .badField ∧ (busyState 0 2).pending = some ⟨0, 2⟩ ∧ (busyState 0 2).hostQueue = [] ∧
    step { State.reset with hostQueue := [.access (.read .w32 0x000)] } =
      .next { State.reset with responses := [.okRead 0x584F524B] } ∧
    step { State.reset with ie := true, hostQueue := [.extReset] } = .next State.reset := ⟨rfl, rfl, rfl, rfl, rfl, rfl, rfl⟩

/-- DigestComputedByCommands and FileRoundTrip: what padding and unpadding of bytes are, at the boundaries of R104 and
R105. -/
theorem test_witness_paddedBytes :
    (paddedBytes (List.replicate 47 7)).length = 96 ∧ (paddedBytes (List.replicate 46 7)).drop 46 = [2, 2] ∧
    paddedBytes (List.replicate 48 7) = List.replicate 48 7 ∧
    unpaddedBytes (paddedBytes (List.replicate 47 7)) = List.replicate 47 7 ∧
    unpaddedBytes (List.replicate 48 48) = [] := by decide +kernel

/-- ActionsTakeTheirKey: an empty key file ends encrypt, and a key file of one byte does not. -/
theorem test_witness_actions :
    runAction .a .cbc (.encrypt (some [])) [] State.reset = .error .keyAbsent ∧ Idle State.reset ∧ ([1] : List Byte) ≠ [] ∧
    (match runAction .a .cbc (.encrypt (some [1])) [] State.reset with
      | .ok (.file [], _) => true
      | _ => false) = true := ⟨rfl, ⟨rfl, rfl⟩, by decide, by decide +kernel⟩

end Sys2Proof.Tests
end

