-- ==== Sys2Proof/Proofs/Parameters.lean ====
section
/-!
PROOFS. The model's own fields across a step (logs 4, 5, 6): the parameters never change, and exactly an accept draws a
latency. One lemma per operation, from the register write up to the step.
-/

namespace Sys2Proof.Machine

section Operations

variable {s t : State}

/-! ### The map of the window, read backwards (R16) -/

/-- An aligned offset in a run of registers is that of the register at its index. -/
theorem offset_of_runIndex {n base : Nat} {off : Offset} {k : Fin n} (halign : off.toNat % 4 = 0)
    (hbase : base % 4 = 0) (h : runIndex n base off.toNat = some k) : off = BitVec.ofNat 12 (base + 4 * k.val) := by
  unfold runIndex at h
  split at h
  · next hrun =>
    have hk : (off.toNat - base) / 4 = k.val := congrArg Fin.val (Option.some.inj h)
    have hoff : off.toNat = base + 4 * k.val := by omega
    rw [← hoff, BitVec.ofNat_toNat, BitVec.setWidth_eq]
  · cases h

/-- A register is reached at its own offset only. -/
theorem offset_of_regAt {off : Offset} {r : Reg} (h : regAt off = some r) : off = r.offset := by
  unfold regAt at h
  dsimp only at h
  split_ifs at h with hmis hid hcmd hstatus hctrl
  · cases h; exact BitVec.eq_of_toNat_eq hid
  · cases h; exact BitVec.eq_of_toNat_eq hcmd
  · cases h; exact BitVec.eq_of_toNat_eq hstatus
  · cases h; exact BitVec.eq_of_toNat_eq hctrl
  · have halign : off.toNat % 4 = 0 := not_not.mp hmis
    simp only [Option.orElse_eq_or, Option.or_eq_some_iff, Option.map_eq_some_iff] at h
    rcases h with ⟨k, hk, rfl⟩ | ⟨-, ⟨k, hk, rfl⟩ | ⟨-, ⟨k, hk, rfl⟩ | ⟨-, ⟨k, hk, rfl⟩ | ⟨-, ⟨k, hk, rfl⟩ |
      ⟨-, ⟨k, hk, rfl⟩ | ⟨-, k, hk, rfl⟩⟩⟩⟩⟩⟩ <;>
    exact offset_of_runIndex halign rfl hk

/-- The host reaches CMD by a 32-bit access at offset 0x004 only (R16, R36). -/
theorem target_eq_cmd {width : Width} {off : Offset} (h : target width off = some .cmd) :
    width = .w32 ∧ off = 0x004 := by
  obtain ⟨hw, hr⟩ := target_eq_some h
  exact ⟨hw, offset_of_regAt hr⟩

/-! ### A register write (R120) -/

@[simp] theorem writeReg_params (r : Reg) (v : Word) (s : State) : (writeReg r v s).params = s.params := by
  rcases writeReg_cases r v s with e | e | e | e | ⟨k, e⟩ | ⟨b, e | e | e⟩ <;> rw [e] <;> rfl

/-- Only a write to CMD draws a latency. -/
theorem writeReg_latencyIndex_of_ne_cmd {r : Reg} (h : r ≠ .cmd) (v : Word) (s : State) :
    (writeReg r v s).latencyIndex = s.latencyIndex := by
  cases r with
  | cmd => exact absurd rfl h
  | ctrl =>
    unfold writeReg writeCtrl
    dsimp only
    split <;> rfl
  | id | status | key | din | din2 | dout | dout2 | chain | digest => rfl

/-! ### What reaches the engine from outside (R42, R150) -/

@[simp] theorem applyEvent_params (e : Event) (s : State) : (applyEvent e s).params = s.params := by
  rcases applyEvent_cases e s with ⟨l, h⟩ | ⟨_, l, h⟩ | ⟨r, v, l, _, h⟩ | h <;> simp [h]

/-- An accept draws one latency (R112). -/
theorem applyEvent_latencyIndex_of_accept (v : Word) (hb : s.status.busy = false) :
    (applyEvent (.access (.write .w32 0x004 v)) s).latencyIndex = s.latencyIndex + 1 := by
  have hx : exchange (.write .w32 0x004 v) s = (.okWrite, accept v s) := by
    rw [show (0x004 : Offset) = Reg.cmd.offset from rfl, exchange_write_offset]
    simp [Reg.writable, hb, writeReg]
  change (exchange _ s).2.latencyIndex = _
  rw [hx, accept_latencyIndex]

/-- Nothing but an accept draws a latency: not a write to CMD that is dropped, and no other event. -/
theorem applyEvent_latencyIndex_of_not_accept {e : Event}
    (hna : ∀ v, e = .access (.write .w32 0x004 v) → s.status.busy = true) :
    (applyEvent e s).latencyIndex = s.latencyIndex := by
  cases e with
  | extReset | powerOn => rfl
  | access a =>
    cases a with
    | read => rfl
    | write width off v =>
      rcases busWrite_cases width off v s with h | ⟨_, _, _, _, _, h⟩ | ⟨r, ht, _, hr, h⟩
      · simp [applyEvent, exchange, h]
      · simp [applyEvent, exchange, h]
      · have hne : r ≠ .cmd := by
          rintro rfl
          obtain ⟨rfl, rfl⟩ := target_eq_cmd ht
          simp [hna v rfl] at hr
        simp [applyEvent, exchange, h, writeReg_latencyIndex_of_ne_cmd hne]

/-! ### The outside's turn (R148) -/

/-- What comes next from outside is a command the engine accepts: a write to CMD with BUSY = 0 (R112). -/
def AcceptComes (s : State) : Prop :=
  (∃ v q, s.hostQueue = .access (.write .w32 0x004 v) :: q) ∧ s.status.busy = false

/-- A cycle of the pending command changes nothing about that (R160). -/
@[simp] theorem acceptComes_tick : AcceptComes (tick s) ↔ AcceptComes s := Iff.rfl

@[simp] theorem hostTurn_params (s : State) : (hostTurn s).params = s.params := by
  cases hq : s.hostQueue with
  | nil => rw [hostTurn_nil hq]
  | cons e q => rw [hostTurn_cons hq, applyEvent_params]

theorem hostTurn_latencyIndex_of_accept (h : AcceptComes s) : (hostTurn s).latencyIndex = s.latencyIndex + 1 := by
  obtain ⟨⟨v, q, hq⟩, hb⟩ := h
  rw [hostTurn_cons hq]
  exact applyEvent_latencyIndex_of_accept (s := { s with hostQueue := q }) v hb

theorem hostTurn_latencyIndex_of_not_accept (h : ¬ AcceptComes s) : (hostTurn s).latencyIndex = s.latencyIndex := by
  cases hq : s.hostQueue with
  | nil => rw [hostTurn_nil hq]
  | cons e q =>
    rw [hostTurn_cons hq]
    refine applyEvent_latencyIndex_of_not_accept (s := { s with hostQueue := q }) ?_
    rintro v rfl
    exact Bool.eq_true_of_not_eq_false fun hb => h ⟨⟨v, q, hq⟩, hb⟩

/-! ### The completion of a command (R115) -/

/-- A completion, with or without an error, leaves the parameters and draws no latency. -/
theorem completeWord_params_latencyIndex {w : Word} (h : completeWord w s = .next t) :
    t.params = s.params ∧ t.latencyIndex = s.latencyIndex := by
  rcases completeWord_cases w s with ⟨e, _, hc⟩ | ⟨u, hu, hc⟩ <;> cases hc.symm.trans h
  · exact ⟨rfl, rfl⟩
  · exact ⟨hu.params, hu.latencyIndex⟩

/-! ### The step -/

/-- No step changes the parameters (R8, log 6). -/
theorem step_params (h : step s = .next t) : t.params = s.params := by
  rcases step_cases h with ⟨_, rfl⟩ | ⟨_, _, _, rfl⟩ | ⟨_, _, _, hc⟩
  · exact hostTurn_params s
  · exact hostTurn_params (tick s)
  · exact (completeWord_params_latencyIndex hc).1

end Operations

/-- Settles O27, from what the three kinds of step do: with no command due the step is the outside's turn, which draws a
latency exactly when it accepts; with a command due it is a completion, which draws none. -/
theorem parametersConstant : Obligations.ParametersConstant := by
  intro s t h
  refine ⟨step_params h, ?_⟩
  rcases step_cases h with ⟨hp, rfl⟩ | ⟨p, hp, hleft, rfl⟩ | ⟨p, hp, hleft, hc⟩
  · have notDue : ∀ p, s.pending = some p → 1 < p.cyclesLeft := by simp [hp]
    exact ⟨fun ⟨hq, hb, _⟩ => hostTurn_latencyIndex_of_accept ⟨hq, hb⟩,
      fun hna => hostTurn_latencyIndex_of_not_accept fun ⟨hq, hb⟩ => hna ⟨hq, hb, notDue⟩⟩
  · have notDue : ∀ p, s.pending = some p → 1 < p.cyclesLeft := by simpa [hp] using hleft
    exact ⟨fun ⟨hq, hb, _⟩ => hostTurn_latencyIndex_of_accept (acceptComes_tick.mpr ⟨hq, hb⟩),
      fun hna => hostTurn_latencyIndex_of_not_accept fun hacc =>
        have ⟨hq, hb⟩ := acceptComes_tick.mp hacc
        hna ⟨hq, hb, notDue⟩⟩
  · exact ⟨fun ⟨_, _, notDue⟩ => absurd (notDue p hp) (by omega),
      fun _ => (completeWord_params_latencyIndex hc).2⟩

end Sys2Proof.Machine
end

