-- ==== Sys2Proof/Proofs/RegisterMap.lean ====
section
/-!
PROOFS. The registers as the host reads them (R16 to R18, R26 to R29): the fields of STATUS (O18), a group as its
registers and file bytes (O19), the reads of the map (O17), and what each reset source leaves to read (O21).
-/

namespace Sys2Proof.Machine

/-! ### The fields of STATUS and CTRL (R28, R29) -/

section Fields

variable (s : State)

/-- The one-bit fields of STATUS at its low end. -/
theorem statusWord_flags :
    (statusWord s).getLsbD 0 = s.status.busy ∧ (statusWord s).getLsbD 1 = s.status.done ∧
    (statusWord s).getLsbD 2 = s.status.err ∧ (statusWord s).getLsbD 3 = s.keyLoaded ∧
    (statusWord s).getLsbD 4 = s.status.matched ∧ (statusWord s).getLsbD 5 = s.status.extra ∧
    (statusWord s).getLsbD 6 = s.status.drop ∧ (statusWord s).getLsbD 7 = s.status.ovr := by
  simp only [statusWord, BitVec.getLsbD_append]
  simp

/-- ERRCODE stands above the eight flags. -/
theorem statusWord_errCode : (statusWord s).extractLsb' 8 4 = errCodeBits s.status.errCode := by
  simp (disch := decide) only [statusWord, BitVec.extractLsb'_append_eq_of_le]
  exact BitVec.extractLsb'_append_eq_right

theorem statusWord_strip : (statusWord s).extractLsb' 12 6 = s.status.strip := by
  simp (disch := decide) only [statusWord, BitVec.extractLsb'_append_eq_of_le]
  exact BitVec.extractLsb'_append_eq_right

theorem statusWord_reserved : (statusWord s).extractLsb' 18 14 = 0 := by
  simp (disch := decide) only [statusWord, BitVec.extractLsb'_append_eq_of_le]
  simp

theorem ctrlWord_ie : (ctrlWord s).getLsbD 0 = s.ie := by
  simp only [ctrlWord, BitVec.getLsbD_append]
  simp

theorem ctrlWord_reserved : (ctrlWord s).extractLsb' 1 31 = 0 := by
  simp (disch := decide) only [ctrlWord, BitVec.extractLsb'_append_eq_of_le]
  simp

end Fields

/-- Settles O18, field by field. -/
theorem statusFieldPositions : Obligations.StatusFieldPositions := by
  intro s
  obtain ⟨hbusy, hdone, herr, hkey, hmatch, hextra, hdrop, hovr⟩ := statusWord_flags s
  exact ⟨hbusy, hdone, herr, hkey, hmatch, hextra, hdrop, hovr, statusWord_errCode s, statusWord_strip s,
    statusWord_reserved s⟩

/-! ### A group as its registers and its file bytes (R17, R38) -/

/-- Byte j of the serialisation of a block, the most significant first. -/
theorem bytesOfBlock_getElem? (g : Block) {j : Nat} (hj : j < 48) :
    (bytesOfBlock g)[j]? = some (g.extractLsb' (8 * (47 - j)) 8) := by
  simp [bytesOfBlock, hj]

/-- A register is its four bytes in big-endian order. -/
theorem groupWord_eq_bytes (g : Block) (k : Fin 12) :
    groupWord g k = g.extractLsb' (8 * (47 - 4 * k.val)) 8 ++ g.extractLsb' (8 * (47 - (4 * k.val + 1))) 8 ++
      g.extractLsb' (8 * (47 - (4 * k.val + 2))) 8 ++ g.extractLsb' (8 * (47 - (4 * k.val + 3))) 8 := by
  rw [BitVec.extractLsb'_append_extractLsb'_eq_extractLsb' (by omega),
    BitVec.extractLsb'_append_extractLsb'_eq_extractLsb' (by omega),
    BitVec.extractLsb'_append_extractLsb'_eq_extractLsb' (by omega),
    show 8 * (47 - (4 * k.val + 3)) = 352 - 32 * k.val by omega]
  rfl

/-- A group is its registers, G[0] the most significant: each joins the slice of those above it. -/
theorem group_eq_registers (g : Block) :
    g = groupWord g 0 ++ groupWord g 1 ++ groupWord g 2 ++ groupWord g 3 ++ groupWord g 4 ++ groupWord g 5 ++
      groupWord g 6 ++ groupWord g 7 ++ groupWord g 8 ++ groupWord g 9 ++ groupWord g 10 ++ groupWord g 11 := by
  unfold groupWord
  iterate 11 rw [BitVec.extractLsb'_append_extractLsb'_eq_extractLsb' (by rfl)]
  exact BitVec.extractLsb'_eq_self.symm

/-- Settles O19: both clauses put adjacent slices of the block together, the registers to the whole block and four bytes
to a register. -/
theorem groupIsItsRegisters : Obligations.GroupIsItsRegisters := by
  intro g
  refine ⟨group_eq_registers g, fun k => ?_⟩
  have hk := k.isLt
  exact ⟨_, _, _, _, bytesOfBlock_getElem? g (by omega), bytesOfBlock_getElem? g (by omega),
    bytesOfBlock_getElem? g (by omega), bytesOfBlock_getElem? g (by omega), groupWord_eq_bytes g k⟩

/-! ### The reads of the map (R16, R40) -/

/-- Settles O17: each offset is that of its register, and a read there answers the register's value. -/
theorem registerMapReads : Obligations.RegisterMapReads := by
  intro s
  have hread := fun r => exchange_read_offset r s
  exact ⟨hread .id, hread .cmd, hread .status, ⟨ctrlWord s, hread .ctrl, ctrlWord_ie s, ctrlWord_reserved s⟩,
    fun k => hread (.key k),
    fun k => ⟨hread (.din k), hread (.din2 k), hread (.dout k), hread (.dout2 k), hread (.chain k), hread (.digest k)⟩⟩

/-! ### Reset (R34, R150, R151) -/

/-- A write of SRST resets the engine, busy or not (R117, R120). -/
theorem exchange_write_srst {v : Word} (h : v.getLsbD 1 = true) (s : State) :
    exchange (.write .w32 0x00C v) s = (.okWrite, resetEngine s) := by
  rw [show (0x00C : Offset) = Reg.ctrl.offset from rfl, exchange_write_offset]
  simp [Reg.writable, writeReg, writeCtrl, h]

/-- Every reset source resets the engine; beside it only the answer to a write of SRST is kept (log 3). -/
theorem applyEvent_of_isReset {e : Event} (h : isReset e = true) (s : State) :
    ∃ l, applyEvent e s = { resetEngine s with responses := l } := by
  cases e with
  | extReset | powerOn => exact ⟨s.responses, rfl⟩
  | access a =>
    cases a with
    | read => cases h
    | write width off v =>
      cases width with
      | w8 | w16 | w64 => cases h
      | w32 =>
        obtain ⟨rfl, hsrst⟩ : off = 0x00C ∧ v.getLsbD 1 = true := by
          simpa only [isReset, Bool.and_eq_true, beq_iff_eq] using h
        refine ⟨s.responses ++ [.okWrite], ?_⟩
        simp only [applyEvent, exchange_write_srst hsrst, resetEngine_responses]

@[simp] theorem statusWord_resetEngine (s : State) : statusWord (resetEngine s) = 0 := by
  simp only [statusWord, resetEngine_status, resetEngine_keyLoaded]
  decide

@[simp] theorem ctrlWord_resetEngine (s : State) : ctrlWord (resetEngine s) = 0 := by
  simp only [ctrlWord, resetEngine_ie]
  decide

@[simp] theorem groupWord_zero (k : Fin 12) : groupWord 0 k = 0 :=
  BitVec.extractLsb'_zero

@[simp] theorem keyGroupWord_zero (k : Fin 8) : keyGroupWord 0 k = 0 :=
  BitVec.extractLsb'_zero

/-- Settles O21: the state a reset source leaves reads as the reset state in every register. -/
theorem resetValues : Obligations.ResetValues := by
  intro s e h
  obtain ⟨l, ht⟩ := applyEvent_of_isReset h s
  exact ⟨_, ht, rfl, rfl, statusWord_resetEngine s, ctrlWord_resetEngine s, keyGroupWord_zero,
    fun k => ⟨groupWord_zero k, groupWord_zero k, groupWord_zero k, groupWord_zero k, groupWord_zero k, rfl⟩,
    rfl, rfl, rfl⟩

end Sys2Proof.Machine
end

