-- ==== Sys2Proof/Proofs/Invariants.lean ====
section
/-!
PROOFS. The invariants of every step (O23, O25) and the reset state that meets them (O26). What a step can do to a
property of the state is packaged once, in `hostTurn_keeps` and `step_keeps`; an invariant is then one lemma per
operation of the engine.
-/

namespace Sys2Proof.Machine

section Packaging

variable {s t : State} {P : State → Prop}

/-- The outside's turn keeps what every taken write, dropped write and reset keeps, if it does not look at the model's
own record of the outside, the events to come and the answers so far (R42, R148). -/
theorem hostTurn_keeps (record : ∀ u q l, P u → P { u with hostQueue := q, responses := l })
    (drop : ∀ u, u.status.busy = true → P u → P (dropWrite u))
    (write : ∀ r v u, P u → P (writeReg r v u))
    (reset : ∀ u, P (resetEngine u)) (h : P s) : P (hostTurn s) := by
  cases hq : s.hostQueue with
  | nil => rwa [hostTurn_nil hq]
  | cons e q =>
    rw [hostTurn_cons hq]
    have h' : P { s with hostQueue := q } := record s q s.responses h
    rcases applyEvent_cases e { s with hostQueue := q } with ⟨l, he⟩ | ⟨hb, l, he⟩ | ⟨r, v, l, -, he⟩ | he <;>
      rw [he]
    · exact record _ q l h'
    · exact record _ q l (drop _ hb h')
    · exact record _ (writeReg r v { s with hostQueue := q }).hostQueue l (write r v _ h')
    · exact reset _

/-- A step keeps what the outside's turn, a cycle of a pending command and a completion keep (R42, R115, R160). -/
theorem step_keeps (turn : ∀ u, P u → P (hostTurn u))
    (cycle : ∀ p, s.pending = some p → 1 < p.cyclesLeft → P s → P (tick s))
    (completion : ∀ p, s.pending = some p → completeWord p.word s = .next t → P s → P t)
    (h : P s) (hstep : step s = .next t) : P t := by
  rcases step_cases hstep with ⟨-, rfl⟩ | ⟨p, hp, hleft, rfl⟩ | ⟨p, hp, -, hc⟩
  · exact turn s h
  · exact turn _ (cycle p hp hleft h)
  · exact completion p hp hc h

end Packaging

section Coherence

variable {s t u : State}

/-! ### STATUS and the pending command (R28, R30) -/

/-- Coherence looks at CMD, STATUS and the pending command only. -/
theorem Coherent.congr (h : Coherent s) (hcmd : t.cmd = s.cmd) (hstatus : t.status = s.status)
    (hpending : t.pending = s.pending) : Coherent t := by
  cases s
  cases t
  cases hcmd
  cases hstatus
  cases hpending
  exact ⟨h.busy_iff_pending, h.pending_word, h.pending_cycles, h.busy_clear, h.err_iff_code, h.err_done,
    h.result_done, h.strip_le, h.drop_strip⟩

/-- While a command is pending, STATUS is as the accept left it, up to OVR (R112, R118). -/
theorem Coherent.status_of_pending {p : Pending} (h : Coherent s) (hp : s.pending = some p) :
    s.status = { busy := true, ovr := s.status.ovr } :=
  h.busy_clear (by rw [h.busy_iff_pending, hp]; rfl)

/-- A state that is as an accept leaves it, up to OVR, with a cycle left, is coherent (R112). -/
theorem coherent_of_accepted {n : Nat} {o : Bool} (hstatus : s.status = { busy := true, ovr := o })
    (hpending : s.pending = some ⟨s.cmd, n⟩) (hn : 1 ≤ n) : Coherent s where
  busy_iff_pending := by simp [hstatus, hpending]
  pending_word := by simp [hpending]
  pending_cycles := by simpa [hpending] using hn
  busy_clear := by simp [hstatus]
  err_iff_code := by simp [hstatus]
  err_done := by simp [hstatus]
  result_done := by simp [hstatus]
  strip_le := by simp [hstatus]
  drop_strip := by simp [hstatus]

/-- The converse: a coherent state with a command pending is as an accept left it, up to OVR. -/
theorem Coherent.pending_eq {p : Pending} (h : Coherent s) (hp : s.pending = some p) :
    s.pending = some ⟨s.cmd, p.cyclesLeft⟩ := by
  rw [hp, ← h.pending_word p hp]

theorem coherent_resetEngine (s : State) : Coherent (resetEngine s) where
  busy_iff_pending := rfl
  pending_word := by simp
  pending_cycles := by simp
  busy_clear := by simp
  err_iff_code := by simp
  err_done := by simp
  result_done := by simp
  strip_le := by simp
  drop_strip := by simp

theorem coherent_accept (w : Word) (s : State) : Coherent (accept w s) :=
  coherent_of_accepted (accept_status s w) (accept_pending s w) (by omega)

/-- A cycle that is not the last leaves a command pending (R160). -/
theorem Coherent.tick {p : Pending} (h : Coherent s) (hp : s.pending = some p) (hleft : 1 < p.cyclesLeft) :
    Coherent (tick s) :=
  coherent_of_accepted (n := p.cyclesLeft - 1) (h.status_of_pending hp) (by simp [h.pending_eq hp]) (by omega)

/-- A dropped write sets OVR, the one result field that may change while BUSY (R117). -/
theorem Coherent.dropWrite (h : Coherent s) (hb : s.status.busy = true) : Coherent (dropWrite s) := by
  obtain ⟨p, hp⟩ := Option.isSome_iff_exists.mp (h.busy_iff_pending ▸ hb)
  refine coherent_of_accepted (n := p.cyclesLeft) (o := true) ?_ (h.pending_eq hp) (h.pending_cycles p hp)
  rw [dropWrite_status, h.status_of_pending hp]

/-- A register write is an accept, a reset, or touches neither STATUS nor the pending command (R120). -/
theorem Coherent.writeReg (r : Reg) (v : Word) (h : Coherent s) : Coherent (writeReg r v s) := by
  rcases writeReg_cases r v s with e | e | e | e | ⟨k, e⟩ | ⟨b, e | e | e⟩ <;> rw [e]
  case inl => exact h
  case inr.inl => exact coherent_accept v s
  case inr.inr.inl => exact coherent_resetEngine s
  all_goals exact h.congr rfl rfl rfl

theorem Coherent.hostTurn (h : Coherent s) : Coherent (hostTurn s) :=
  hostTurn_keeps (fun _ _ _ h => h.congr rfl rfl rfl) (fun _ hb h => h.dropWrite hb) (fun r v _ h => h.writeReg r v)
    coherent_resetEngine h

/-- The error entry of a pending command (R138). -/
theorem coherent_commandError {e : ErrCode} {o : Bool} (hstatus : s.status = { busy := true, ovr := o })
    (he : e ≠ .none) : Coherent (commandError e s) where
  busy_iff_pending := rfl
  pending_word := by simp
  pending_cycles := by simp
  busy_clear := by simp
  err_iff_code := by simp [he]
  err_done := by simp
  result_done := by simp [hstatus]
  strip_le := by simp [hstatus]
  drop_strip := by simp [hstatus]

/-- A completion without an error, whose UNPAD results are in their range (R105, R115). -/
theorem coherent_complete (herr : u.status.err = false) (hcode : u.status.errCode = .none)
    (hstrip : u.status.strip ≤ 48) (hdrop : u.status.drop = true → u.status.strip = 1) : Coherent (complete u) where
  busy_iff_pending := rfl
  pending_word := by simp
  pending_cycles := by simp
  busy_clear := by simp
  err_iff_code := by simp [herr, hcode]
  err_done := by simp
  result_done := by simp [herr]
  strip_le := hstrip
  drop_strip := hdrop

/-- The meaning of a pending command leaves a coherent state (R115, R116). -/
theorem coherent_of_exec {i : Instr} {o : Bool} (hstatus : s.status = { busy := true, ovr := o })
    (h : exec i s = .next t) : Coherent t := by
  rcases exec_status_cases i s with ⟨e, he, hx⟩ | ⟨u, hu, hx, hres⟩ <;> cases hx.symm.trans h
  · exact coherent_commandError hstatus he
  · have hrange : u.status.strip ≤ 48 ∧ (u.status.drop = true → u.status.strip = 1) := by
      rcases hres with e | ⟨-, b, e⟩ | ⟨n, b, -, e, -⟩ | ⟨x, st, d, -, e, hst, hd⟩
      case inr.inr.inr => simpa [e] using ⟨hst, hd⟩
      all_goals simp [e, hstatus]
    exact coherent_complete (by rw [hu.err, hstatus]) (by rw [hu.errCode, hstatus]) hrange.1 hrange.2

/-- So does the completion of a pending word, a command or not (R52, R53, R115). -/
theorem coherent_of_completeWord {w : Word} {o : Bool} (hstatus : s.status = { busy := true, ovr := o })
    (h : completeWord w s = .next t) : Coherent t := by
  cases hd : decodeWord w with
  | ok i => exact coherent_of_exec hstatus (completeWord_ok hd ▸ h)
  | error e =>
    cases (completeWord_error hd).symm.trans h
    exact coherent_commandError hstatus (by cases e <;> decide)

/-! ### The names of the results (R116) -/

theorem resultsNamed_resetEngine (s : State) : ResultsNamed (resetEngine s) where
  matched_verify := by simp
  extra_pad := by simp
  unpad_results := by simp

/-! ### KEY and KEY_LOADED (R25, R34) -/

/-- This invariant looks at KEY and KEY_LOADED only. -/
theorem KeyUntouched.congr (h : KeyUntouched s) (hloaded : t.keyLoaded = s.keyLoaded) (hkey : t.key = s.key) :
    KeyUntouched t :=
  fun ht => hkey.trans (h (hloaded ▸ ht))

theorem keyUntouched_resetEngine (s : State) : KeyUntouched (resetEngine s) := fun _ => rfl

/-- A write to KEY sets KEY_LOADED, and no other write but a reset touches either (R25, R120). -/
theorem KeyUntouched.writeReg (r : Reg) (v : Word) (h : KeyUntouched s) : KeyUntouched (writeReg r v s) := by
  rcases writeReg_cases r v s with e | e | e | e | ⟨k, e⟩ | ⟨b, e | e | e⟩ <;> rw [e]
  case inr.inr.inl => exact keyUntouched_resetEngine s
  case inr.inr.inr.inr.inl => exact fun hloaded => nomatch hloaded
  all_goals exact h.congr rfl rfl

theorem KeyUntouched.hostTurn (h : KeyUntouched s) : KeyUntouched (hostTurn s) :=
  hostTurn_keeps (fun _ _ _ h => h.congr rfl rfl) (fun _ _ h => h.congr rfl rfl) (fun r v _ h => h.writeReg r v)
    keyUntouched_resetEngine h

/-- A completion touches neither (R25). -/
theorem KeyUntouched.completeWord {w : Word} (h : KeyUntouched s) (hc : completeWord w s = .next t) :
    KeyUntouched t := by
  rcases completeWord_cases w s with ⟨e, -, hx⟩ | ⟨u, hu, hx⟩ <;> cases hx.symm.trans hc
  · exact h.congr rfl rfl
  · exact h.congr hu.keyLoaded hu.key

end Coherence

/-- Settles O23: the outside's turn and a cycle keep coherence, and a completion finds STATUS as the accept left it. -/
theorem coherentInvariant : Obligations.CoherentInvariant := by
  intro s t h hstep
  exact step_keeps (fun _ h => h.hostTurn) (fun _ hp hleft h => h.tick hp hleft)
    (fun _ hp hc h => coherent_of_completeWord (h.status_of_pending hp) hc) h hstep

/-- Settles O25: only a KEY write and a reset touch KEY or KEY_LOADED, and both keep the invariant. -/
theorem keyUntouchedInvariant : Obligations.KeyUntouchedInvariant := by
  intro s t h hstep
  exact step_keeps (fun _ h => h.hostTurn) (fun _ _ _ h => h.congr rfl rfl) (fun _ _ hc h => h.completeWord hc) h hstep

/-- Settles O26: the reset state is what a reset of the engine leaves of itself. -/
theorem resetMeetsInvariants : Obligations.ResetMeetsInvariants :=
  ⟨coherent_resetEngine State.reset, resultsNamed_resetEngine State.reset, keyUntouched_resetEngine State.reset,
    ⟨rfl, rfl⟩⟩

end Sys2Proof.Machine
end

