-- ==== Sys2Proof/Proofs/CommandFrame.lean ====
section
/-!
PROOFS. Which registers a command writes (R19 to R25): one lemma that names, for each kind of command, the registers its
completion writes, and the frame of every command read off it (O28).
-/

namespace Sys2Proof.Machine

section Writes

variable {s t : State}

/-- The commands that expose a permutation (R72, R73, R89, R90). -/
def IsPerm (i : Instr) : Prop :=
  ∃ k, i = .permaE k ∨ i = .permaD k ∨ i = .permbE k ∨ i = .permbD k

/-- What a completion that is no error writes beside STATUS, by the kind of its command: `u` is the state with its
results, before DONE (R115). -/
inductive Writes (s : State) : Instr → State → Prop where
  | statusOnly {i st} : (i = .nop ∨ (∃ hasPrev, i = .unpad hasPrev) ∨ i = .verify) → Writes s i { s with status := st }
  | perm {i y} : IsPerm i → Writes s i { s with dout := y }
  | mstep {m d alg fold k y c} : (m = .ecb → c = s.chain) →
      Writes s (mstepInstr m d alg fold k)
        { s with dout := y, chain := c, digest := if fold then s.digest ^^^ y else s.digest }
  | chainInit : Writes s .chainInit { s with chain := Config.chainIV }
  | digest {i g} : i = .digestClear ∨ i = .dfold → Writes s i { s with digest := g }
  | pad {n y y2 st} : Writes s (.pad n) { s with dout := y, dout2 := y2, status := st }

/-- The meaning of an MSTEP is the frame of R92 around the rule of its mode and direction. -/
theorem exec_mstepInstr (m : Mode) (d : Dir) (alg : Alg) (fold : Bool) (k : KeySel) (s : State) :
    exec (mstepInstr m d alg fold k) s = mstep (modeRule m d) alg fold k s := by
  cases m <;> cases d <;> rfl

/-- An ECB step hands its chaining value on as it is (R93, R94). -/
theorem modeRule_ecb_chain (d : Dir) (f : Cipher) (x c : Block) : (modeRule .ecb d f x c).chain = c := by
  cases d <;> rfl

/-- What PAD writes (R104). -/
theorem padResults_writes (n : Byte) (l : Nat) (s : State) : Writes s (.pad n) (padResults l s) := by
  unfold padResults
  dsimp only
  split <;> exact .pad

/-- A command that uses a key ends with KEY_MISSING or with what its results write (R113, R115). -/
theorem writes_of_withKey {i : Instr} {ksel : KeySel} {alg : Alg} {results : Key → State}
    (hw : ∀ k, Writes s i (results k)) (h : withKey ksel alg s results = .next t) :
    (∃ e, t = commandError e s) ∨ ∃ u, Writes s i u ∧ t = complete u := by
  rcases withKey_cases h with ⟨-, ht⟩ | ⟨-, ht⟩
  · exact .inl ⟨_, ht⟩
  · exact .inr ⟨_, hw _, ht⟩

theorem writes_of_mstepInstr {m : Mode} {d : Dir} {alg : Alg} {fold : Bool} {k : KeySel}
    (h : exec (mstepInstr m d alg fold k) s = .next t) :
    (∃ e, t = commandError e s) ∨ ∃ u, Writes s (mstepInstr m d alg fold k) u ∧ t = complete u := by
  rw [exec_mstepInstr] at h
  refine writes_of_withKey (fun _ => .mstep ?_) h
  rintro rfl
  exact modeRule_ecb_chain d _ _ _

/-- What the completion of a command can write, once: nothing but STATUS in an error entry, else what its kind of
command writes (R115, R138). -/
theorem exec_writes {i : Instr} (h : exec i s = .next t) :
    (∃ e, t = commandError e s) ∨ ∃ u, Writes s i u ∧ t = complete u := by
  cases i with
  | permaE k => exact writes_of_withKey (fun _ => .perm ⟨k, .inl rfl⟩) h
  | permaD k => exact writes_of_withKey (fun _ => .perm ⟨k, .inr (.inl rfl)⟩) h
  | permbE k => exact writes_of_withKey (fun _ => .perm ⟨k, .inr (.inr (.inl rfl))⟩) h
  | permbD k => exact writes_of_withKey (fun _ => .perm ⟨k, .inr (.inr (.inr rfl))⟩) h
  | mstepEcbE => exact writes_of_mstepInstr (m := .ecb) (d := .enc) h
  | mstepEcbD => exact writes_of_mstepInstr (m := .ecb) (d := .dec) h
  | mstepCbcE => exact writes_of_mstepInstr (m := .cbc) (d := .enc) h
  | mstepCbcD => exact writes_of_mstepInstr (m := .cbc) (d := .dec) h
  | mstepCfbE => exact writes_of_mstepInstr (m := .cfb) (d := .enc) h
  | mstepCfbD => exact writes_of_mstepInstr (m := .cfb) (d := .dec) h
  | mstepOfbE => exact writes_of_mstepInstr (m := .ofb) (d := .enc) h
  | mstepOfbD => exact writes_of_mstepInstr (m := .ofb) (d := .dec) h
  | pad slen =>
    by_cases hs : 1 ≤ slen.toNat ∧ slen.toNat ≤ 47
    · cases (show exec (.pad slen) s = _ from if_pos hs).symm.trans h
      exact .inr ⟨_, padResults_writes slen slen.toNat s, rfl⟩
    · cases (show exec (.pad slen) s = _ from if_neg hs).symm.trans h
      exact .inl ⟨_, rfl⟩
  | nop => cases h; exact .inr ⟨_, .statusOnly (.inl rfl), rfl⟩
  | unpad hasPrev => cases h; exact .inr ⟨_, .statusOnly (.inr (.inl ⟨hasPrev, rfl⟩)), rfl⟩
  | verify => cases h; exact .inr ⟨_, .statusOnly (.inr (.inr rfl)), rfl⟩
  | chainInit => cases h; exact .inr ⟨_, .chainInit, rfl⟩
  | digestClear => cases h; exact .inr ⟨_, .digest (.inl rfl), rfl⟩
  | dfold => cases h; exact .inr ⟨_, .digest (.inr rfl), rfl⟩

/-- The registers that no command writes (R19, R20, R25, R27, R29) and the model's own fields. -/
theorem exec_keeps_inputs {i : Instr} (h : exec i s = .next t) :
    t.din = s.din ∧ t.din2 = s.din2 ∧ t.key = s.key ∧ t.keyLoaded = s.keyLoaded ∧ t.cmd = s.cmd ∧ t.ie = s.ie ∧
      t.params = s.params ∧ t.hostQueue = s.hostQueue ∧ t.responses = s.responses := by
  rcases exec_cases i s with ⟨e, -, hx⟩ | ⟨u, hu, hx⟩ <;> cases hx.symm.trans h
  · exact ⟨rfl, rfl, rfl, rfl, rfl, rfl, rfl, rfl, rfl⟩
  · exact ⟨hu.din, hu.din2, hu.key, hu.keyLoaded, hu.cmd, hu.ie, hu.params, hu.hostQueue, hu.responses⟩

/-! ### The writers of each result register (R21 to R24) -/

theorem writer_of_dout2 {i : Instr} (hw : Writes s i t) (hne : t.dout2 ≠ s.dout2) : ∃ n, i = .pad n := by
  cases hw with
  | pad => exact ⟨_, rfl⟩
  | _ => exact absurd rfl hne

theorem writer_of_dout {i : Instr} (hw : Writes s i t) (hne : t.dout ≠ s.dout) :
    IsPerm i ∨ (∃ m d alg fold k, i = mstepInstr m d alg fold k) ∨ ∃ n, i = .pad n := by
  cases hw with
  | perm hi => exact .inl hi
  | mstep => exact .inr (.inl ⟨_, _, _, _, _, rfl⟩)
  | pad => exact .inr (.inr ⟨_, rfl⟩)
  | statusOnly | chainInit | digest => exact absurd rfl hne

theorem writer_of_chain {i : Instr} (hw : Writes s i t) (hne : t.chain ≠ s.chain) :
    (∃ m d alg fold k, m ≠ .ecb ∧ i = mstepInstr m d alg fold k) ∨ i = .chainInit := by
  cases hw with
  | mstep hecb => exact .inl ⟨_, _, _, _, _, fun hm => hne (hecb hm), rfl⟩
  | chainInit => exact .inr rfl
  | statusOnly | perm | digest | pad => exact absurd rfl hne

theorem writer_of_digest {i : Instr} (hw : Writes s i t) (hne : t.digest ≠ s.digest) :
    i = .digestClear ∨ i = .dfold ∨ ∃ m d alg k, i = mstepInstr m d alg true k := by
  cases hw with
  | @mstep m d alg fold k =>
    cases fold with
    | false => exact absurd rfl hne
    | true => exact .inr (.inr ⟨m, d, alg, k, rfl⟩)
  | digest hi => exact hi.imp_right .inl
  | statusOnly | perm | chainInit | pad => exact absurd rfl hne

end Writes

/-- Settles O28: an error entry writes no register but STATUS, and what else a completion writes goes by the kind of its
command. -/
theorem commandsWriteOnlyTheirRegisters : Obligations.CommandsWriteOnlyTheirRegisters := by
  intro i s t h
  obtain ⟨hdin, hdin2, hkey, hloaded, hcmd, hie, hparams, hqueue, hresponses⟩ := exec_keeps_inputs h
  refine ⟨hdin, hdin2, hkey, hloaded, hcmd, hie, hparams, hqueue, hresponses, ?_⟩
  rcases exec_writes h with ⟨e, rfl⟩ | ⟨u, hw, rfl⟩
  · exact ⟨fun hne => absurd rfl hne, fun hne => absurd rfl hne, fun hne => absurd rfl hne, fun hne => absurd rfl hne⟩
  · exact ⟨writer_of_dout2 (t := u) hw, writer_of_dout (t := u) hw, writer_of_chain (t := u) hw,
      writer_of_digest (t := u) hw⟩

end Sys2Proof.Machine
end

