-- ==== Sys2Proof/Proofs/BusAccess.lean ====
section
/-!
PROOFS. Host accesses over the whole map and while a command is pending: what a refused access does (O16), what a busy
engine reads (O13), and what an event that is no reset leaves of a pending command (O14).
-/

namespace Sys2Proof.Machine

section Refusals

variable {s : State} {width : Width} {off : Offset} {v : Word}

/-! ### Refused accesses (R36, R37) -/

/-- The gaps of the map (R16). -/
def InGap (n : Nat) : Prop :=
  (0x010 ≤ n ∧ n < 0x020) ∨ (0x040 ≤ n ∧ n < 0x080) ∨ (0x0B0 ≤ n ∧ n < 0x0C0) ∨ (0x0F0 ≤ n ∧ n < 0x100) ∨
    (0x130 ≤ n ∧ n < 0x140) ∨ (0x170 ≤ n ∧ n < 0x180) ∨ (0x1B0 ≤ n ∧ n < 0x1C0) ∨ 0x1F0 ≤ n

/-- The ranges of the read-only registers and the gaps between them (R16). -/
def InReadOnly (n : Nat) : Prop :=
  n < 0x004 ∨ (0x008 ≤ n ∧ n < 0x00C) ∨ (0x100 ≤ n ∧ n < 0x180) ∨ (0x1C0 ≤ n ∧ n < 0x1F0)

/-- Every register has an aligned offset outside the gaps. -/
theorem offset_mapped (r : Reg) : r.offset.toNat % 4 = 0 ∧ ¬ InGap r.offset.toNat := by
  cases r with
  | id | cmd | status | ctrl => simp [Reg.offset, InGap]
  | key k | din k | din2 k | dout k | dout2 k | chain k | digest k =>
    simp only [Reg.offset, InGap, BitVec.toNat_ofNat]
    omega

/-- No writable register has its offset in a read-only range. -/
theorem not_writable_of_inReadOnly {r : Reg} (h : InReadOnly r.offset.toNat) : r.writable = false := by
  cases r with
  | id | status | dout | dout2 | digest => rfl
  | cmd | ctrl => simp [Reg.offset, InReadOnly] at h
  | key k | din k | din2 k | chain k =>
    simp only [Reg.offset, InReadOnly, BitVec.toNat_ofNat] at h
    omega

/-- An access of another width, at a misaligned offset or in a gap reaches no register. -/
theorem target_eq_none (h : width ≠ .w32 ∨ off.toNat % 4 ≠ 0 ∨ InGap off.toNat) : target width off = none := by
  refine Option.eq_none_iff_forall_ne_some.mpr fun r ht => ?_
  obtain ⟨hwidth, hreg⟩ := target_eq_some ht
  obtain rfl := offset_of_regAt hreg
  obtain ⟨haligned, hgap⟩ := offset_mapped r
  rcases h with hw | hmis | hin
  · exact hw hwidth
  · exact hmis haligned
  · exact hgap hin

/-- A read that reaches no register is refused. -/
theorem exchange_read_refused (h : target width off = none) (s : State) :
    exchange (.read width off) s = (.errRead 0, s) := by
  simp [exchange, busRead, h]

/-- A write that reaches no writable register is refused. -/
theorem exchange_write_refused (h : ∀ r, target width off = some r → r.writable = false) (v : Word) (s : State) :
    exchange (.write width off v) s = (.errWrite, s) := by
  rcases busWrite_cases width off v s with hx | ⟨r, ht, hw, -⟩ | ⟨r, ht, hw, -⟩
  · exact hx
  · exact absurd hw (by simp [h r ht])
  · exact absurd hw (by simp [h r ht])

end Refusals

/-- Settles O16: an access outside the map reaches no register, and a write in a read-only range no writable one. -/
theorem refusedAccessesChangeNothing : Obligations.RefusedAccessesChangeNothing := by
  intro s width off v n outside readOnly
  refine ⟨fun hout => exchange_read_refused (target_eq_none hout) s, fun h => exchange_write_refused ?_ v s⟩
  intro r ht
  rcases h with hout | hro
  · exact absurd ht (by simp [target_eq_none hout])
  · obtain rfl := offset_of_regAt (target_eq_some ht).2
    exact not_writable_of_inReadOnly hro

section Busy

variable {s : State}

/-! ### A busy engine (R117, R118) -/

/-- STATUS as an accept left it, up to OVR, reads as BUSY, KEY_LOADED and OVR (R118). -/
theorem statusWord_of_accepted {o : Bool} (h : s.status = { busy := true, ovr := o }) :
    statusWord s = 1 ||| ((BitVec.ofBool s.keyLoaded).setWidth 32 <<< 3) ||| ((BitVec.ofBool o).setWidth 32 <<< 7) := by
  simp only [statusWord, h]
  cases s.keyLoaded <;> cases o <;> rfl

/-- A busy coherent state has a command pending (R28, R30). -/
theorem Coherent.exists_pending (h : Coherent s) (hb : s.status.busy = true) : ∃ p, s.pending = some p :=
  Option.isSome_iff_exists.mp (h.busy_iff_pending ▸ hb)

/-- What an event that is no reset can change of a busy engine: OVR by a dropped write and IE by a write to CTRL, beside
the answers (R117, R120). -/
theorem applyEvent_of_busy {e : Event} (hb : s.status.busy = true) (he : isReset e = false) :
    ∃ o i l, applyEvent e s = { s with status := { s.status with ovr := o }, ie := i, responses := l } := by
  cases e with
  | extReset | powerOn => cases he
  | access a =>
    cases a with
    | read => exact ⟨s.status.ovr, s.ie, _, rfl⟩
    | write width off v =>
      rcases busWrite_cases width off v s with h | ⟨_, _, _, _, _, h⟩ | ⟨r, ht, _, hr, h⟩ <;>
        simp only [applyEvent, exchange, h]
      · exact ⟨s.status.ovr, s.ie, _, rfl⟩
      · exact ⟨true, s.ie, _, rfl⟩
      · obtain rfl : r = .ctrl := hr.resolve_right (by simp [hb])
        obtain ⟨rfl, hreg⟩ := target_eq_some ht
        obtain rfl := offset_of_regAt hreg
        have hsrst : v.getLsbD 1 = false := by simpa [isReset, Reg.offset] using he
        exact ⟨s.status.ovr, v.getLsbD 0, _, by simp only [writeReg, writeCtrl, hsrst]; rfl⟩

/-- The outside's turn changes no more, when what comes next is no reset. -/
theorem hostTurn_of_busy (hb : s.status.busy = true) (he : ∀ e q, s.hostQueue = e :: q → isReset e = false) :
    ∃ o i q l, hostTurn s =
      { s with status := { s.status with ovr := o }, ie := i, hostQueue := q, responses := l } := by
  cases hq : s.hostQueue with
  | nil => exact ⟨s.status.ovr, s.ie, [], s.responses, by rw [hostTurn_nil hq, ← hq]⟩
  | cons e q =>
    obtain ⟨o, i, l, h⟩ := applyEvent_of_busy (s := { s with hostQueue := q }) hb (he e q hq)
    exact ⟨o, i, q, l, by rw [hostTurn_cons hq, h]⟩

/-! ### The step, by what is pending (R115, R148, R160) -/

theorem step_of_none (h : s.pending = none) : step s = .next (hostTurn s) := by
  simp [step, advance, h]

theorem step_of_due {p : Pending} (h : s.pending = some p) (hdue : p.cyclesLeft ≤ 1) :
    step s = completeWord p.word s := by
  simp [step, advance, h, hdue]

theorem step_of_notDue {p : Pending} (h : s.pending = some p) (hleft : 1 < p.cyclesLeft) :
    step s = .next (hostTurn (tick s)) := by
  simp [step, advance, h, Nat.not_le.mpr hleft]

end Busy

/-- Settles O13: a read has no side effect, and coherence leaves of STATUS and CMD what the accept of the pending word
set. -/
theorem busyReadsSucceed : Obligations.BusyReadsSucceed := by
  intro s h hb
  obtain ⟨p, hp⟩ := h.exists_pending hb
  exact ⟨fun r => exchange_read_offset r s, statusWord_of_accepted (h.busy_clear hb), p, hp, (h.pending_word p hp).symm⟩

/-- Settles O14: the step is a cycle and the outside's turn, which changes of a busy engine only OVR and IE. -/
theorem operandsFixedWhilePending : Obligations.OperandsFixedWhilePending := by
  intro s p h hp hleft hreset
  have hb : s.status.busy = true := by simp [h.busy_iff_pending, hp]
  obtain ⟨o, i, q, l, hturn⟩ := hostTurn_of_busy (s := tick s) hb hreset
  refine ⟨_, step_of_notDue hp hleft, ?_⟩
  rw [hturn]
  refine ⟨by simp [hp], rfl, rfl, hb, fun r hr => ?_⟩
  cases r with
  | ctrl | status => exact absurd hr (by simp)
  | id | cmd | key | din | din2 | dout | dout2 | chain | digest => rfl

end Sys2Proof.Machine
end

