-- ==== Sys2Proof/Proofs/ExecSteps.lean ====
section
/-!
PROOFS. What a step is (O10), and that EXEC's net effect is what the machine's own steps do (O51): a completion does not
look at how long its command was pending or at the model's record of the outside, so it may be moved to the accept.
-/

namespace Sys2Proof.Machine

section Steps

variable {s t : State}

/-- An access is answered by `exchange`, and its answer is kept behind those before it (log 3). -/
theorem applyEvent_access (a : Access) (s : State) :
    applyEvent (.access a) s = { (exchange a s).2 with responses := s.responses ++ [(exchange a s).1] } := by
  simp [applyEvent]

/-- What the outside's turn is, by the oldest event to come (R42, R148, R150). -/
theorem hostTurn_clauses (s : State) :
    (s.hostQueue = [] → hostTurn s = s) ∧
    (∀ a q, s.hostQueue = .access a :: q → ∃ r v, exchange a { s with hostQueue := q } = (r, v) ∧
      v.responses = s.responses ∧ hostTurn s = { v with responses := s.responses ++ [r] }) ∧
    (∀ e q, s.hostQueue = e :: q → e = .extReset ∨ e = .powerOn →
      hostTurn s = resetEngine { s with hostQueue := q }) := by
  refine ⟨hostTurn_nil, fun a q hq => ⟨_, _, rfl, exchange_responses a _, ?_⟩, fun e q hq he => ?_⟩
  · exact (hostTurn_cons hq).trans (applyEvent_access a _)
  · rw [hostTurn_cons hq]
    rcases he with rfl | rfl <;> rfl

/-! ### A command from its accept to its completion (R112, R115, R160) -/

/-- A write to CMD is accepted with BUSY = 0 (R112). -/
theorem exchange_write_cmd (w : Word) (h : s.status.busy = false) :
    exchange (.write .w32 0x004 w) s = (.okWrite, accept w s) := by
  rw [show (0x004 : Offset) = Reg.cmd.offset from rfl, exchange_write_offset]
  simp [Reg.writable, h, writeReg]

/-- The state as another history of the outside and another pending record would have it. A completion looks at none
of the three fields. -/
def rebook (p : Option Pending) (q : List Event) (l : List Response) (s : State) : State :=
  { s with pending := p, hostQueue := q, responses := l }

variable {p : Option Pending} {q : List Event} {l : List Response}

/-- The engine's own state does not hold the record of the outside (logs 2 and 3). -/
theorem engineView_rebook (p : Option Pending) (q q' : List Event) (l l' : List Response) (s : State) :
    engineView (rebook p q l s) = engineView (rebook p q' l' s) := rfl

@[simp] theorem keyMissing_rebook (ksel : KeySel) : keyMissing ksel (rebook p q l s) = keyMissing ksel s := by
  cases ksel <;> rfl

@[simp] theorem effKey_rebook (ksel : KeySel) (alg : Alg) : effKey ksel alg (rebook p q l s) = effKey ksel alg s := by
  cases ksel <;> cases alg <;> rfl

@[simp] theorem commandError_rebook (e : ErrCode) :
    commandError e (rebook p q l s) = rebook none q l (commandError e s) := rfl

@[simp] theorem complete_rebook (s : State) : complete (rebook p q l s) = rebook none q l (complete s) := rfl

@[simp] theorem padResults_rebook (n : Nat) : padResults n (rebook p q l s) = rebook p q l (padResults n s) := by
  unfold padResults
  dsimp only
  split <;> rfl

/-- A command that uses a key does the same under another record, if its results do (R113, R115). -/
theorem withKey_rebook {ksel : KeySel} {alg : Alg} {results results' : Key → State}
    (hr : ∀ k, results' k = rebook p q l (results k)) (h : withKey ksel alg s results = .next t) :
    withKey ksel alg (rebook p q l s) results' = .next (rebook none q l t) := by
  rcases withKey_cases h with ⟨hk, rfl⟩ | ⟨hk, rfl⟩
  · simp [withKey, hk]
  · simp [withKey, hk, hr]

/-- So does every command. -/
theorem exec_rebook {i : Instr} (h : exec i s = .next t) :
    exec i (rebook p q l s) = .next (rebook none q l t) := by
  cases i with
  | permaE | permaD | permbE | permbD =>
    simp only [exec, execPermaE, execPermaD, execPermbE, execPermbD] at h ⊢
    exact withKey_rebook (fun _ => rfl) h
  | mstepEcbE | mstepEcbD | mstepCbcE | mstepCbcD | mstepCfbE | mstepCfbD | mstepOfbE | mstepOfbD =>
    simp only [exec, execMstepEcbE, execMstepEcbD, execMstepCbcE, execMstepCbcD, execMstepCfbE, execMstepCfbD,
      execMstepOfbE, execMstepOfbD] at h ⊢
    exact withKey_rebook (fun _ => rfl) h
  | pad slen =>
    by_cases hs : 1 ≤ slen.toNat ∧ slen.toNat ≤ 47
    · cases (show exec (.pad slen) s = _ from if_pos hs).symm.trans h
      exact (if_pos hs).trans (by simp)
    · cases (show exec (.pad slen) s = _ from if_neg hs).symm.trans h
      exact if_neg hs
  | nop | chainInit | digestClear | dfold | unpad | verify => cases h; rfl

/-- So a completion does the same to the engine, whatever is still to come and however long the word was pending. -/
theorem completeWord_rebook {w : Word} (h : completeWord w s = .next t) :
    completeWord w (rebook p q l s) = .next (rebook none q l t) := by
  cases hd : decodeWord w with
  | ok i =>
    rw [completeWord_ok hd] at h ⊢
    exact exec_rebook h
  | error e =>
    rw [completeWord_error hd] at h ⊢
    cases h
    rfl

/-- A completion leaves nothing pending, and the record of the outside as it was (R115). -/
theorem rebook_of_completeWord {w : Word} (h : completeWord w s = .next t) :
    rebook none s.hostQueue s.responses t = t := by
  rcases completeWord_cases w s with ⟨e, -, hx⟩ | ⟨u, hu, hx⟩ <;> cases hx.symm.trans h
  · rfl
  · rw [← hu.hostQueue, ← hu.responses]
    rfl

/-- A cycle more or less before it is due makes no difference to what a command does (R160). -/
theorem completeWord_tick {w : Word} (h : completeWord w s = .next t) : completeWord w (tick s) = .next t :=
  (completeWord_rebook (p := (tick s).pending) h).trans (congrArg _ (rebook_of_completeWord h))

/-- With nothing to come, a pending command with `n + 1` cycles left completes in the step after `n` cycles (R160). -/
theorem runs_of_pending {w : Word} (n : Nat) (hp : s.pending = some ⟨w, n + 1⟩) (hq : s.hostQueue = [])
    (h : completeWord w s = .next t) : Runs (n + 1) s t := by
  induction n generalizing s with
  | zero => exact ⟨t, (step_of_due hp le_rfl).trans h, rfl⟩
  | succ n ih =>
    have hcycle : step s = .next (tick s) := by
      rw [step_of_notDue hp (by simp), hostTurn_nil (s := tick s) hq]
    exact ⟨tick s, hcycle, ih (by simp [hp]) hq (completeWord_tick h)⟩

/-- A command written to an idle engine, with no further input, is accepted in the first step and then runs to its
completion (R112, R115, R160). -/
theorem runs_of_written {w : Word} (hidle : Idle s) (h : completeWord w (accept w s) = .next t) :
    Runs (Config.cmdLatencyBeyondOne s.latencyIndex w + 2)
      { s with hostQueue := [.access (.write .w32 0x004 w)] } (rebook none [] (s.responses ++ [.okWrite]) t) := by
  have haccept : step { s with hostQueue := [.access (.write .w32 0x004 w)] } =
      .next (rebook (accept w s).pending [] (s.responses ++ [.okWrite]) (accept w s)) := by
    rw [step_of_none (by exact hidle.nothing_pending), hostTurn_cons rfl, applyEvent_access,
      exchange_write_cmd w (by exact hidle.not_busy)]
    rfl
  exact ⟨_, haccept, runs_of_pending _ rfl rfl (completeWord_rebook h)⟩

/-- EXEC that succeeds is the accept and the completion of its word (R57). -/
theorem completeWord_of_execCommand {i : Instr} (hb : s.status.busy = false) (h : execCommand i s = .ok t) :
    completeWord (encode i) (accept (encode i) s) = .next t := by
  have hwrite : hostWrite .cmd (encode i) s = accept (encode i) s := congrArg Prod.snd (exchange_write_cmd _ hb)
  simp only [execCommand, hwrite, waitIdle, accept_pending] at h
  split at h
  · next u hu =>
    split at h <;> cases h
    exact hu
  · cases h
  · cases h

end Steps

/-- Settles O10: a due command's step is its completion, and any other step is the outside's turn, after a cycle where a
command is pending. -/
theorem stepRunsDecodedCommand : Obligations.StepRunsDecodedCommand := by
  intro s
  refine ⟨fun p hp hdue => ?_, fun p i hp hdue hd _ => (step_of_due hp hdue).trans (completeWord_ok hd), fun u hu => ?_⟩
  · rw [step_of_due hp hdue]
    exact ⟨rfl, completeWord_error, completeWord_error⟩
  · have hturn : step s = .next (hostTurn u) ∧ u.hostQueue = s.hostQueue ∧ u.responses = s.responses := by
      rcases hu with ⟨p, hp, hleft, rfl⟩ | ⟨hp, rfl⟩
      · exact ⟨by rw [step_of_notDue hp hleft]; simp [tick, hp], rfl, rfl⟩
      · exact ⟨step_of_none hp, rfl, rfl⟩
    obtain ⟨hstep, hqueue, hresponses⟩ := hturn
    rw [hstep, ← hqueue, ← hresponses]
    obtain ⟨hnil, haccess, hreset⟩ := hostTurn_clauses u
    refine ⟨fun hq => congrArg _ (hnil hq), fun a q hq => ?_, fun e q hq he => congrArg _ (hreset e q hq he)⟩
    obtain ⟨r, v, hx, hv, ht⟩ := haccess a q hq
    exact ⟨r, v, hx, hv, congrArg _ ht⟩

/-- Settles O51: the machine accepts the written word and completes it after its latency, which is EXEC's net effect up
to the record of the outside. -/
theorem execRefinesSteps : Obligations.ExecRefinesSteps := by
  intro i s t hidle h
  have hc := completeWord_of_execCommand hidle.not_busy h
  refine ⟨_, _, runs_of_written hidle hc, ?_⟩
  calc engineView (rebook none [] (s.responses ++ [.okWrite]) t)
    _ = engineView (rebook none s.hostQueue s.responses t) := engineView_rebook ..
    _ = engineView t := congrArg engineView (rebook_of_completeWord (s := accept (encode i) s) hc)

end Sys2Proof.Machine
end

