-- ==== Sys2Proof/Proofs/Encoding.lean ====
section
/-!
PROOFS. The opcode table as the decoder and the encoder use it (spec/30_encoding.md R48 to R54): no word matches two
rows (O3), so the decoder answers the one row that matches; the free fields of a row are read back from the bits the
encoder puts them in (O1), and those bits are all that the row's mask leaves free (O2).
-/

namespace Sys2Proof

section Rows

variable {w bits : Word} {r r₁ r₂ : Row}

/-! ### The rows of the table (R51) -/

theorem Row.encodes_iff : r.encodes w = true ↔ w &&& r.mask = r.pattern :=
  beq_iff_eq

/-- Two different rows ask for different values of a bit that both of them fix. -/
theorem rows_pairwise_conflict : rows.Pairwise fun r₁ r₂ => r₁.pattern &&& r₂.mask ≠ r₂.pattern &&& r₁.mask := by
  decide

/-- Two rows that match one word ask for the same values of the bits that both fix. -/
theorem pattern_and_mask_of_encodes (h₁ : r₁.encodes w = true) (h₂ : r₂.encodes w = true) :
    r₁.pattern &&& r₂.mask = r₂.pattern &&& r₁.mask := by
  rw [← Row.encodes_iff.mp h₁, ← Row.encodes_iff.mp h₂, BitVec.and_assoc, BitVec.and_assoc, BitVec.and_comm r₁.mask]

/-- So a word matches one row at most. -/
theorem row_unique (hr₁ : r₁ ∈ rows) (hr₂ : r₂ ∈ rows) (h₁ : r₁.encodes w = true) (h₂ : r₂.encodes w = true) :
    r₁ = r₂ := by
  by_contra hne
  have : Std.Symm fun r₁ r₂ : Row => r₁.pattern &&& r₂.mask ≠ r₂.pattern &&& r₁.mask := ⟨fun _ _ h => h.symm⟩
  exact rows_pairwise_conflict.forall hr₁ hr₂ hne (pattern_and_mask_of_encodes h₁ h₂)

/-- Every row fixes the whole of OP, to one of the nine opcodes (R52). -/
theorem opField_of_row (hr : r ∈ rows) : opField r.mask = BitVec.allOnes 8 ∧ opField r.pattern < 0x09 := by
  revert r
  decide

/-- A pattern has no bit that its mask leaves free. -/
theorem pattern_and_mask (hr : r ∈ rows) : r.pattern &&& r.mask = r.pattern := by
  revert r
  decide

theorem getLsbD_pattern_of_free {name : String} {base mask : Word} {build : Word → Instr}
    (hr : (⟨name, base, mask, build⟩ : Row) ∈ rows) {n : Nat} (h : mask.getLsbD n = false) :
    base.getLsbD n = false := by
  have hsub : base &&& mask = base := pattern_and_mask hr
  rw [← hsub, BitVec.getLsbD_and, h, Bool.and_false]

/-- A row matches its pattern with any of its free bits set. -/
theorem encodes_pattern_or (hr : r ∈ rows) (h : bits &&& r.mask = 0) : r.encodes (r.pattern ||| bits) = true := by
  rw [Row.encodes_iff, BitVec.and_or_distrib_right, pattern_and_mask hr, h]
  simp

/-! ### The decoder (R51 to R53) -/

theorem opField_lt_of_encodes (hr : r ∈ rows) (h : r.encodes w = true) : opField w < 0x09 := by
  obtain ⟨hmask, hpattern⟩ := opField_of_row hr
  have hop : opField (w &&& r.mask) = opField w := by
    have : opField (w &&& r.mask) = opField w &&& opField r.mask := BitVec.extractLsb'_and
    rw [this, hmask, BitVec.and_allOnes]
  rwa [← hop, Row.encodes_iff.mp h]

theorem mem_encodes_of_find? (h : rows.find? (fun r => r.encodes w) = some r) : r ∈ rows ∧ r.encodes w = true :=
  ⟨List.mem_of_find?_eq_some h, List.find?_some (p := fun r : Row => r.encodes w) h⟩

/-- The decoder answers the row that matches, wherever it stands in the table. -/
theorem decodeWord_of_row (hr : r ∈ rows) (h : r.encodes w = true) : decodeWord w = .ok (r.build w) := by
  have hfind : rows.find? (fun r => r.encodes w) = some r := by
    cases hf : rows.find? (fun r => r.encodes w) with
    | none => exact absurd h (List.find?_eq_none.mp hf r hr)
    | some r' =>
      obtain ⟨hr', h'⟩ := mem_encodes_of_find? hf
      rw [row_unique hr' hr h' h]
  have hop : ¬ opField w ≥ 0x09 := BitVec.not_le.mpr (opField_lt_of_encodes hr h)
  simp only [decodeWord, hop, if_false, hfind]

/-- A word that decodes matches a row, and its instruction is what that row builds. -/
theorem exists_row_of_decodeWord {i : Instr} (h : decodeWord w = .ok i) :
    ∃ r ∈ rows, r.encodes w = true ∧ r.build w = i := by
  unfold decodeWord at h
  split at h
  · cases h
  · split at h
    · next r hf =>
      cases h
      obtain ⟨hr, he⟩ := mem_encodes_of_find? hf
      exact ⟨r, hr, he, rfl⟩
    · cases h

end Rows

/-- Settles O3: the row that a word matches is unique, so its mnemonic is. -/
theorem rowPatternsDisjoint : Obligations.RowPatternsDisjoint :=
  fun _ _ _ hr₁ hr₂ h₁ h₂ => congrArg Row.mnemonic (row_unique hr₁ hr₂ h₁ h₂)

/-- Settles O4: the decoder evaluates on each word. -/
theorem sampleWordsDecode : Obligations.SampleWordsDecode :=
  ⟨rfl, rfl, rfl, rfl, rfl, rfl, rfl⟩

section Fields

/-! ### The free fields and their bits (R48, R49) -/

variable {w base : Word} {slen : Byte}

/-- A field of a word is the one its bits were set for, where the rest of the word leaves it 0. -/
theorem algField_or_mstepBits (h : base.getLsbD 8 = false) (alg : Alg) (fold : Bool) (ksel : KeySel) :
    algField (base ||| mstepBits alg fold ksel) = alg := by
  simp only [algField, BitVec.getLsbD_or, h]
  cases alg <;> cases fold <;> cases ksel <;> rfl

theorem foldField_or_mstepBits (h : base.getLsbD 12 = false) (alg : Alg) (fold : Bool) (ksel : KeySel) :
    foldField (base ||| mstepBits alg fold ksel) = fold := by
  simp only [foldField, BitVec.getLsbD_or, h]
  cases alg <;> cases fold <;> cases ksel <;> rfl

theorem kselField_or_mstepBits (h : base.getLsbD 13 = false) (alg : Alg) (fold : Bool) (ksel : KeySel) :
    kselField (base ||| mstepBits alg fold ksel) = ksel := by
  simp only [kselField, BitVec.getLsbD_or, h]
  cases alg <;> cases fold <;> cases ksel <;> rfl

theorem kselField_or_kselBits (h : base.getLsbD 13 = false) (ksel : KeySel) :
    kselField (base ||| kselBits ksel) = ksel := by
  simp only [kselField, BitVec.getLsbD_or, h]
  cases ksel <;> rfl

theorem getLsbD_slenField (w : Word) (n : Nat) :
    (slenField w).getLsbD n = (decide (n < 6) && w.getLsbD (16 + n)) := by
  by_cases h : n < 6
  · have h8 : n < 8 := by omega
    simp [slenField, h, h8]
  · simp [slenField, h]

theorem getLsbD_slenBits (slen : Byte) {n : Nat} (hn : n < 32) :
    (slenBits slen).getLsbD n = (decide (16 ≤ n) && slen.getLsbD (n - 16)) := by
  have hn' : n - 16 < 32 := by omega
  have h16 : (!decide (n < 16)) = decide (16 ≤ n) := by rw [← decide_not, decide_eq_decide, Nat.not_lt]
  simp only [slenBits, BitVec.getLsbD_shiftLeft, BitVec.getLsbD_setWidth, hn, hn', h16, decide_true, Bool.true_and]

theorem slenField_lt (w : Word) : slenField w < 64 := by
  have : (w.extractLsb' 16 6).toNat < 64 := (w.extractLsb' 16 6).isLt
  simp only [slenField, BitVec.lt_def, BitVec.toNat_setWidth]
  exact lt_of_le_of_lt (Nat.mod_le _ _) this

/-- A SLEN that six bits hold has no bit above them. -/
theorem getLsbD_of_slen_lt (hs : slen < 64) {n : Nat} (hn : 6 ≤ n) : slen.getLsbD n = false :=
  Nat.testBit_lt_two_pow (lt_of_lt_of_le (show slen.toNat < 2 ^ 6 from hs) (Nat.pow_le_pow_right (by decide) hn))

theorem slenField_or_slenBits (h : ∀ n < 6, base.getLsbD (16 + n) = false) (hs : slen < 64) :
    slenField (base ||| slenBits slen) = slen := by
  apply BitVec.eq_of_getLsbD_eq
  intro n hn
  rw [getLsbD_slenField, BitVec.getLsbD_or, getLsbD_slenBits slen (by omega)]
  by_cases h6 : n < 6
  · simp [h6, h n h6]
  · simp [h6, getLsbD_of_slen_lt hs (Nat.not_lt.mp h6)]

/-- The bits of a field of a word are the word's own. -/
theorem algBits_algField (w : Word) : algBits (algField w) = w &&& 0x00000100 := by
  rw [show (0x00000100 : Word) = BitVec.twoPow 32 8 from rfl, BitVec.and_twoPow]
  unfold algField
  split <;> rfl

theorem foldBits_foldField (w : Word) : foldBits (foldField w) = w &&& 0x00001000 := by
  rw [show (0x00001000 : Word) = BitVec.twoPow 32 12 from rfl, BitVec.and_twoPow]
  unfold foldField
  cases w.getLsbD 12 <;> rfl

theorem kselBits_kselField (w : Word) : kselBits (kselField w) = w &&& 0x00002000 := by
  rw [show (0x00002000 : Word) = BitVec.twoPow 32 13 from rfl, BitVec.and_twoPow]
  unfold kselField
  split <;> rfl

theorem hasPrevBits_hasPrevField (w : Word) : hasPrevBits (hasPrevField w) = w &&& 0x00004000 := by
  rw [show (0x00004000 : Word) = BitVec.twoPow 32 14 from rfl, BitVec.and_twoPow]
  unfold hasPrevField
  cases w.getLsbD 14 <;> rfl

theorem mstepBits_fields (w : Word) :
    mstepBits (algField w) (foldField w) (kselField w) = w &&& 0x00003100 := by
  rw [mstepBits, algBits_algField, foldBits_foldField, kselBits_kselField, ← BitVec.and_or_distrib_left,
    ← BitVec.and_or_distrib_left]
  rfl

theorem slenBits_slenField (w : Word) : slenBits (slenField w) = w &&& 0x003F0000 := by
  apply BitVec.eq_of_getLsbD_eq
  intro n hn
  have hmask : ∀ n < 32, (0x003F0000 : Word).getLsbD n = decide (16 ≤ n ∧ n - 16 < 6) := by decide
  rw [getLsbD_slenBits _ hn, getLsbD_slenField, BitVec.getLsbD_and, hmask n hn]
  by_cases h16 : 16 ≤ n
  · simp [h16, Bool.and_comm]
  · simp [h16]

/-- The bits of a word that a mask keeps, and those it leaves free. -/
theorem pattern_or_free {mask : Word} (h : w &&& mask = base) : base ||| (w &&& ~~~mask) = w := by
  rw [← h, ← BitVec.and_or_distrib_left, BitVec.or_not_self, BitVec.and_allOnes]

end Fields

section RoundTrip

variable {name : String} {base mask bits : Word}

/-! ### From an instruction to its word and back (R51) -/

/-- The word of a row with free bits set is what the row builds of it. -/
theorem decodeWord_pattern_or {build : Word → Instr} (hr : (⟨name, base, mask, build⟩ : Row) ∈ rows)
    (h : bits &&& mask = 0) : decodeWord (base ||| bits) = .ok (build (base ||| bits)) :=
  decodeWord_of_row hr (encodes_pattern_or hr h)

/-- A row whose one free field is KSEL (PERM). -/
theorem decodeWord_ksel {c : KeySel → Instr}
    (hr : (⟨name, base, 0xFFFFDFFF, fun w => c (kselField w)⟩ : Row) ∈ rows) (ksel : KeySel) :
    decodeWord (base ||| kselBits ksel) = .ok (c ksel) := by
  have h13 : base.getLsbD 13 = false := getLsbD_pattern_of_free hr (by decide)
  rw [decodeWord_pattern_or hr (by cases ksel <;> rfl), kselField_or_kselBits h13]

/-- A row whose free fields are ALG, FOLD and KSEL (MSTEP). -/
theorem decodeWord_mstep {c : Alg → Bool → KeySel → Instr}
    (hr : (⟨name, base, 0xFFFFCEFF, fun w => c (algField w) (foldField w) (kselField w)⟩ : Row) ∈ rows)
    (alg : Alg) (fold : Bool) (ksel : KeySel) :
    decodeWord (base ||| mstepBits alg fold ksel) = .ok (c alg fold ksel) := by
  have h8 : base.getLsbD 8 = false := getLsbD_pattern_of_free hr (by decide)
  have h12 : base.getLsbD 12 = false := getLsbD_pattern_of_free hr (by decide)
  have h13 : base.getLsbD 13 = false := getLsbD_pattern_of_free hr (by decide)
  rw [decodeWord_pattern_or hr (by cases alg <;> cases fold <;> cases ksel <;> rfl), algField_or_mstepBits h8,
    foldField_or_mstepBits h12, kselField_or_mstepBits h13]

/-- PAD, whose free field is SLEN: a well-formed one sets no bit that the mask fixes. -/
theorem decodeWord_pad {slen : Byte} (hs : slen < 64) : decodeWord (encode (.pad slen)) = .ok (.pad slen) := by
  have hfree : slenBits slen &&& 0xFFC0FFFF = 0 := by
    have hfield : slenField (slenBits slen) = slen := by simpa using slenField_or_slenBits (base := 0) (by simp) hs
    rw [← hfield, slenBits_slenField, BitVec.and_assoc]
    exact BitVec.and_zero
  have hr : (⟨"PAD", 0x00000006, 0xFFC0FFFF, fun w => .pad (slenField w)⟩ : Row) ∈ rows := by simp [rows]
  rw [encode, decodeWord_pattern_or hr hfree, slenField_or_slenBits (by decide) hs]

end RoundTrip

/-- Settles O1: the row of each instruction reads its fields back from the bits that `encode` puts them in. -/
theorem decodeOfEncode : Obligations.DecodeOfEncode := by
  intro i h
  cases i with
  | nop | chainInit | digestClear | dfold | verify => rfl
  | permaE k => exact decodeWord_ksel (name := "PERMA.E") (by simp [rows]) k
  | permaD k => exact decodeWord_ksel (name := "PERMA.D") (by simp [rows]) k
  | permbE k => exact decodeWord_ksel (name := "PERMB.E") (by simp [rows]) k
  | permbD k => exact decodeWord_ksel (name := "PERMB.D") (by simp [rows]) k
  | mstepEcbE alg fold k => exact decodeWord_mstep (name := "MSTEP.ECB.E") (by simp [rows]) alg fold k
  | mstepEcbD alg fold k => exact decodeWord_mstep (name := "MSTEP.ECB.D") (by simp [rows]) alg fold k
  | mstepCbcE alg fold k => exact decodeWord_mstep (name := "MSTEP.CBC.E") (by simp [rows]) alg fold k
  | mstepCbcD alg fold k => exact decodeWord_mstep (name := "MSTEP.CBC.D") (by simp [rows]) alg fold k
  | mstepCfbE alg fold k => exact decodeWord_mstep (name := "MSTEP.CFB.E") (by simp [rows]) alg fold k
  | mstepCfbD alg fold k => exact decodeWord_mstep (name := "MSTEP.CFB.D") (by simp [rows]) alg fold k
  | mstepOfbE alg fold k => exact decodeWord_mstep (name := "MSTEP.OFB.E") (by simp [rows]) alg fold k
  | mstepOfbD alg fold k => exact decodeWord_mstep (name := "MSTEP.OFB.D") (by simp [rows]) alg fold k
  | pad slen => exact decodeWord_pad h
  | unpad hasPrev => cases hasPrev <;> rfl

section Converse

variable {r : Row}

/-! ### From a word to its instruction and back (R51, R53, R54) -/

/-- The word of what a row builds has the row's pattern, and of the word it was built from just the bits that the row's
mask leaves free: row by row, those bits are its fields'. -/
theorem encode_build (hr : r ∈ rows) (w : Word) : encode (r.build w) = r.pattern ||| (w &&& ~~~r.mask) := by
  simp only [rows, List.mem_cons, List.not_mem_nil, or_false] at hr
  rcases hr with rfl | rfl | rfl | rfl | rfl | rfl | rfl | rfl | rfl | rfl | rfl | rfl | rfl | rfl | rfl | rfl | rfl |
    rfl | rfl <;>
  simp [encode, kselBits_kselField, mstepBits_fields, slenBits_slenField, hasPrevBits_hasPrevField]

/-- What a row builds is well formed: SLEN, the one field held wider than in the word, was zero-extended (R49). -/
theorem wellFormed_build (hr : r ∈ rows) (w : Word) : (r.build w).WellFormed := by
  revert r
  simpa [rows] using slenField_lt w

end Converse

/-- Settles O2: a word that matches a row has the row's pattern in the bits of its mask, and the fields the row reads
are all its other bits. -/
theorem encodeOfDecode : Obligations.EncodeOfDecode := by
  intro w i h
  obtain ⟨r, hr, he, rfl⟩ := exists_row_of_decodeWord h
  refine ⟨wellFormed_build hr w, ?_⟩
  rw [encode_build hr, pattern_or_free (Row.encodes_iff.mp he)]

end Sys2Proof
end

