-- ==== Sys2Proof/Proofs/HostSteps.lean ====
section
/-!
PROOFS. The host's steps on an engine that is not busy (spec/30_encoding.md R56, R57): WR384, WRKEY and RD384 move whole
groups (O50), EXEC is its command's meaning on the accepted word, and a stream of MSTEPs is the sequence function (O47).
-/

namespace Sys2Proof.Machine

/-! ### Writing a register file one register at a time -/

section Fill

variable {ι α β : Type} {get : α → ι → β} {set : α → ι → β → α}

/-- After a run of writes every register that was written holds its value, where a write changes its own register
only. -/
theorem get_foldl_set (hself : ∀ a k v, get (set a k v) k = v) (hne : ∀ a j k v, j ≠ k → get (set a k v) j = get a j)
    (val : ι → β) (l : List ι) (j : ι) (a : α) (h : j ∈ l ∨ get a j = val j) :
    get (l.foldl (fun b k => set b k (val k)) a) j = val j := by
  induction l generalizing a with
  | nil => simpa using h
  | cons k ks ih =>
    refine ih (set a k (val k)) ?_
    by_cases hjk : j = k
    · exact .inr (by rw [hjk, hself])
    · exact h.imp (fun hmem => (List.mem_cons.mp hmem).resolve_left hjk) (fun ha => by rw [hne _ _ _ _ hjk, ha])

end Fill

/-- Writing all twelve registers of a group writes the group (R17). -/
theorem foldl_setGroupWord (v g : Block) :
    (List.finRange 12).foldl (fun b k => setGroupWord b k (groupWord v k)) g = v :=
  group_ext fun j => get_foldl_set (get := groupWord) (set := setGroupWord) groupWord_setGroupWord_self
    (fun g _ _ v h => groupWord_setGroupWord_ne g v h) (groupWord v) _ j g (.inl (List.mem_finRange j))

/-- Writing all eight registers of the key writes the key (R18). -/
theorem foldl_setKeyGroupWord (v g : Key) :
    (List.finRange 8).foldl (fun b k => setKeyGroupWord b k (keyGroupWord v k)) g = v :=
  keyGroup_ext fun j => get_foldl_set (get := keyGroupWord) (set := setKeyGroupWord) keyGroupWord_setKeyGroupWord_self
    (fun g _ _ v h => keyGroupWord_setKeyGroupWord_ne g v h) (keyGroupWord v) _ j g (.inl (List.mem_finRange j))

section WideAccess

variable {s : State}

/-! ### WR384 and WRKEY (R57) -/

/-- A host write to a writable register of an engine that is not busy is taken (R120). -/
theorem hostWrite_of_not_busy {r : Reg} (hw : r.writable = true) (hb : s.status.busy = false) (v : Word) :
    hostWrite r v s = writeReg r v s := by
  simp [hostWrite, exchange_write_offset, hw, hb]

/-- WR384 to a group whose registers are the words of one block of the state. `put` is the state with that block
replaced. -/
theorem wr384_eq_put {reg : Fin 12 → Reg} {put : Block → State} (hw : ∀ k, (reg k).writable = true)
    (hb : ∀ b, (put b).status.busy = false)
    (hput : ∀ b k w, writeReg (reg k) w (put b) = put (setGroupWord b k w)) (b v : Block) :
    wr384 reg v (put b) = put v := by
  have hstep : ∀ b k, hostWrite (reg k) (groupWord v k) (put b) = put (setGroupWord b k (groupWord v k)) :=
    fun b k => (hostWrite_of_not_busy (hw k) (hb b) _).trans (hput b k _)
  rw [wr384, List.foldl_hom put hstep, foldl_setGroupWord]

theorem wr384_din (hb : s.status.busy = false) (v : Block) : wr384 .din v s = { s with din := v } :=
  wr384_eq_put (put := fun b => { s with din := b }) (fun _ => rfl) (fun _ => hb) (fun _ _ _ => rfl) s.din v

theorem wr384_din2 (hb : s.status.busy = false) (v : Block) : wr384 .din2 v s = { s with din2 := v } :=
  wr384_eq_put (put := fun b => { s with din2 := b }) (fun _ => rfl) (fun _ => hb) (fun _ _ _ => rfl) s.din2 v

theorem wr384_chain (hb : s.status.busy = false) (v : Block) : wr384 .chain v s = { s with chain := v } :=
  wr384_eq_put (put := fun b => { s with chain := b }) (fun _ => rfl) (fun _ => hb) (fun _ _ _ => rfl) s.chain v

/-- The state with a key in KEY and KEY_LOADED set (R25). -/
def loadKey (k : Key) (s : State) : State :=
  { s with key := k, keyLoaded := true }

theorem hostWrite_key (hb : s.status.busy = false) (j : Fin 8) (v : Word) :
    hostWrite (.key j) v s = loadKey (setKeyGroupWord s.key j v) s :=
  hostWrite_of_not_busy rfl hb v

/-- WRKEY also sets KEY_LOADED, with its first write (R25). -/
theorem wrKey_eq_loadKey (hb : s.status.busy = false) (k : Key) : wrKey k s = loadKey k s := by
  have hstep : ∀ b j, hostWrite (.key j) (keyGroupWord k j) (loadKey b s) =
      loadKey (setKeyGroupWord b j (keyGroupWord k j)) s :=
    fun b j => hostWrite_key (s := loadKey b s) hb j _
  have hfirst : wrKey k s = wrKey k (loadKey s.key s) := by
    simp only [wrKey, List.finRange_succ, List.foldl_cons]
    rw [hostWrite_key hb, hstep]
  rw [hfirst, wrKey, List.foldl_hom (loadKey · s) hstep, foldl_setKeyGroupWord]

/-! ### RD384 (R57) -/

/-- A fold over the numbers below n that takes each value of a sequence to the next ends at its last. -/
theorem foldl_finRange_eq {α : Type} {n : Nat} {f : α → Fin n → α} (val : Nat → α)
    (h : ∀ k : Fin n, f (val k) k = val (k + 1)) : (List.finRange n).foldl f (val 0) = val n := by
  induction n with
  | zero => rfl
  | succ n ih =>
    rw [List.finRange_succ_last, List.foldl_append, List.foldl_map, ih fun k => h k.castSucc]
    exact h (Fin.last n)

/-- The first n registers of a block, G[0] to G[n - 1], as a number: what RD384 holds after n reads. -/
def firstRegisters (b : Block) (n : Nat) : Block :=
  b >>> (384 - 32 * n)

/-- The next read puts one more register below them. -/
theorem firstRegisters_succ (b : Block) (k : Fin 12) :
    firstRegisters b k <<< 32 ||| (groupWord b k).setWidth 384 = firstRegisters b (k + 1) := by
  have hk := k.isLt
  apply BitVec.eq_of_getLsbD_eq
  intro i hi
  simp only [firstRegisters, BitVec.getLsbD_or, BitVec.getLsbD_shiftLeft, BitVec.getLsbD_setWidth, getLsbD_groupWord,
    BitVec.getLsbD_ushiftRight]
  by_cases h : i < 32
  · have hbit : 384 - 32 * (k.val + 1) = 352 - 32 * k.val := by omega
    simp [h, hi, hbit]
  · have hbit : 384 - 32 * k.val + (i - 32) = 384 - 32 * (k.val + 1) + i := by omega
    simp [h, hi, hbit]

/-- RD384 reads the block whose words the registers are. -/
theorem rd384_eq {reg : Fin 12 → Reg} {b : Block} (h : ∀ k, readReg (reg k) s = groupWord b k) : rd384 reg s = b := by
  have hnone : firstRegisters b 0 = 0 := BitVec.ushiftRight_eq_zero le_rfl
  have hall : firstRegisters b 12 = b := BitVec.ushiftRight_zero b
  simp only [rd384, h]
  rw [← hnone, foldl_finRange_eq (firstRegisters b) (firstRegisters_succ b), hall]

end WideAccess

/-- Settles O50: WR384 and WRKEY write every register of a group, and the registers of a group are its slices. -/
theorem wideAccesses : Obligations.WideAccesses := by
  intro s v k hb
  exact ⟨wr384_din hb v, wr384_din2 hb v, wr384_chain hb v, wrKey_eq_loadKey hb k, rd384_eq fun _ => rfl,
    rd384_eq fun _ => rfl, rd384_eq fun _ => rfl, rd384_eq fun _ => rfl, rd384_eq fun _ => rfl, rd384_eq fun _ => rfl⟩

section Exec

variable {s t : State} {i : Instr} {ksel : KeySel} {alg : Alg}

/-! ### EXEC (R57) -/

theorem hostWrite_cmd (hb : s.status.busy = false) (w : Word) : hostWrite .cmd w s = accept w s :=
  hostWrite_of_not_busy rfl hb w

/-- EXEC of a command whose meaning, on the accepted word, is no error. -/
theorem execCommand_eq_ok (hi : i.WellFormed) (hb : s.status.busy = false)
    (h : exec i (accept (encode i) s) = .next t) (herr : t.status.err = false) : execCommand i s = .ok t := by
  obtain ⟨-, -, hflag, -⟩ := statusWord_flags t
  have hstatus : (readReg .status t).getLsbD 2 = false := hflag.trans herr
  have hwait : waitIdle (hostWrite .cmd (encode i) s) = .next t := by
    rw [hostWrite_cmd hb]
    exact (completeWord_ok (decodeOfEncode i hi)).trans h
  simp only [execCommand, hwait, hstatus, Bool.false_eq_true, if_false]

/-- The state in which a block was written to DIN and then a command was accepted. -/
def acceptedWith (i : Instr) (x : Block) (s : State) : State :=
  accept (encode i) { s with din := x }

/-- EXEC after WR384 DIN, in the same way. -/
theorem execCommand_din_eq_ok {x : Block} (hi : i.WellFormed) (hb : s.status.busy = false)
    (h : exec i (acceptedWith i x s) = .next t) (herr : t.status.err = false) :
    execCommand i (wr384 .din x s) = .ok t := by
  rw [wr384_din hb]
  exact execCommand_eq_ok hi hb h herr

theorem wellFormed_mstepInstr (m : Mode) (d : Dir) (fold : Bool) : (mstepInstr m d alg fold ksel).WellFormed := by
  cases m <;> cases d <;> trivial

theorem keyMissing_of_keyAvailable (h : KeyAvailable ksel s) : keyMissing ksel s = false := by
  cases ksel with
  | registers => simp [h rfl]
  | builtIn => rfl

/-- The effective key depends on the state by KEY only (R114). -/
theorem effKey_congr (h : t.key = s.key) : effKey ksel alg t = effKey ksel alg s := by
  cases ksel with
  | registers => exact h
  | builtIn => cases alg <;> rfl

/-! ### A stream of MSTEPs (R91, R92, R102) -/

/-- What a stream of MSTEPs leaves as it was: an idle engine, and every register but DIN, DOUT, CHAIN, DIGEST, CMD and
STATUS. -/
structure StreamFrame (s t : State) : Prop where
  idle : Idle t
  key : t.key = s.key
  keyLoaded : t.keyLoaded = s.keyLoaded
  params : t.params = s.params
  din2 : t.din2 = s.din2
  dout2 : t.dout2 = s.dout2
  ie : t.ie = s.ie

theorem StreamFrame.refl (h : Idle s) : StreamFrame s s :=
  ⟨h, rfl, rfl, rfl, rfl, rfl, rfl⟩

theorem StreamFrame.trans {u : State} (h : StreamFrame s t) (h' : StreamFrame t u) : StreamFrame s u where
  idle := h'.idle
  key := h'.key.trans h.key
  keyLoaded := h'.keyLoaded.trans h.keyLoaded
  params := h'.params.trans h.params
  din2 := h'.din2.trans h.din2
  dout2 := h'.dout2.trans h.dout2
  ie := h'.ie.trans h.ie

theorem StreamFrame.keyAvailable (h : StreamFrame s t) (hk : KeyAvailable ksel s) : KeyAvailable ksel t :=
  fun hr => h.keyLoaded.trans (hk hr)

/-- One block of a stream: WR384 DIN and EXEC MSTEP are one call of the mode rule (R91, R92). -/
theorem execCommand_mstep (m : Mode) (d : Dir) (fold : Bool) (x : Block) (hs : Idle s) (hk : KeyAvailable ksel s) :
    ∃ t, execCommand (mstepInstr m d alg fold ksel) (wr384 .din x s) = .ok t ∧ StreamFrame s t ∧
      t.dout = (modeRule m d (cipher s.params alg (effKey ksel alg s)) x s.chain).out ∧
      t.chain = (modeRule m d (cipher s.params alg (effKey ksel alg s)) x s.chain).chain ∧
      t.digest = if fold then s.digest ^^^ t.dout else s.digest := by
  have hkey : keyMissing ksel (acceptedWith (mstepInstr m d alg fold ksel) x s) = false :=
    keyMissing_of_keyAvailable hk
  have heff : effKey ksel alg s = effKey ksel alg (acceptedWith (mstepInstr m d alg fold ksel) x s) := effKey_congr rfl
  have hexec := (exec_mstepInstr m d alg fold ksel _).trans (mstep_of_key (rule := modeRule m d) hkey)
  rw [heff]
  exact ⟨_, execCommand_din_eq_ok (wellFormed_mstepInstr m d fold) hs.not_busy hexec rfl,
    ⟨⟨rfl, rfl⟩, rfl, rfl, rfl, rfl, rfl, rfl⟩, rfl, rfl, rfl⟩

/-- The XOR-fold from its first block on (R109). -/
theorem xorFold_cons (y : Block) (ys : List Block) : xorFold (y :: ys) = y ^^^ xorFold ys := by
  rw [xorFold, xorFold, List.foldl_cons, BitVec.xor_comm, List.foldl_assoc]

/-- The first block of a stream, then the rest (R91). -/
theorem runStream_cons {x y : Block} {xs ys : List Block} {u : State} (h : execCommand i (wr384 .din x s) = .ok t)
    (hy : t.dout = y) (hrest : runStream i xs t = .ok (ys, u)) : runStream i (x :: xs) s = .ok (y :: ys, u) := by
  have hread : rd384 .dout t = y := rd384_eq fun k => by rw [← hy]; rfl
  simp [runStream, h, hrest, hread, bind, Except.bind, pure, Except.pure]

/-- A stream of MSTEPs is the sequence function of its mode (R91, R102), by induction on the blocks: the first MSTEP is
one call of the mode rule, and the others go on from the chaining value it leaves. -/
theorem runStream_mstep (m : Mode) (d : Dir) (alg : Alg) (fold : Bool) (xs : List Block) (hs : Idle s)
    (hk : KeyAvailable ksel s) :
    ∃ t, runStream (mstepInstr m d alg fold ksel) xs s =
        .ok ((modeSequence s.params alg m d (effKey ksel alg s) xs s.chain).1, t) ∧
      StreamFrame s t ∧ t.chain = (modeSequence s.params alg m d (effKey ksel alg s) xs s.chain).2 ∧
      t.digest = if fold then s.digest ^^^ xorFold (modeSequence s.params alg m d (effKey ksel alg s) xs s.chain).1
        else s.digest := by
  induction xs generalizing s with
  | nil => exact ⟨s, rfl, .refl hs, rfl, by simp [modeSequence, sequence, xorFold]⟩
  | cons x xs ih =>
    obtain ⟨t, hx, hframe, hdout, hchain, hdigest⟩ := execCommand_mstep (alg := alg) m d fold x hs hk
    obtain ⟨u, hrest, hframe', hchain', hdigest'⟩ := ih hframe.idle (hframe.keyAvailable hk)
    rw [hframe.params, effKey_congr hframe.key, hchain] at hrest hchain' hdigest'
    refine ⟨u, runStream_cons hx hdout hrest, hframe.trans hframe', hchain', ?_⟩
    rw [hdigest', hdigest, hdout]
    cases fold with
    | false => rfl
    | true => simp only [if_true, modeSequence, sequence, xorFold_cons, BitVec.xor_assoc]

end Exec

/-- Settles O47: a stream of MSTEPs is the sequence function, and its frame holds the rest. -/
theorem streamRefinesSequence : Obligations.StreamRefinesSequence := by
  intro m d alg fold ksel xs s hs hk
  obtain ⟨t, hrun, hframe, hchain, hdigest⟩ := runStream_mstep m d alg fold xs hs hk
  exact ⟨t, hrun, hframe.idle, hchain, hdigest, hframe.key, hframe.keyLoaded, hframe.params, hframe.din2,
    hframe.dout2, hframe.ie⟩

end Sys2Proof.Machine
end

