-- ==== Sys2Proof/Proofs/ArxLayers.lean ====
section
/-!
PROOFS. The parts of Permutation A below the round (spec/40_perm_a_arx.md R61 to R66), each with its inverse: the
diffusion function in its halves (O39), the ARX sub-round as its four repetitions (O40) and the linear layer (O41).
-/

namespace Sys2Proof.Machine

section Diffusion

/-! ### The diffusion function (R62) -/

/-- A word is its two halves. -/
theorem halves_append (x : Word) : x.extractLsb' 16 16 ++ x.extractLsb' 0 16 = x :=
  (BitVec.extractLsb'_append_extractLsb'_eq_extractLsb' (by rfl)).trans BitVec.extractLsb'_eq_self

/-- A rotation by 16 exchanges the halves. -/
theorem rotateLeft_sixteen (x : Word) : x.rotateLeft 16 = x.extractLsb' 0 16 ++ x.extractLsb' 16 16 := by
  apply BitVec.eq_of_getLsbD_eq
  intro i hi
  rw [BitVec.getLsbD_rotateLeft, BitVec.getLsbD_append, BitVec.getLsbD_extractLsb', BitVec.getLsbD_extractLsb']
  by_cases h : i < 16
  · simp [h]
  · have hhigh : i - 16 < 16 := by omega
    simp [h, hi, hhigh]

/-- The mask of l keeps the low half. -/
theorem and_lowHalf (x : Word) : x &&& 0xFFFF#32 = 0#16 ++ x.extractLsb' 0 16 := by
  have hmask : 0xFFFF#32 = 0#16 ++ BitVec.allOnes 16 := rfl
  conv_lhs => rw [← halves_append x, hmask, BitVec.and_append, BitVec.and_zero, BitVec.and_allOnes]

theorem ell_eq_halves (x : Word) : ell x = x.extractLsb' 0 16 ++ (x.extractLsb' 16 16 ^^^ x.extractLsb' 0 16) := by
  rw [ell, rotateLeft_sixteen, and_lowHalf, BitVec.xor_append, BitVec.xor_zero]

/-- The inverse of l (R62). -/
def ellInv (z : Word) : Word :=
  (z.extractLsb' 0 16 ^^^ z.extractLsb' 16 16) ++ z.extractLsb' 16 16

theorem ellInv_ell (x : Word) : ellInv (ell x) = x := by
  rw [ellInv, ell_eq_halves, BitVec.extractLsb'_append_eq_right, BitVec.extractLsb'_append_eq_left, xor_cancel_right,
    halves_append]

theorem ell_ellInv (z : Word) : ell (ellInv z) = z := by
  rw [ell_eq_halves, ellInv, BitVec.extractLsb'_append_eq_right, BitVec.extractLsb'_append_eq_left, xor_cancel_right,
    halves_append]

theorem ell_bijective : Function.Bijective ell :=
  Function.bijective_iff_has_inverse.mpr ⟨ellInv, ellInv_ell, ell_ellInv⟩

end Diffusion

/-- Settles O39: the halves of l give its inverse, and so the bijection; l evaluates on the rule's examples. -/
theorem diffusionFunction : Obligations.DiffusionFunction :=
  ⟨fun x => ⟨rfl, ell_eq_halves x, ellInv_ell x⟩, ell_bijective, rfl, rfl, rfl, rfl⟩

section SubRound

variable {α ι : Type} {f g : α → ι → α} {P : Params} {c : Word} {p : Pair}

/-! ### Steps undone in reverse order -/

/-- A run of steps is undone by the inverse steps in reverse order. -/
theorem foldl_reverse_foldl (h : ∀ a i, g (f a i) i = a) (l : List ι) (a : α) :
    l.reverse.foldl g (l.foldl f a) = a := by
  induction l generalizing a with
  | nil => rfl
  | cons i l ih => simp only [List.reverse_cons, List.foldl_append, List.foldl_cons, List.foldl_nil, ih, h]

/-- The inverse steps in reverse order are undone by the run. -/
theorem foldl_foldl_reverse (h : ∀ a i, f (g a i) i = a) (l : List ι) (a : α) :
    l.foldl f (l.reverse.foldl g a) = a := by
  simpa using foldl_reverse_foldl h l.reverse a

/-! ### The ARX sub-round (R61, R63, R64) -/

@[simp] theorem rotA_zero (x : Word) : rotA P x 0 = x := by
  cases h : P.aRotDir <;> simp [rotA, h, BitVec.rotateRight_def, BitVec.rotateLeft_def, BitVec.ushiftRight_eq_zero]

/-- The repetition with the rotation amount 0 adds the partner itself. -/
theorem alzStep_zero (n : Nat) :
    alzStep P c p (0, n) = ⟨(p.x + p.y) ^^^ c, p.y ^^^ rotA P (p.x + p.y) n⟩ := by
  simp [alzStep]

/-- The four repetitions of a sub-round, in their order. -/
theorem alz_eq_steps : alz P c p =
    alzStep P c (alzStep P c (alzStep P c (alzStep P c p (31, 24)) (17, 17)) (0, 31)) (24, 16) := rfl

theorem alzStepInv_alzStep (p : Pair) (r : Nat × Nat) : alzStepInv P c (alzStep P c p r) r = p := by
  simp only [alzStep, alzStepInv, xor_cancel_right, BitVec.add_sub_cancel]

theorem alzStep_alzStepInv (p : Pair) (r : Nat × Nat) : alzStep P c (alzStepInv P c p r) r = p := by
  simp only [alzStep, alzStepInv, BitVec.sub_add_cancel, xor_cancel_right]

theorem alzInv_alz (c : Word) (p : Pair) : alzInv P c (alz P c p) = p :=
  foldl_reverse_foldl alzStepInv_alzStep _ p

theorem alz_alzInv (c : Word) (p : Pair) : alz P c (alzInv P c p) = p :=
  foldl_foldl_reverse alzStep_alzStepInv _ p

end SubRound

/-- Settles O40: the steps are the four repetitions, the third with a rotation by 0, and each repetition has its
inverse. -/
theorem alzetteInverse : Obligations.AlzetteInverse := by
  refine ⟨fun P c x y => ?_, fun P c p => ⟨alzInv_alz c p, alz_alzInv c p⟩⟩
  rw [alz_eq_steps, alzStep_zero]
  rfl

section LinearLayer

/-! ### The linear layer (R65, R66) -/

theorem mixPair_mixPair (tx ty : Word) (hi lo : Pair) : mixPair tx ty (mixPair tx ty hi lo) lo = hi := by
  have cancel (a b t : Word) : a ^^^ b ^^^ t ^^^ b ^^^ t = a := by
    rw [BitVec.xor_assoc a b t, BitVec.xor_assoc _ b t, xor_cancel_right]
  simp only [mixPair, cancel]

theorem linearLayerInv_linearLayer (w : AWords) : linearLayerInv (linearLayer w) = w := by
  simp only [linearLayer, linearLayerInv, mixPair_mixPair]

theorem linearLayer_linearLayerInv (w : AWords) : linearLayer (linearLayerInv w) = w := by
  simp only [linearLayer, linearLayerInv, mixPair_mixPair]

end LinearLayer

/-- Settles O41: the wiring is the layer's own with l in its halves, and the layer leaves the three pairs from which its
accumulators are rebuilt, under which a mixed pair is its own inverse. -/
theorem linearLayerInverse : Obligations.LinearLayerInverse := by
  refine ⟨fun x0 y0 x1 y1 x2 y2 x3 y3 x4 y4 x5 y5 => ?_,
    fun w => ⟨linearLayerInv_linearLayer w, linearLayer_linearLayerInv w⟩⟩
  simp only [linearLayer, mixPair, accumulator, ell_eq_halves]

end Sys2Proof.Machine
end

