-- ==== Sys2Proof/Proofs/PermutationA.lean ====
section
/-!
PROOFS. Permutation A (spec/40_perm_a_arx.md R59, R67 to R71): the words of a block and back, the round and its inverse,
the round trip of E_A and D_A (O42), and E_A in the steps of its rules (O56). Each layer of a round is undone by its
own inverse, and the eight rounds by the inverse rounds in reverse order.
-/

namespace Sys2Proof.Machine

section Words

variable (P : Params)

/-! ### The words of a block (R59) -/

/-- The words of a block, in either order, are adjacent slices that join to the whole block. -/
theorem wordsToBlock_blockToWords (b : Block) : wordsToBlock P (blockToWords P b) = b := by
  cases h : P.aWordOrder <;> simp only [wordsToBlock, blockToWords, blockAWord, h]
  all_goals
    iterate 11 rw [BitVec.extractLsb'_append_extractLsb'_eq_extractLsb' (by rfl)]
    exact BitVec.extractLsb'_eq_self

/-- The lowest part of an append, at a position that computes to 0. -/
theorem extractLsb'_append_lowest {m n pos : Nat} {a : BitVec m} {b : BitVec n} (h : pos = 0) :
    (a ++ b).extractLsb' pos n = b := by
  rw [h, BitVec.extractLsb'_append_eq_right]

/-- The whole of a value, at a position that computes to 0. -/
theorem extractLsb'_whole {n pos : Nat} {a : BitVec n} (h : pos = 0) : a.extractLsb' pos n = a := by
  rw [h, BitVec.extractLsb'_eq_self]

/-- A slice of words joined to a block skips the words below it, and is then the lowest word left. -/
theorem blockToWords_wordsToBlock (w : AWords) : blockToWords P (wordsToBlock P w) = w := by
  cases h : P.aWordOrder <;>
  simp (disch := decide) only [wordsToBlock, blockToWords, blockAWord, h, BitVec.extractLsb'_append_eq_of_le,
    extractLsb'_append_lowest, extractLsb'_whole]

end Words

section Rounds

variable {P : Params} {k : Key}

/-! ### The layers of a round and their inverses (R67, R68) -/

theorem injectRound_injectRound (r : Nat) (w : AWords) : injectRound P k r (injectRound P k r w) = w := by
  simp only [injectRound, xor_cancel_right]

theorem mapPairs_mapPairs {f g : Nat → Pair → Pair} (h : ∀ j p, g j (f j p) = p) (w : AWords) :
    mapPairs g (mapPairs f w) = w := by
  simp only [mapPairs, h]

theorem roundAInv_roundA (w : AWords) (r : Nat) : roundAInv P k (roundA P k w r) r = w := by
  rw [roundAInv, roundA, linearLayerInv_linearLayer, mapPairs_mapPairs fun _ => alzInv_alz _, injectRound_injectRound]

theorem roundA_roundAInv (w : AWords) (r : Nat) : roundA P k (roundAInv P k w r) r = w := by
  rw [roundA, roundAInv, injectRound_injectRound, mapPairs_mapPairs fun _ => alz_alzInv _, linearLayer_linearLayerInv]

/-! ### The round trip (R71) -/

theorem decryptA_encryptA (b : Block) : decryptA P (encryptA P b k) k = b := by
  rw [decryptA, encryptA, blockToWords_wordsToBlock, foldl_reverse_foldl roundAInv_roundA, wordsToBlock_blockToWords]

theorem encryptA_decryptA (b : Block) : encryptA P (decryptA P b k) k = b := by
  rw [encryptA, decryptA, blockToWords_wordsToBlock, foldl_foldl_reverse roundA_roundAInv, wordsToBlock_blockToWords]

end Rounds

/-- Settles O42: D_A undoes E_A round by round, and E_A undoes D_A. -/
theorem permutationARoundTrip : Obligations.PermutationARoundTrip := fun P k =>
  ⟨fun b => ⟨decryptA_encryptA b, encryptA_decryptA b⟩,
    Function.bijective_iff_has_inverse.mpr ⟨fun b => decryptA P b k, decryptA_encryptA, encryptA_decryptA⟩⟩

/-- Settles O56: the round, the words of a block and the run of the rounds are by definition the rules' steps. -/
theorem permutationASteps : Obligations.PermutationASteps := fun P _ =>
  ⟨fun _ _ _ => rfl, fun b => ⟨rfl, wordsToBlock_blockToWords P b, rfl⟩⟩

end Sys2Proof.Machine
end

