-- ==== Sys2Proof/Proofs/PermCommands.lean ====
section
/-!
PROOFS. The commands that expose the permutations (spec/40_perm_a_arx.md R72, R73; 41_perm_b_bitplane.md R89, R90): with
a key at hand each completes with its block in DOUT (O30).
-/

namespace Sys2Proof.Machine

section Perm

variable {ksel : KeySel} {s : State}

/-- A PERM command with a key at hand writes its block under the effective key to DOUT (R72, R73, R89, R90, R114). -/
theorem exec_perm_of_keyAvailable (h : KeyAvailable ksel s) :
    exec (.permaE ksel) s = .next (complete { s with dout := encryptA s.params s.din (effKey ksel .a s) }) ∧
    exec (.permaD ksel) s = .next (complete { s with dout := decryptA s.params s.din (effKey ksel .a s) }) ∧
    exec (.permbE ksel) s = .next (complete { s with dout := encryptB s.params s.din (effKey ksel .b s) }) ∧
    exec (.permbD ksel) s = .next (complete { s with dout := decryptB s.params s.din (effKey ksel .b s) }) := by
  have hkey := keyMissing_of_keyAvailable h
  simp only [exec, execPermaE, execPermaD, execPermbE, execPermbD]
  exact ⟨withKey_of_key hkey, withKey_of_key hkey, withKey_of_key hkey, withKey_of_key hkey⟩

end Perm

/-- Settles O30: each command is its results under the effective key, which is KEY or the algorithm's default key. -/
theorem permCommandsComplete : Obligations.PermCommandsComplete := by
  intro ksel s h
  cases ksel with
  | registers => exact exec_perm_of_keyAvailable h
  | builtIn => exact exec_perm_of_keyAvailable h

end Sys2Proof.Machine
end

