-- ==== Sys2Proof/Proofs/PlaneLanes.lean ====
section
/-!
PROOFS. The lanes of a plane (spec/41_perm_b_bitplane.md R75 to R79), for every lane layout: each lane has its own
place, and a plane is its lanes. From what the lanes of a plane put together lane by lane are follow the plane shift
(O43) and the default round constants.
-/

namespace Sys2Proof.Machine

section Layout

variable {P : Params} {i j i' j' : Nat} {p q : Plane}

/-! ### The lane layout (R75) -/

theorem laneIndex_lt (P : Params) (i j : Nat) : laneIndex P i j < 32 :=
  Fin.isLt _

theorem laneIndex_eq_getElem (h : 4 * i + j < P.bLaneIndex.length) : laneIndex P i j = P.bLaneIndex[4 * i + j].val := by
  simp [laneIndex, h]

/-- No two lanes of the grid share a nibble index. -/
theorem laneIndex_inj (hP : P.WellFormed) (hi : i < 8) (hj : j < 4) (hi' : i' < 8) (hj' : j' < 4)
    (h : laneIndex P i j = laneIndex P i' j') : i = i' ∧ j = j' := by
  obtain ⟨hlen, hnodup⟩ := hP
  rw [laneIndex_eq_getElem (by omega), laneIndex_eq_getElem (by omega)] at h
  have hentry : 4 * i + j = 4 * i' + j' := hnodup.getElem_inj_iff.mp (Fin.val_inj.mp h)
  omega

/-- Every nibble index is that of a lane: a table of 32 distinct indexes holds all of them. -/
theorem exists_laneIndex (hP : P.WellFormed) {n : Nat} (hn : n < 32) : ∃ i j, i < 8 ∧ j < 4 ∧ laneIndex P i j = n := by
  obtain ⟨hlen, hnodup⟩ := hP
  have hall : P.bLaneIndex.toFinset = Finset.univ :=
    Finset.eq_univ_of_card _ (by rw [List.toFinset_card_of_nodup hnodup, hlen, Fintype.card_fin])
  have hmem : (⟨n, hn⟩ : Fin 32) ∈ P.bLaneIndex := List.mem_toFinset.mp (hall ▸ Finset.mem_univ _)
  obtain ⟨m, hm, hentry⟩ := List.mem_iff_getElem.mp hmem
  have hcoord : 4 * (m / 4) + m % 4 = m := Nat.div_add_mod m 4
  refine ⟨m / 4, m % 4, by omega, by omega, ?_⟩
  rw [laneIndex_eq_getElem (by omega)]
  simp only [hcoord, hentry]

/-- The default layout (R75). -/
theorem laneIndex_of_default (h : P.bLaneIndex = defaultLaneIndex) (hi : i < 8) (hj : j < 4) :
    laneIndex P i j = 4 * i + j := by
  have hentry : ∀ n < 32, ((defaultLaneIndex[n]?).getD 0).val = n := by decide
  rw [laneIndex, h, hentry _ (by omega)]

theorem wellFormed_of_default (h : P.bLaneIndex = defaultLaneIndex) : P.WellFormed := by
  rw [Params.WellFormed, h]
  decide

/-! ### Lane-wise operations (R76) -/

theorem lane_or (p q : Plane) (i j : Nat) : lane P (p ||| q) i j = lane P p i j ||| lane P q i j :=
  BitVec.extractLsb'_or

theorem lane_and (p q : Plane) (i j : Nat) : lane P (p &&& q) i j = lane P p i j &&& lane P q i j :=
  BitVec.extractLsb'_and

theorem lane_zero (i j : Nat) : lane P 0 i j = 0 :=
  BitVec.extractLsb'_zero

/-- A plane is its lanes: a bit is in the lane whose nibble index is its own. -/
theorem plane_ext (hP : P.WellFormed) (h : ∀ i j, i < 8 → j < 4 → lane P p i j = lane P q i j) : p = q := by
  apply BitVec.eq_of_getLsbD_eq
  intro n hn
  obtain ⟨i, j, hi, hj, hindex⟩ := exists_laneIndex hP (n := n / 4) (by omega)
  have hbit := congrArg (BitVec.getLsbD · (n % 4)) (h i j hi hj)
  have hmod : n % 4 < 4 := Nat.mod_lt n (by decide)
  simpa only [lane, hindex, BitVec.getLsbD_extractLsb', hmod, decide_true, Bool.true_and, Nat.div_add_mod] using hbit

/-! ### A plane with one lane -/

theorem getLsbD_laneAt (v : Lane) (n : Nat) :
    (laneAt P i j v).getLsbD n = (decide (4 * laneIndex P i j ≤ n) && v.getLsbD (n - 4 * laneIndex P i j)) := by
  have hindex := laneIndex_lt P i j
  rw [laneAt, BitVec.getLsbD_shiftLeft, BitVec.getLsbD_setWidth]
  by_cases hv : n - 4 * laneIndex P i j < 4
  · grind
  · simp [BitVec.getLsbD_of_ge v _ (not_lt.mp hv)]

theorem lane_laneAt_self (v : Lane) : lane P (laneAt P i j v) i j = v := by
  apply BitVec.eq_of_getLsbD_eq
  intro t ht
  simp [lane, getLsbD_laneAt, ht]

theorem lane_laneAt_of_ne (h : laneIndex P i j ≠ laneIndex P i' j') (v : Lane) : lane P (laneAt P i j v) i' j' = 0 := by
  apply BitVec.eq_of_getLsbD_eq
  intro t ht
  have hout : 4 * laneIndex P i j ≤ 4 * laneIndex P i' j' + t →
      v.getLsbD (4 * laneIndex P i' j' + t - 4 * laneIndex P i j) = false :=
    fun hle => BitVec.getLsbD_of_ge v _ (by omega)
  simpa [lane, getLsbD_laneAt, ht] using hout

/-! ### A plane put together lane by lane (log 8) -/

/-- The plane whose lanes at the listed coordinates are those of `f` and whose other lanes are zero. -/
def planeOfLanes (P : Params) (f : Nat × Nat → Lane) (l : List (Nat × Nat)) : Plane :=
  l.foldl (fun q c => q ||| laneAt P c.1 c.2 (f c)) 0

/-- A lane that is put holds its value, and the others are as they were, since each lane has its own place. -/
theorem lane_foldl_laneAt (hP : P.WellFormed) (hi : i < 8) (hj : j < 4) (f : Nat × Nat → Lane) (l : List (Nat × Nat))
    (hl : ∀ c ∈ l, c.1 < 8 ∧ c.2 < 4) (q : Plane) :
    lane P (l.foldl (fun q c => q ||| laneAt P c.1 c.2 (f c)) q) i j =
      lane P q i j ||| if (i, j) ∈ l then f (i, j) else 0 := by
  induction l generalizing q with
  | nil => simp
  | cons c l ih =>
    obtain ⟨⟨hc1, hc2⟩, hl'⟩ := List.forall_mem_cons.mp hl
    rw [List.foldl_cons, ih hl', lane_or]
    by_cases hc : c = (i, j)
    · subst hc
      by_cases hmem : (i, j) ∈ l <;> simp [lane_laneAt_self, hmem, BitVec.or_assoc]
    · have hindex : laneIndex P c.1 c.2 ≠ laneIndex P i j := fun h =>
        hc (Prod.ext_iff.mpr (laneIndex_inj hP hc1 hc2 hi hj h))
      simp [lane_laneAt_of_ne hindex, List.mem_cons, Ne.symm hc]

theorem lane_planeOfLanes (hP : P.WellFormed) (hi : i < 8) (hj : j < 4) (f : Nat × Nat → Lane) {l : List (Nat × Nat)}
    (hl : ∀ c ∈ l, c.1 < 8 ∧ c.2 < 4) : lane P (planeOfLanes P f l) i j = if (i, j) ∈ l then f (i, j) else 0 := by
  rw [planeOfLanes, lane_foldl_laneAt hP hi hj f l hl, lane_zero]
  exact BitVec.zero_or

/-! ### The plane shift (R77) -/

theorem lt_of_mem_gridCoords : ∀ c ∈ gridCoords, c.1 < 8 ∧ c.2 < 4 := by
  decide

/-- The grid has all 32 coordinates of R75. -/
theorem mem_gridCoords : ∀ i < 8, ∀ j < 4, (i, j) ∈ gridCoords := by
  decide

theorem shiftPlane_eq_planeOfLanes (s : GridShift) (p : Plane) : shiftPlane P s p =
    planeOfLanes P (fun c => lane P p ((c.1 + (8 - s.a % 8)) % 8) ((c.2 + (4 - s.b % 4)) % 4)) gridCoords := rfl

/-- Lane (i, j) of a shifted plane is lane ((i - a) mod 8, (j - b) mod 4). -/
theorem lane_shiftPlane (hP : P.WellFormed) (s : GridShift) (p : Plane) (hi : i < 8) (hj : j < 4) :
    lane P (shiftPlane P s p) i j = lane P p ((i + (8 - s.a % 8)) % 8) ((j + (4 - s.b % 4)) % 4) := by
  rw [shiftPlane_eq_planeOfLanes, lane_planeOfLanes hP hi hj _ lt_of_mem_gridCoords, if_pos (mem_gridCoords i hi j hj)]

end Layout

/-- Settles O43: the lane from which the shift takes the one at ((i + a) mod 8, (j + b) mod 4) is (i, j). -/
theorem planeShiftMovesLanes : Obligations.PlaneShiftMovesLanes := by
  intro P s p i j hP hi hj
  have hrow : ((i + s.a) % 8 + (8 - s.a % 8)) % 8 = i := by omega
  have hcol : ((j + s.b) % 4 + (4 - s.b % 4)) % 4 = j := by omega
  rw [lane_shiftPlane hP s p (Nat.mod_lt _ (by decide)) (Nat.mod_lt _ (by decide)), hrow, hcol]

section RoundConstant

variable {P : Params} {i j r : Nat}

/-! ### The round constants (R79) -/

theorem nibbleColumn_eq_planeOfLanes (v : BitVec 16) : nibbleColumn P r v =
    planeOfLanes P (fun c => v.extractLsb' (4 * c.2) 4) ([0, 1, 2, 3].map (Prod.mk r)) := rfl

/-- The lanes of nibble-column r are the four nibbles of its value, and the other lanes are zero. -/
theorem lane_nibbleColumn (hP : P.WellFormed) (hr : r < 8) (hi : i < 8) (hj : j < 4) (v : BitVec 16) :
    lane P (nibbleColumn P r v) i j = if i = r then v.extractLsb' (4 * j) 4 else 0 := by
  have hcol : ∀ c ∈ [0, 1, 2, 3].map (Prod.mk r), c.1 < 8 ∧ c.2 < 4 := by simp [hr]
  have hmem : (i, j) ∈ [0, 1, 2, 3].map (Prod.mk r) ↔ i = r := by
    have hj' : j ∈ List.range 4 := List.mem_range.mpr hj
    rw [List.mem_map]
    exact ⟨fun ⟨_, _, h⟩ => (Prod.ext_iff.mp h).1.symm, fun h => ⟨j, hj', by rw [h]⟩⟩
  simp only [nibbleColumn_eq_planeOfLanes, lane_planeOfLanes hP hi hj _ hcol, hmem]

/-- A slice of a slice. -/
theorem extractLsb'_extractLsb' {w a n b m : Nat} (x : BitVec w) (h : b + m ≤ n) :
    (x.extractLsb' a n).extractLsb' b m = x.extractLsb' (a + b) m := by
  apply BitVec.eq_of_getLsbD_eq
  intro t ht
  have hin : b + t < n := by omega
  simp [ht, hin, Nat.add_assoc]

/-- Under the default layout the mask of column r keeps the lanes of that column. -/
theorem lane_columnMask (hdef : P.bLaneIndex = defaultLaneIndex) (hr : r < 8) (hi : i < 8) (hj : j < 4) :
    lane P ((0xFFFF : Plane) <<< (16 * r)) i j = if i = r then BitVec.allOnes 4 else 0 := by
  have hmask : ∀ r < 8, ∀ i < 8, ∀ j < 4,
      ((0xFFFF : Plane) <<< (16 * r)).extractLsb' (4 * (4 * i + j)) 4 = if i = r then BitVec.allOnes 4 else 0 := by
    decide
  rw [lane, laneIndex_of_default hdef hi hj, hmask r hr i hi j hj]

/-- Under the default layout and rule, RC_r is the low half of the key under the mask of column r (R79). -/
theorem roundConstant_of_default (hrule : P.bRc = .nibbleColumn) (hdef : P.bLaneIndex = defaultLaneIndex) (k : Key)
    (hr : r < 8) : roundConstant P k r = k.extractLsb' 0 128 &&& ((0xFFFF : Plane) <<< (16 * r)) := by
  have hP := wellFormed_of_default hdef
  simp only [roundConstant, hrule]
  refine plane_ext hP fun i j hi hj => ?_
  rw [lane_nibbleColumn hP hr hi hj, lane_and, lane_columnMask hdef hr hi hj]
  split
  · next hcol =>
    subst hcol
    have hpos : 16 * i + 4 * j = 0 + 4 * (4 * i + j) := by omega
    rw [BitVec.and_allOnes, lane, laneIndex_of_default hdef hi hj, extractLsb'_extractLsb' k (by omega),
      extractLsb'_extractLsb' k (by omega), hpos]
  · exact BitVec.and_zero.symm

end RoundConstant

end Sys2Proof.Machine
end

