-- ==== Sys2Proof/Proofs/PermutationB.lean ====
section
/-!
PROOFS. Permutation B (spec/41_perm_b_bitplane.md R74, R78 to R88): the state round (O57) and the schedule and the data
rounds (O58) in the steps of their rules, the round trip of E_B and D_B and the affine law of E_B (O44), and from it
the digest in ECB (43_padding_digest.md R109, O49). The planes and their XOR do not depend on the key, and a data round
is an XOR with a key-only value followed by rho.
-/

namespace Sys2Proof.Machine

section StateRound

variable {P : Params}

/-! ### The state round (R80 to R83) -/

/-- Step 1 adds the mixing value to each plane, or changes none. -/
theorem stateStep1_eq_mapPlanes (a : Planes) :
    stateStep1 P a = mapPlanes (fun p => if P.bApplyE then p ^^^ mixingValue P a else p) a := by
  cases h : P.bApplyE <;> simp [stateStep1, mapPlanes, h]

end StateRound

/-- Settles O57: after step 1 in this form, the other steps are by definition the rules' own, and step 4 discards the
plane 2 of step 3. -/
theorem permutationBStateRound : Obligations.PermutationBStateRound := by
  intro P k r a0 a1 a2
  rw [stateRound, stateStep1_eq_mapPlanes]
  rfl

section BlockPlanes

variable (P : Params)

/-! ### The planes of a block (R74) -/

/-- The planes of a block, in either order, are adjacent slices that join to the whole block. -/
theorem planesToBlock_planesOf (b : Block) : planesToBlock P (planesOf P b) = b := by
  cases h : P.bPlaneOrder <;> simp only [planesToBlock, planesOf, h]
  all_goals
    iterate 2 rw [BitVec.extractLsb'_append_extractLsb'_eq_extractLsb' (by rfl)]
    exact BitVec.extractLsb'_eq_self

/-- A slice of planes joined to a block skips the planes below it, and is then the lowest plane left. -/
theorem planesOf_planesToBlock (d : Planes) : planesOf P (planesToBlock P d) = d := by
  cases h : P.bPlaneOrder <;>
  simp (disch := decide) only [planesToBlock, planesOf, h, BitVec.extractLsb'_append_eq_of_le,
    extractLsb'_append_lowest, extractLsb'_whole]

/-- The planes of an XOR of blocks. -/
theorem planesOf_xor (a b : Block) : planesOf P (a ^^^ b) = xorPlanes (planesOf P a) (planesOf P b) := by
  cases h : P.bPlaneOrder <;> simp only [planesOf, xorPlanes, h, BitVec.extractLsb'_xor]

/-- The block of an XOR of planes. -/
theorem planesToBlock_xorPlanes (d e : Planes) :
    planesToBlock P (xorPlanes d e) = planesToBlock P d ^^^ planesToBlock P e := by
  cases h : P.bPlaneOrder <;> simp only [planesToBlock, xorPlanes, h, ← BitVec.xor_append]

/-! ### The key state (R78) -/

/-- The default key state: the planes of the key under 128 zero bits. -/
theorem keyState_of_zeroExtend (hrule : P.bKeyState = .zeroExtend) (k : Key) :
    keyState P k = match P.bPlaneOrder with
      | .mspFirst => ⟨0, k.extractLsb' 128 128, k.extractLsb' 0 128⟩
      | .lspFirst => ⟨k.extractLsb' 0 128, k.extractLsb' 128 128, 0⟩ := by
  have htop : k.extractLsb' 256 128 = 0 := by
    apply BitVec.eq_of_getLsbD_eq
    intro t ht
    simp
  cases h : P.bPlaneOrder <;>
  simp (disch := decide) only [keyState, hrule, planesOf, h, BitVec.extractLsb'_setWidth_of_le, htop]

end BlockPlanes

/-- Settles O58: the split of a block, the schedule and the run of the data rounds are by definition the rules' steps;
the joined planes, the key state and the round constants are the lemmas' above. -/
theorem permutationBSchedule : Obligations.PermutationBSchedule := fun P k =>
  ⟨fun b => ⟨rfl, planesToBlock_planesOf P b⟩, fun hrule => keyState_of_zeroExtend P hrule k,
    fun hrule hdef _ hr => roundConstant_of_default hrule hdef k hr, fun _ _ _ _ _ _ => rfl, rfl, fun _ => rfl⟩

section RoundTrip

variable {P : Params} {k : Key}

/-! ### The data round and its inverse (R85, R87) -/

theorem xorPlanes_xorPlanes (d s : Planes) : xorPlanes (xorPlanes d s) s = d := by
  simp only [xorPlanes, xor_cancel_right]

theorem dataRoundInv_dataRound (d s : Planes) : dataRoundInv (dataRound d s) s = d :=
  xorPlanes_xorPlanes d s

theorem dataRound_dataRoundInv (d s : Planes) : dataRound (dataRoundInv d s) s = d := by
  rw [dataRound, dataRoundInv, xorPlanes_xorPlanes]
  rfl

/-! ### The round trip (R88) -/

theorem decryptB_encryptB (b : Block) : decryptB P (encryptB P b k) k = b := by
  rw [decryptB, encryptB, planesOf_planesToBlock, foldl_reverse_foldl dataRoundInv_dataRound, planesToBlock_planesOf]

theorem encryptB_decryptB (b : Block) : encryptB P (decryptB P b k) k = b := by
  rw [encryptB, decryptB, planesOf_planesToBlock, foldl_foldl_reverse dataRound_dataRoundInv, planesToBlock_planesOf]

/-! ### The affine law (R88) -/

/-- A difference of the data planes goes through a data round by rho alone. -/
theorem dataRound_xorPlanes (delta d s : Planes) :
    dataRound (xorPlanes delta d) s = xorPlanes (rho delta) (dataRound d s) := by
  simp only [dataRound, xorPlanes, rho, BitVec.xor_assoc]

/-- A difference of the data planes goes through a run of rounds by rho once for each. -/
theorem foldl_dataRound_xorPlanes (l : List Planes) (delta d : Planes) :
    l.foldl dataRound (xorPlanes delta d) = xorPlanes (rho^[l.length] delta) (l.foldl dataRound d) := by
  induction l generalizing delta d with
  | nil => rfl
  | cons s l ih => rw [List.foldl_cons, dataRound_xorPlanes, ih]; rfl

/-- rho^3 is the identity, so the eight rotations of E_B are rho^2. -/
theorem rho_iterate_eight (d : Planes) : rho^[8] d = rho (rho d) := rfl

theorem encryptB_xor (delta b : Block) : encryptB P (delta ^^^ b) k = rhoSquared P delta ^^^ encryptB P b k := by
  have hrounds : (schedule P k).length = 8 := rfl
  rw [encryptB, planesOf_xor, foldl_dataRound_xorPlanes, hrounds, rho_iterate_eight, planesToBlock_xorPlanes]
  rfl

theorem encryptB_eq_rhoSquared_xor (b : Block) : encryptB P b k = rhoSquared P b ^^^ encryptB P 0 k := by
  simpa using encryptB_xor (P := P) (k := k) b 0

end RoundTrip

/-- Settles O44: D_B undoes E_B round by round, and a difference of two blocks goes through E_B by rho^2. -/
theorem permutationBRoundTripAffine : Obligations.PermutationBRoundTripAffine := fun P k =>
  ⟨fun b => ⟨decryptB_encryptB b, encryptB_decryptB b⟩, encryptB_eq_rhoSquared_xor, fun b delta => by
    rw [BitVec.xor_comm b, encryptB_xor, BitVec.xor_comm]⟩

section EcbDigest

variable (P : Params) (k : Key)

/-! ### The digest in ECB (R93, R109) -/

/-- rho^2 is linear. -/
theorem rhoSquared_xor (a b : Block) : rhoSquared P (a ^^^ b) = rhoSquared P a ^^^ rhoSquared P b := by
  simp only [rhoSquared, planesOf_xor, ← planesToBlock_xorPlanes]
  rfl

theorem rhoSquared_zero : rhoSquared P 0 = 0 := by
  have h := rhoSquared_xor P 0 0
  rwa [LawfulXor.xor_self, LawfulXor.xor_self] at h

/-- The ECB stream encrypts block by block, whatever the chaining value. -/
theorem modeSequence_ecb_enc (xs : List Block) (c : Block) :
    (modeSequence P .b .ecb .enc k xs c).1 = xs.map (encryptB P · k) := by
  induction xs with
  | nil => rfl
  | cons x xs ih => exact congrArg (encryptB P x k :: ·) ih

/-- The XOR of the encryptions is rho^2 of the XOR of the blocks, and each block adds E_B(0, k) once. -/
theorem xorFold_map_encryptB (xs : List Block) :
    xorFold (xs.map (encryptB P · k)) =
      rhoSquared P (xorFold xs) ^^^ (if xs.length % 2 = 1 then encryptB P 0 k else 0) := by
  induction xs with
  | nil =>
    change 0 = rhoSquared P 0 ^^^ 0
    rw [rhoSquared_zero, LawfulXor.xor_self]
  | cons x xs ih =>
    have hparity : (xs.length + 1) % 2 = 1 ↔ ¬ xs.length % 2 = 1 := by omega
    have hflip : encryptB P 0 k ^^^ (if xs.length % 2 = 1 then encryptB P 0 k else 0) =
        if (xs.length + 1) % 2 = 1 then encryptB P 0 k else 0 := by
      by_cases h : xs.length % 2 = 1 <;> simp [hparity, h]
    calc xorFold ((x :: xs).map (encryptB P · k))
        = encryptB P x k ^^^ xorFold (xs.map (encryptB P · k)) := xorFold_cons _ _
      _ = (rhoSquared P x ^^^ encryptB P 0 k) ^^^
            (rhoSquared P (xorFold xs) ^^^ if xs.length % 2 = 1 then encryptB P 0 k else 0) := by
          rw [ih, encryptB_eq_rhoSquared_xor]
      _ = (rhoSquared P x ^^^ rhoSquared P (xorFold xs)) ^^^
            (encryptB P 0 k ^^^ if xs.length % 2 = 1 then encryptB P 0 k else 0) := by ac_rfl
      _ = rhoSquared P (xorFold (x :: xs)) ^^^ if (x :: xs).length % 2 = 1 then encryptB P 0 k else 0 := by
          rw [← rhoSquared_xor, ← xorFold_cons, hflip, List.length_cons]

end EcbDigest

/-- Settles O49: the digest in ECB is the XOR of the blocks' encryptions, and E_B is affine. -/
theorem bitPlaneEcbDigestLaw : Obligations.BitPlaneEcbDigestLaw := by
  intro P k xs
  rw [digestOf, modeSequence_ecb_enc, xorFold_map_encryptB]

end Sys2Proof.Machine
end

