-- ==== Sys2Proof/Proofs/ModeSequences.lean ====
section
/-!
PROOFS. The mode engine's sequence functions (spec/42_mode_engine.md R93 to R102): one decrypt step undoes one encrypt
step and hands on the same chaining value, so the decrypt sequence undoes the encrypt one (O45); and which chaining
value a stream ends with (O46).
-/

namespace Sys2Proof.Machine

section Sequences

variable {P : Params} {alg : Alg} {k : Key}

/-! ### One step (R93 to R100) -/

theorem cipher_enc (b : Block) :
    (cipher P alg k).enc b = match alg with | .a => encryptA P b k | .b => encryptB P b k := by
  cases alg <;> rfl

/-- D undoes E, whichever permutation ALG selects (R71, R88). -/
theorem cipher_dec_enc (b : Block) : (cipher P alg k).dec ((cipher P alg k).enc b) = b := by
  cases alg with
  | a => exact decryptA_encryptA b
  | b => exact decryptB_encryptB b

/-- A decrypt step takes the output block of an encrypt step back to its input block, and both hand on the same chaining
value. -/
theorem modeRule_dec_enc {f : Cipher} (hf : ∀ b, f.dec (f.enc b) = b) (m : Mode) (x c : Block) :
    modeRule m .dec f (modeRule m .enc f x c).out c = ⟨x, (modeRule m .enc f x c).chain⟩ := by
  cases m with
  | ecb => simp only [modeRule, ecbE, ecbD, hf]
  | cbc => simp only [modeRule, cbcE, cbcD, hf, xor_cancel_right]
  | cfb => simp only [modeRule, cfbE, cfbD, xor_cancel_left]
  | ofb => simp only [modeRule, ofbE, ofbD, xor_cancel_left]

/-- In CBC and CFB the chaining value becomes the output block (R95, R97). -/
theorem modeRule_enc_chain_eq_out {m : Mode} (hm : m = .cbc ∨ m = .cfb) (f : Cipher) (x c : Block) :
    (modeRule m .enc f x c).chain = (modeRule m .enc f x c).out := by
  rcases hm with rfl | rfl <;> rfl

/-- In OFB the chaining value becomes the pad (R99). -/
theorem modeRule_ofb_chain (f : Cipher) (x c : Block) : (modeRule .ofb .enc f x c).chain = f.enc c := rfl

/-- The pad is the XOR of the input block and the output block (R99). -/
theorem modeRule_ofb_chain_eq_xor (f : Cipher) (x c : Block) :
    (modeRule .ofb .enc f x c).chain = x ^^^ (modeRule .ofb .enc f x c).out := by
  simp only [modeRule, ofbE, BitVec.xor_comm (f.enc c), xor_cancel_left]

/-! ### A sequence of steps (R102) -/

/-- The decrypt sequence takes the output of the encrypt sequence back to its input, and both end with the same chaining
value. -/
theorem modeSequence_dec_enc (m : Mode) (xs : List Block) (c : Block) :
    modeSequence P alg m .dec k (modeSequence P alg m .enc k xs c).1 c =
      (xs, (modeSequence P alg m .enc k xs c).2) := by
  induction xs generalizing c with
  | nil => rfl
  | cons x xs ih =>
    simp only [modeSequence] at ih
    simp only [modeSequence, sequence, modeRule_dec_enc cipher_dec_enc, ih]

variable {rule : Block → Block → ModeResult}

/-- Where a step's chaining value is a function of the one before it, the stream ends with that function applied once
for each block. -/
theorem sequence_chain_iterate {g : Block → Block} (h : ∀ x c, (rule x c).chain = g c) (xs : List Block) (c : Block) :
    (sequence rule xs c).2 = g^[xs.length] c := by
  induction xs generalizing c with
  | nil => rfl
  | cons x xs ih => simp only [sequence, ih, h, List.length_cons, Function.iterate_succ_apply]

/-- Where a step's chaining value is a function of its input block and its output block, the stream ends with that of
the last pair. -/
theorem sequence_chain_last {g : Block → Block → Block} (h : ∀ x c, (rule x c).chain = g x (rule x c).out)
    (xs : List Block) (c : Block) :
    (sequence rule xs c).2 = ((List.zipWith g xs (sequence rule xs c).1).getLast?).getD c := by
  induction xs generalizing c with
  | nil => rfl
  | cons x xs ih => simp only [sequence, List.zipWith_cons_cons, List.getLast?_cons, Option.getD_some, ← h, ← ih]

/-- Where a step's chaining value is its output block, the stream ends with the last output block. -/
theorem sequence_chain_last_out (h : ∀ x c, (rule x c).chain = (rule x c).out) (xs : List Block) (c : Block) :
    (sequence rule xs c).2 = ((sequence rule xs c).1.getLast?).getD c := by
  induction xs generalizing c with
  | nil => rfl
  | cons x xs ih => simp only [sequence, List.getLast?_cons, Option.getD_some, ← h, ← ih]

end Sequences

/-- Settles O45, by the round trip of each step. -/
theorem modeRoundTrip : Obligations.ModeRoundTrip := by
  intro P alg m k xs c
  rw [modeSequence_dec_enc]

/-- Settles O46: each decrypt step hands on the encrypt step's chaining value, and what that value is in one step of a
mode says what it is at the end of a stream. -/
theorem streamsEndAlike : Obligations.StreamsEndAlike := by
  intro P alg m k xs c E r
  have hE : (cipher P alg k).enc = E := funext fun b => cipher_enc b
  refine ⟨by rw [modeSequence_dec_enc], ?_, fun hm => ?_, ?_⟩
  · rintro rfl
    exact (sequence_chain_iterate (g := id) (modeRule_ecb_chain .enc _) xs c).trans (congrFun (Function.iterate_id _) c)
  · exact sequence_chain_last_out (modeRule_enc_chain_eq_out hm _) xs c
  · rintro rfl
    refine ⟨?_, sequence_chain_last (modeRule_ofb_chain_eq_xor _) xs c⟩
    rw [← hE]
    exact sequence_chain_iterate (modeRule_ofb_chain _) xs c

end Sys2Proof.Machine
end

