-- ==== Sys2Proof/Proofs/ModeCommands.lean ====
section
/-!
PROOFS. The commands of the mode engine (spec/42_mode_engine.md R92 to R101): with a key at hand each MSTEP completes
with the results of its mode rule (O31), and CHAIN_INIT loads CHAIN_IV (O33).
-/

namespace Sys2Proof.Machine

section Mstep

variable {ksel : KeySel} {s : State}

/-- An MSTEP with a key at hand commits one call of its mode rule under the effective key (R92, R114). -/
theorem exec_mstep_of_keyAvailable (m : Mode) (d : Dir) (alg : Alg) (fold : Bool) (h : KeyAvailable ksel s) :
    exec (mstepInstr m d alg fold ksel) s = .next (complete
      { s with
        dout := (modeRule m d (cipher s.params alg (effKey ksel alg s)) s.din s.chain).out
        chain := (modeRule m d (cipher s.params alg (effKey ksel alg s)) s.din s.chain).chain
        digest := if fold then
            s.digest ^^^ (modeRule m d (cipher s.params alg (effKey ksel alg s)) s.din s.chain).out
          else s.digest }) :=
  (exec_mstepInstr m d alg fold ksel s).trans (mstep_of_key (keyMissing_of_keyAvailable h))

end Mstep

/-- Settles O31: each command is its mode rule, with E and D the permutation of ALG under KEY or the default key. -/
theorem mstepCommandsComplete : Obligations.MstepCommandsComplete := by
  intro alg fold ksel s h
  have hall := fun m d => exec_mstep_of_keyAvailable m d alg fold h
  cases ksel <;> cases alg <;>
    exact ⟨hall .ecb .enc, hall .ecb .dec, hall .cbc .enc, hall .cbc .dec, hall .cfb .enc, hall .cfb .dec,
      hall .ofb .enc, hall .ofb .dec⟩

/-- Settles O33: CHAIN_INIT's meaning and its completion are the rule's assignments. -/
theorem chainInitCompletes : Obligations.ChainInitCompletes := by
  intro s
  rw [exec, execChainInit, succeed_eq, complete]

end Sys2Proof.Machine
end

