-- ==== Sys2Proof/Proofs/BlockBytes.lean ====
section
/-!
PROOFS. Blocks as file bytes (spec/10_state.md R9, R10; 45_host_protocol.md R123): a block is its 48 bytes, its
serialisation and the reading of 48 bytes undo each other, and a file is its full blocks followed by its final chunk.
-/

namespace Sys2Proof.Machine

section BlockBytes

variable {a b v : Block} {k n : Nat}

/-! ### The bytes of a block (R9) -/

theorem getLsbD_blockByte (b : Block) (k : Nat) {i : Nat} (hi : i < 8) :
    (blockByte b k).getLsbD i = b.getLsbD (8 * k + i) := by
  simp [blockByte, hi]

/-- A block is determined by its 48 bytes. -/
theorem block_ext_bytes (h : ∀ k < 48, blockByte a k = blockByte b k) : a = b := by
  apply BitVec.eq_of_getLsbD_eq
  intro i hi
  have hbyte := congrArg (fun c => c.getLsbD (i % 8)) (h (i / 8) (by omega))
  have hmod : i % 8 < 8 := Nat.mod_lt i (by decide)
  rw [getLsbD_blockByte _ _ hmod, getLsbD_blockByte _ _ hmod, Nat.div_add_mod] at hbyte
  exact hbyte

theorem blockByte_xor (a b : Block) (k : Nat) : blockByte (a ^^^ b) k = blockByte a k ^^^ blockByte b k :=
  BitVec.extractLsb'_xor

theorem blockByte_zero (k : Nat) : blockByte 0 k = 0 :=
  BitVec.extractLsb'_zero

/-- A shift by whole bytes moves every byte up. -/
theorem blockByte_shiftLeft (b : Block) (g : Nat) (hk : k < 48) :
    blockByte (b <<< (8 * g)) k = if k < g then 0 else blockByte b (k - g) := by
  apply BitVec.eq_of_getLsbD_eq
  intro i hi
  have hin : 8 * k + i < 384 := by omega
  rw [getLsbD_blockByte _ _ hi, BitVec.getLsbD_shiftLeft]
  by_cases hg : k < g
  · have hlow : 8 * k + i < 8 * g := by omega
    simp [hg, hlow]
  · have hbit : 8 * k + i - 8 * g = 8 * (k - g) + i := by omega
    have hhigh : ¬ 8 * k + i < 8 * g := by omega
    rw [if_neg hg, getLsbD_blockByte _ _ hi]
    simp [hin, hhigh, hbit]

/-- The low n bytes of a block (R105). -/
theorem blockByte_lowBytes (b : Block) (n : Nat) (hk : k < 48) :
    blockByte (lowBytes b n) k = if k < n then blockByte b k else 0 := by
  apply BitVec.eq_of_getLsbD_eq
  intro i hi
  have hin : 8 * k + i < 384 := by omega
  rw [getLsbD_blockByte _ _ hi, lowBytes, BitVec.getLsbD_and, BitVec.getLsbD_ofNat, Nat.testBit_two_pow_sub_one]
  by_cases hn : k < n
  · have hlow : 8 * k + i < 8 * n := by omega
    rw [if_pos hn, getLsbD_blockByte _ _ hi]
    simp [hin, hlow]
  · have hhigh : ¬ 8 * k + i < 8 * n := by omega
    simp [hn, hhigh]

/-- The bits of rep8: the bytes it adds up do not overlap (R10). -/
theorem getLsbD_rep8 (c : Byte) (n : Nat) {i : Nat} (hi : i < 384) :
    (rep8 c n).getLsbD i = (decide (i < 8 * n) && c.getLsbD (i % 8)) := by
  induction n generalizing i with
  | zero => simp [rep8]
  | succ n ih =>
    have hdisjoint : rep8 c n &&& (c.setWidth 384 <<< (8 * n)) = 0 := by
      apply BitVec.eq_of_getLsbD_eq
      intro j hj
      rw [BitVec.getLsbD_and, ih hj, BitVec.getLsbD_shiftLeft]
      by_cases hlow : j < 8 * n <;> simp [hlow]
    rw [rep8, BitVec.add_eq_or_of_and_eq_zero _ _ hdisjoint, BitVec.getLsbD_or, ih hi, BitVec.getLsbD_shiftLeft,
      BitVec.getLsbD_setWidth]
    by_cases hlow : i < 8 * n
    · have hnext : i < 8 * (n + 1) := by omega
      simp [hlow, hnext]
    · by_cases hnext : i < 8 * (n + 1)
      · have hmod : i - 8 * n = i % 8 := by omega
        simp [hlow, hnext, hi, hmod, show i % 8 < 384 by omega]
      · have hge : c.getLsbD (i - 8 * n) = false := BitVec.getLsbD_of_ge _ _ (by omega)
        simp [hlow, hnext, hge]

/-- The bytes of rep8 (R10). -/
theorem blockByte_rep8 (c : Byte) (n : Nat) (hk : k < 48) : blockByte (rep8 c n) k = if k < n then c else 0 := by
  apply BitVec.eq_of_getLsbD_eq
  intro i hi
  have hmod : (8 * k + i) % 8 = i := by omega
  rw [getLsbD_blockByte _ _ hi, getLsbD_rep8 c n (by omega), hmod]
  by_cases hn : k < n
  · have hlow : 8 * k + i < 8 * n := by omega
    simp [hn, hlow, hi]
  · have hhigh : ¬ 8 * k + i < 8 * n := by omega
    simp [hn, hhigh]

/-! ### A block and its serialisation (45_host_protocol.md, opening) -/

theorem length_bytesOfBlock (v : Block) : (bytesOfBlock v).length = 48 := by
  simp [bytesOfBlock]

/-- The serialisation read from its end: byte k of the block is the k-th from the last. -/
theorem bytesOfBlock_reverse_getElem? (v : Block) (hk : k < 48) :
    (bytesOfBlock v).reverse[k]? = some (blockByte v k) := by
  have hlen := length_bytesOfBlock v
  rw [List.getElem?_reverse (by omega), hlen, bytesOfBlock_getElem? v (by omega),
    show 47 - (48 - 1 - k) = k by omega]
  rfl

theorem intOfBytes_concat (bs : List Byte) (b : Byte) :
    intOfBytes (bs ++ [b]) = intOfBytes bs <<< 8 ||| b.setWidth 384 := by
  rw [intOfBytes, List.foldl_append]
  rfl

/-- A byte put below a block. -/
theorem blockByte_shiftLeft_or (v : Block) (b : Byte) (hk : k < 48) :
    blockByte (v <<< 8 ||| b.setWidth 384) k = if k = 0 then b else blockByte v (k - 1) := by
  apply BitVec.eq_of_getLsbD_eq
  intro i hi
  have hin : 8 * k + i < 384 := by omega
  rw [getLsbD_blockByte _ _ hi, BitVec.getLsbD_or, BitVec.getLsbD_shiftLeft, BitVec.getLsbD_setWidth]
  by_cases h0 : k = 0
  · simp [h0, hi, show i < 384 by omega]
  · have hhigh : ¬ 8 * k + i < 8 := by omega
    have hbit : 8 * k + i - 8 = 8 * (k - 1) + i := by omega
    have hge : b.getLsbD (8 * k + i) = false := BitVec.getLsbD_of_ge _ _ (by omega)
    rw [if_neg h0, getLsbD_blockByte _ _ hi]
    simp [hin, hhigh, hbit, hge]

/-- Bytes read as an integer: byte k is the k-th from the last, and those beyond the first are 0. -/
theorem blockByte_intOfBytes (bs : List Byte) (hk : k < 48) :
    blockByte (intOfBytes bs) k = (bs.reverse[k]?).getD 0 := by
  induction bs using List.reverseRecOn generalizing k with
  | nil => exact blockByte_zero k
  | append_singleton bs b ih =>
    rw [intOfBytes_concat, blockByte_shiftLeft_or _ _ hk, List.reverse_concat]
    cases k with
    | zero => rfl
    | succ k => exact ih (by omega)

/-- Reading a serialised block gives the block back. -/
theorem intOfBytes_bytesOfBlock (v : Block) : intOfBytes (bytesOfBlock v) = v :=
  block_ext_bytes fun k hk => by
    rw [blockByte_intOfBytes _ hk, bytesOfBlock_reverse_getElem? v hk, Option.getD_some]

/-- Serialising 48 bytes that were read gives the bytes back. -/
theorem bytesOfBlock_intOfBytes {bs : List Byte} (h : bs.length = 48) : bytesOfBlock (intOfBytes bs) = bs := by
  apply List.reverse_injective
  have hlen := length_bytesOfBlock (intOfBytes bs)
  refine List.ext_getElem? fun k => ?_
  by_cases hk : k < 48
  · have hin : k < bs.reverse.length := by simpa [h] using hk
    have hget : bs.reverse[k]? = some bs.reverse[k] := List.getElem?_eq_getElem hin
    rw [bytesOfBlock_reverse_getElem? _ hk, blockByte_intOfBytes _ hk, hget, Option.getD_some]
  · rw [List.getElem?_eq_none (by simp; omega), List.getElem?_eq_none (by simp; omega)]

end BlockBytes

section Files

variable {bs f : List Byte}

/-! ### A file and its blocks (R123) -/

theorem bytesOfBlocks_cons (y : Block) (ys : List Block) : bytesOfBlocks (y :: ys) = bytesOfBlock y ++ bytesOfBlocks ys :=
  List.flatMap_cons

theorem bytesOfBlocks_append (xs ys : List Block) :
    bytesOfBlocks (xs ++ ys) = bytesOfBlocks xs ++ bytesOfBlocks ys :=
  List.flatMap_append

theorem bytesOfBlocks_singleton (y : Block) : bytesOfBlocks [y] = bytesOfBlock y :=
  List.flatMap_singleton ..

theorem length_bytesOfBlocks (ys : List Block) : (bytesOfBlocks ys).length = 48 * ys.length := by
  induction ys with
  | nil => rfl
  | cons y ys ih =>
    rw [bytesOfBlocks_cons, List.length_append, length_bytesOfBlock, ih, List.length_cons]
    omega

theorem length_bytesOfBlocks_mod (ys : List Block) : (bytesOfBlocks ys).length % 48 = 0 := by
  rw [length_bytesOfBlocks, Nat.mul_mod_right]

theorem fullBlocks_of_length_lt (h : f.length < 48) : fullBlocks f = [] := by
  rw [fullBlocks, Nat.div_eq_of_lt h]
  rfl

/-- The first 48 bytes of a file are its first block. -/
theorem fullBlocks_append (h : bs.length = 48) (f : List Byte) :
    fullBlocks (bs ++ f) = intOfBytes bs :: fullBlocks f := by
  have hcount : (bs ++ f).length / 48 = f.length / 48 + 1 := by
    rw [List.length_append]
    omega
  have hnext : ∀ i, (bs ++ f).drop (48 * (i + 1)) = f.drop (48 * i) := fun i => by
    rw [show 48 * (i + 1) = bs.length + 48 * i by omega, List.drop_length_add_append]
  rw [fullBlocks, hcount, List.range_succ_eq_map, List.map_cons, List.map_map]
  congr 1
  · rw [Nat.mul_zero, List.drop_zero, List.take_left' h]
  · exact List.map_congr_left fun i _ => by rw [Function.comp_apply, Nat.succ_eq_add_one, hnext]

theorem fullBlocks_of_length_eq (h : bs.length = 48) : fullBlocks bs = [intOfBytes bs] := by
  simpa [fullBlocks_of_length_lt] using fullBlocks_append h []

theorem finalChunk_append (h : bs.length = 48) (f : List Byte) : finalChunk (bs ++ f) = finalChunk f := by
  rw [finalChunk, finalChunk, show 48 * ((bs ++ f).length / 48) = bs.length + 48 * (f.length / 48) by
    rw [List.length_append]; omega, List.drop_length_add_append]

theorem length_finalChunk (f : List Byte) : (finalChunk f).length = f.length % 48 := by
  rw [finalChunk, List.length_drop]
  omega

/-- The blocks of serialised blocks are the blocks, before those of what follows. -/
theorem fullBlocks_bytesOfBlocks_append (ys : List Block) (f : List Byte) :
    fullBlocks (bytesOfBlocks ys ++ f) = ys ++ fullBlocks f := by
  induction ys with
  | nil => rfl
  | cons y ys ih =>
    rw [bytesOfBlocks_cons, List.append_assoc, fullBlocks_append (length_bytesOfBlock y), ih, intOfBytes_bytesOfBlock,
      List.cons_append]

theorem fullBlocks_bytesOfBlocks (ys : List Block) : fullBlocks (bytesOfBlocks ys) = ys := by
  simpa [fullBlocks_of_length_lt] using fullBlocks_bytesOfBlocks_append ys []

/-- A file is its full blocks, serialised, and its final chunk. -/
theorem bytesOfBlocks_append_finalChunk (f : List Byte) : bytesOfBlocks (fullBlocks f) ++ finalChunk f = f := by
  induction hn : f.length / 48 generalizing f with
  | zero =>
    rw [fullBlocks_of_length_lt (by omega), finalChunk, hn]
    rfl
  | succ n ih =>
    have hfirst : (f.take 48).length = 48 := by
      rw [List.length_take]
      omega
    have hrest := ih (f.drop 48) (by rw [List.length_drop]; omega)
    conv_lhs => rw [← List.take_append_drop 48 f]
    rw [fullBlocks_append hfirst, finalChunk_append hfirst, bytesOfBlocks_cons, bytesOfBlock_intOfBytes hfirst,
      List.append_assoc, hrest, List.take_append_drop]

/-- A block-aligned file is its blocks, serialised. -/
theorem bytesOfBlocks_fullBlocks (h : f.length % 48 = 0) : bytesOfBlocks (fullBlocks f) = f := by
  have hnone : finalChunk f = [] := List.eq_nil_of_length_eq_zero (by rw [length_finalChunk, h])
  simpa [hnone] using bytesOfBlocks_append_finalChunk f

/-- The full blocks of a file followed by more bytes: those of the file, then those of its final chunk and the bytes. -/
theorem fullBlocks_append_right (f g : List Byte) :
    fullBlocks (f ++ g) = fullBlocks f ++ fullBlocks (finalChunk f ++ g) := by
  conv_lhs => rw [← bytesOfBlocks_append_finalChunk f, List.append_assoc]
  exact fullBlocks_bytesOfBlocks_append _ _

end Files

end Sys2Proof.Machine
end

