-- ==== Sys2Proof/Proofs/Padding.lean ====
section
/-!
PROOFS. Padding and unpadding on file bytes (spec/43_padding_digest.md R104, R105, R110; 45_host_protocol.md R124,
R125): what PAD makes of a final chunk, what UNPAD finds at the end of a block sequence, and that unpadding takes away what
padding adds.
-/

namespace Sys2Proof.Machine

section Padding

variable {chunk f : List Byte}

/-! ### What PAD adds to a chunk (R104) -/

/-- The bytes that padding puts after a final chunk of n bytes, n in 1 to 47. -/
def paddingBytes (n : Nat) : List Byte :=
  if n = 47 then [0] ++ (List.replicate 47 0 ++ [49]) else List.replicate (48 - n) (BitVec.ofNat 8 (48 - n))

theorem paddingBytes_47 : paddingBytes 47 = [0] ++ (List.replicate 47 0 ++ [49]) := rfl

theorem paddingBytes_of_ne {n : Nat} (h : n ≠ 47) :
    paddingBytes n = List.replicate (48 - n) (BitVec.ofNat 8 (48 - n)) :=
  if_neg h

theorem paddedBytes_of_aligned (h : f.length % 48 = 0) : paddedBytes f = f :=
  if_pos h

theorem paddedBytes_of_unaligned (h : f.length % 48 ≠ 0) : paddedBytes f = f ++ paddingBytes (f.length % 48) := by
  by_cases h47 : f.length % 48 = 47
  · simp [paddedBytes, paddingBytes, h47]
  · simp [paddedBytes, paddingBytes, h, h47]

/-- A chunk with g copies of a byte below it. -/
theorem intOfBytes_append_replicate (chunk : List Byte) (g : Nat) (c : Byte) :
    intOfBytes (chunk ++ List.replicate g c) = intOfBytes chunk <<< (8 * g) ^^^ rep8 c g := by
  refine block_ext_bytes fun k hk => ?_
  rw [blockByte_intOfBytes _ hk, blockByte_xor, blockByte_shiftLeft _ _ hk, blockByte_rep8 _ _ hk, List.reverse_append,
    List.reverse_replicate, List.getElem?_append, List.length_replicate]
  by_cases hg : k < g
  · simp [hg]
  · simp [hg, blockByte_intOfBytes chunk (show k - g < 48 by omega)]

/-- The sentinel block is the number 49 (R104). -/
theorem intOfBytes_sentinel : intOfBytes (List.replicate 47 0 ++ [49]) = 49 := by
  have hzero : intOfBytes (List.replicate 47 0) = 0 := block_ext_bytes fun k hk => by
    rw [blockByte_intOfBytes _ hk, blockByte_zero, List.reverse_replicate, List.getElem?_replicate]
    split <;> rfl
  rw [intOfBytes_concat, hzero]
  simp

/-- The results of PAD for fewer than 47 bytes: the gap in DOUT, no sentinel. -/
theorem padResults_short {n : Nat} (h : n ≤ 46) (x : State) :
    (padResults n x).dout = x.din <<< (8 * (48 - n)) ^^^ rep8 (BitVec.ofNat 8 (48 - n)) (48 - n) ∧
      (padResults n x).status.extra = false := by
  have hgap : 48 - n ≥ 2 := by omega
  rw [padResults, if_pos hgap]
  exact ⟨rfl, rfl⟩

/-- The results of PAD for 47 bytes: one zero byte in DOUT and the sentinel in DOUT2. -/
theorem padResults_47 (x : State) :
    (padResults 47 x).dout = x.din <<< 8 ∧ (padResults 47 x).dout2 = 49 ∧ (padResults 47 x).status.extra = true :=
  ⟨rfl, rfl, rfl⟩

/-- The blocks of a padded chunk are what PAD leaves: DOUT, and DOUT2 when EXTRA is set. -/
theorem fullBlocks_padded_chunk (hle : chunk.length ≤ 47) {x : State} (hx : x.din = intOfBytes chunk) :
    fullBlocks (chunk ++ paddingBytes chunk.length) = (padResults chunk.length x).dout ::
      (if (padResults chunk.length x).status.extra then [(padResults chunk.length x).dout2] else []) := by
  by_cases h47 : chunk.length = 47
  · obtain ⟨hdout, hdout2, hextra⟩ := padResults_47 x
    have hzero : intOfBytes (chunk ++ [0]) = x.din <<< 8 := by
      rw [intOfBytes_concat, hx]
      simp
    have hsentinel : fullBlocks (List.replicate 47 0 ++ [49]) = [49] := by
      rw [fullBlocks_of_length_eq (by simp), intOfBytes_sentinel]
    rw [h47, paddingBytes_47, ← List.append_assoc, fullBlocks_append (by simp [h47]), hsentinel, hzero, hdout, hdout2,
      hextra, if_pos rfl]
  · obtain ⟨hdout, hextra⟩ := padResults_short (n := chunk.length) (by omega) x
    rw [paddingBytes_of_ne h47, hdout, hextra, hx, ← intOfBytes_append_replicate,
      fullBlocks_of_length_eq (by rw [List.length_append, List.length_replicate]; omega)]
    rfl

/-- The blocks of a padded file (R124): its full blocks, and those of its padded final chunk. -/
theorem fullBlocks_paddedBytes (h : f.length % 48 ≠ 0) :
    fullBlocks (paddedBytes f) = fullBlocks f ++ fullBlocks (finalChunk f ++ paddingBytes (finalChunk f).length) := by
  rw [paddedBytes_of_unaligned h, fullBlocks_append_right, length_finalChunk]

/-- A padded file is block-aligned. -/
theorem length_paddedBytes_mod (f : List Byte) : (paddedBytes f).length % 48 = 0 := by
  by_cases h : f.length % 48 = 0
  · rwa [paddedBytes_of_aligned h]
  · rw [paddedBytes_of_unaligned h, List.length_append]
    by_cases h47 : f.length % 48 = 47
    · rw [h47, paddingBytes_47]
      simp
      omega
    · rw [paddingBytes_of_ne h47, List.length_replicate]
      omega

end Padding

section Unpadding

variable {f : List Byte} {zs : List Block} {last prev : Block}

/-! ### What UNPAD finds (R105) -/

/-- The low bytes of a block are all one byte. -/
theorem lowBytes_eq_rep8_iff {b : Block} {c : Byte} {n : Nat} (hn : n ≤ 48) :
    lowBytes b n = rep8 c n ↔ ∀ k < n, blockByte b k = c := by
  constructor
  · intro h k hk
    have hbyte := congrArg (blockByte · k) h
    simpa only [blockByte_lowBytes _ _ (show k < 48 by omega), blockByte_rep8 _ _ (show k < 48 by omega), if_pos hk]
      using hbyte
  · intro h
    refine block_ext_bytes fun k hk => ?_
    rw [blockByte_lowBytes _ _ hk, blockByte_rep8 _ _ hk]
    by_cases hkn : k < n
    · rw [if_pos hkn, if_pos hkn, h k hkn]
    · rw [if_neg hkn, if_neg hkn]

/-- The last bytes of a list are all one byte. -/
theorem drop_eq_replicate_iff {l : List Byte} {c : Byte} {n : Nat} :
    l.drop (l.length - n) = List.replicate n c ↔ ∀ k < n, l.reverse[k]? = some c := by
  rw [← List.reverse_inj, ← List.take_reverse, List.reverse_replicate]
  constructor
  · intro h k hk
    have hget := congrArg (·[k]?) h
    simpa [List.getElem?_take, hk] using hget
  · intro h
    refine List.ext_getElem? fun k => ?_
    by_cases hk : k < n
    · simp [hk, h k hk]
    · simp [hk]

/-- The end of a serialised block sequence, read backwards, is its last block. -/
theorem bytesOfBlocks_concat_reverse (zs : List Block) (y : Block) :
    (bytesOfBlocks (zs ++ [y])).reverse = (bytesOfBlock y).reverse ++ (bytesOfBlocks zs).reverse := by
  rw [bytesOfBlocks_append, bytesOfBlocks_singleton, List.reverse_append]

theorem bytesOfBlocks_concat_reverse_getElem? (zs : List Block) (y : Block) {k : Nat} (hk : k < 48) :
    (bytesOfBlocks (zs ++ [y])).reverse[k]? = some (blockByte y k) := by
  rw [bytesOfBlocks_concat_reverse, List.getElem?_append_left (by simpa [length_bytesOfBlock] using hk),
    bytesOfBlock_reverse_getElem? y hk]

theorem length_bytesOfBlocks_concat (zs : List Block) (y : Block) :
    (bytesOfBlocks (zs ++ [y])).length = 48 * zs.length + 48 := by
  rw [length_bytesOfBlocks, List.length_append, List.length_singleton, Nat.mul_add]

/-- The last byte of serialised blocks is the last block's low byte. -/
theorem bytesOfBlocks_concat_getLast? (zs : List Block) (y : Block) :
    (bytesOfBlocks (zs ++ [y])).getLast? = some (blockByte y 0) := by
  rw [← List.head?_reverse, List.head?_eq_getElem?, bytesOfBlocks_concat_reverse_getElem? zs y (by decide)]

/-- The last bytes of serialised blocks are all one byte when the last block's low bytes are. -/
theorem bytesOfBlocks_concat_drop_iff (zs : List Block) (y : Block) (c : Byte) {n : Nat} (hn : n ≤ 48) :
    (bytesOfBlocks (zs ++ [y])).drop ((bytesOfBlocks (zs ++ [y])).length - n) = List.replicate n c ↔
      lowBytes y n = rep8 c n := by
  rw [drop_eq_replicate_iff, lowBytes_eq_rep8_iff hn]
  exact forall₂_congr fun k hk => by rw [bytesOfBlocks_concat_reverse_getElem? zs y (by omega), Option.some_inj]

/-- What UNPAD is told of the block before the last of a sequence: that block with HASPREV, or that there is none. -/
def BlockBefore (zs : List Block) (hasPrev : Bool) (prev : Block) : Prop :=
  (hasPrev = true ∧ zs.getLast? = some prev) ∨ (hasPrev = false ∧ zs = [])

/-- The place of the byte before a sentinel block: UNPAD's look at the block before (R105). -/
theorem byteBefore_eq_zero_iff {hasPrev : Bool} (h : BlockBefore zs hasPrev prev) (last : Block) :
    (96 ≤ (bytesOfBlocks (zs ++ [last])).length ∧
        (bytesOfBlocks (zs ++ [last]))[(bytesOfBlocks (zs ++ [last])).length - 49]? = some 0) ↔
      (hasPrev = true ∧ blockByte prev 0 = 0) := by
  have hlen := length_bytesOfBlocks_concat zs last
  rcases h with ⟨rfl, hprev⟩ | ⟨rfl, rfl⟩
  · obtain ⟨ws, rfl⟩ := List.getLast?_eq_some_iff.mp hprev
    have hlong : 96 ≤ (bytesOfBlocks (ws ++ [prev] ++ [last])).length := by
      rw [hlen, List.length_append, List.length_singleton]
      omega
    have hbyte : (bytesOfBlocks (ws ++ [prev] ++ [last]))[(bytesOfBlocks (ws ++ [prev] ++ [last])).length - 49]? =
        some (blockByte prev 0) := by
      rw [show ∀ n, n - 49 = n - 1 - 48 by omega, ← List.getElem?_reverse (by omega), bytesOfBlocks_concat_reverse,
        List.getElem?_append_right (by simp [length_bytesOfBlock]), List.length_reverse, length_bytesOfBlock]
      exact bytesOfBlocks_concat_reverse_getElem? ws prev (by decide)
    simp only [hlong, hbyte, true_and, Option.some_inj]
  · simp only [hlen, List.length_nil, Bool.false_eq_true, false_and, iff_false]
    omega

/-- What UNPAD reports of the last block and the one before it says what unpadding takes away from the serialised blocks
(R105, R125). -/
theorem unpaddedBytes_concat {hasPrev : Bool} (h : BlockBefore zs hasPrev prev) (last : Block) :
    unpaddedBytes (bytesOfBlocks (zs ++ [last])) =
      let r := unpadReport hasPrev last prev
      let out := bytesOfBlocks (if r.drop then zs else zs ++ [last])
      out.take (out.length - r.strip.toNat) := by
  have hlen := length_bytesOfBlocks_concat zs last
  have hc : last.extractLsb' 0 8 = blockByte last 0 := rfl
  have hp : prev.extractLsb' 0 8 = blockByte prev 0 := rfl
  have hfill := and_congr_right fun _ : 2 ≤ (blockByte last 0).toNat =>
    and_congr_right fun h48 : (blockByte last 0).toNat ≤ 48 =>
      bytesOfBlocks_concat_drop_iff zs last (blockByte last 0) h48
  simp only [unpaddedBytes, unpadReport, bytesOfBlocks_concat_getLast?, Option.getD_some, hc, hp,
    byteBefore_eq_zero_iff h, hfill]
  split
  · rw [if_pos rfl, hlen, length_bytesOfBlocks, bytesOfBlocks_append]
    exact List.take_append_of_le_length (by rw [length_bytesOfBlocks]; omega)
  · split
    · next h2 =>
      have hstrip : ((blockByte last 0).setWidth 6).toNat = (blockByte last 0).toNat := by
        rw [BitVec.toNat_setWidth]
        omega
      simp [hstrip]
    · simp

/-! ### Unpadding after padding (R110) -/

/-- A file's padding of one byte repeated is taken away. -/
theorem unpaddedBytes_append_replicate (f : List Byte) {g : Nat} (h2 : 2 ≤ g) (h47 : g ≤ 47) :
    unpaddedBytes (f ++ List.replicate g (BitVec.ofNat 8 g)) = f := by
  have hnat : (BitVec.ofNat 8 g).toNat = g := by
    rw [BitVec.toNat_ofNat]
    omega
  have hlast : (f ++ List.replicate g (BitVec.ofNat 8 g)).getLast? = some (BitVec.ofNat 8 g) := by
    rw [List.getLast?_append, List.getLast?_replicate, if_neg (by omega)]
    rfl
  have hne : BitVec.ofNat 8 g ≠ 49 := fun h => by
    have := congrArg BitVec.toNat h
    rw [hnat] at this
    exact absurd this (by change g ≠ 49; omega)
  have hlen : (f ++ List.replicate g (BitVec.ofNat 8 g)).length - g = f.length := by simp
  simp only [unpaddedBytes, hlast, Option.getD_some, hnat, hlen, List.drop_left, List.take_left]
  rw [if_neg fun h => hne h.1, if_pos ⟨h2, by omega, trivial⟩]

/-- A file's zero byte and sentinel block are taken away, where the padded file has two blocks. -/
theorem unpaddedBytes_append_sentinel (f : List Byte) (h : 47 ≤ f.length) :
    unpaddedBytes (f ++ ([0] ++ (List.replicate 47 0 ++ [49]))) = f := by
  have hlen : (f ++ ([0] ++ (List.replicate 47 0 ++ [49])) : List Byte).length = f.length + 49 := by simp
  have hlast : (f ++ ([0] ++ (List.replicate 47 0 ++ [49])) : List Byte).getLast? = some 49 := by simp
  have hbefore : (f ++ ([0] ++ (List.replicate 47 0 ++ [49])) : List Byte)[f.length]? = some 0 := by simp
  simp only [unpaddedBytes, hlast, Option.getD_some, hlen, Nat.add_sub_cancel, hbefore, List.take_left]
  exact if_pos ⟨trivial, by omega, trivial⟩

/-- Unpadding gives an unaligned file back from its padded bytes. -/
theorem unpaddedBytes_paddedBytes (h : f.length % 48 ≠ 0) : unpaddedBytes (paddedBytes f) = f := by
  rw [paddedBytes_of_unaligned h]
  by_cases h47 : f.length % 48 = 47
  · rw [h47, paddingBytes_47]
    exact unpaddedBytes_append_sentinel f (by omega)
  · rw [paddingBytes_of_ne h47]
    exact unpaddedBytes_append_replicate f (by omega) (by omega)

end Unpadding

end Sys2Proof.Machine
end

