-- ==== Sys2Proof/Proofs/Procedures.lean ====
section
/-!
PROOFS. The host's procedures over an idle engine (spec/45_host_protocol.md R123 to R129): what each EXEC of a procedure
leaves, and from it padding a file, unpadding a block sequence and the digest of a block sequence.
-/

namespace Sys2Proof.Machine

section Frame

variable {s t u : State} {i : Instr} {ksel : KeySel}

/-- What every command of a procedure leaves as it was: an idle engine, its key and the parameters (R19 to R25). -/
structure ProcedureFrame (s t : State) : Prop where
  idle : Idle t
  key : t.key = s.key
  keyLoaded : t.keyLoaded = s.keyLoaded
  params : t.params = s.params

theorem ProcedureFrame.refl (h : Idle s) : ProcedureFrame s s :=
  ⟨h, rfl, rfl, rfl⟩

theorem ProcedureFrame.trans (h : ProcedureFrame s t) (h' : ProcedureFrame t u) : ProcedureFrame s u where
  idle := h'.idle
  key := h'.key.trans h.key
  keyLoaded := h'.keyLoaded.trans h.keyLoaded
  params := h'.params.trans h.params

theorem ProcedureFrame.keyAvailable (h : ProcedureFrame s t) (hk : KeyAvailable ksel s) : KeyAvailable ksel t :=
  fun hr => h.keyLoaded.trans (hk hr)

theorem StreamFrame.procedureFrame (h : StreamFrame s t) : ProcedureFrame s t :=
  ⟨h.idle, h.key, h.keyLoaded, h.params⟩

/-- EXEC of a command that writes its results only and completes without an error. -/
theorem execCommand_complete (hi : i.WellFormed) (hs : Idle s) (h : exec i (accept (encode i) s) = .next (complete u))
    (hu : ResultsOnly (accept (encode i) s) u) : execCommand i s = .ok (complete u) ∧ ProcedureFrame s (complete u) :=
  ⟨execCommand_eq_ok hi hs.not_busy h hu.err, ⟨rfl, rfl⟩, hu.key, hu.keyLoaded, hu.params⟩

/-! ### Registers the procedures read (R57) -/

@[simp] theorem rd384_dout (s : State) : rd384 .dout s = s.dout := rd384_eq fun _ => rfl

@[simp] theorem rd384_dout2 (s : State) : rd384 .dout2 s = s.dout2 := rd384_eq fun _ => rfl

@[simp] theorem rd384_digest (s : State) : rd384 .digest s = s.digest := rd384_eq fun _ => rfl

@[simp] theorem readReg_status_extra (s : State) : (readReg .status s)[5] = s.status.extra := by
  obtain ⟨-, -, -, -, -, hextra, -⟩ := statusWord_flags s
  exact hextra

@[simp] theorem readReg_status_drop (s : State) : (readReg .status s)[6] = s.status.drop := by
  obtain ⟨-, -, -, -, -, -, hdrop, -⟩ := statusWord_flags s
  exact hdrop

@[simp] theorem readReg_status_strip (s : State) : (readReg .status s).extractLsb' 12 6 = s.status.strip :=
  statusWord_strip s

/-- WRKEY on an idle engine leaves it idle, with the key in the registers (R25, R57). -/
theorem idle_loadKey (hs : Idle s) (k : Key) : Idle (loadKey k s) :=
  ⟨hs.not_busy, hs.nothing_pending⟩

theorem keyAvailable_loadKey (k : Key) (s : State) : KeyAvailable ksel (loadKey k s) := fun _ => rfl

end Frame

section Procedures

variable {s : State} {ksel : KeySel}

/-! ### The commands of the procedures -/

theorem execCommand_chainInit (hs : Idle s) : ∃ t, execCommand .chainInit s = .ok t ∧ ProcedureFrame s t ∧
    t.chain = Config.chainIV ∧ t.digest = s.digest := by
  obtain ⟨hok, hframe⟩ := execCommand_complete (i := .chainInit) trivial hs rfl (by constructor <;> rfl)
  exact ⟨_, hok, hframe, rfl, rfl⟩

theorem execCommand_digestClear (hs : Idle s) : ∃ t, execCommand .digestClear s = .ok t ∧ ProcedureFrame s t ∧
    t.digest = 0 := by
  obtain ⟨hok, hframe⟩ := execCommand_complete (i := .digestClear) trivial hs rfl (by constructor <;> rfl)
  exact ⟨_, hok, hframe, rfl⟩

/-- WR384 DIN and PAD leave the blocks of the padded chunk in DOUT and, with EXTRA, DOUT2 (R104, R124). -/
theorem execCommand_pad {chunk : List Byte} (hpos : 1 ≤ chunk.length) (hle : chunk.length ≤ 47) (hs : Idle s) :
    ∃ t, execCommand (.pad (BitVec.ofNat 8 chunk.length)) (wr384 .din (intOfBytes chunk) s) = .ok t ∧
      ProcedureFrame s t ∧
      fullBlocks (chunk ++ paddingBytes chunk.length) = t.dout :: if t.status.extra then [t.dout2] else [] := by
  have hn : (BitVec.ofNat 8 chunk.length).toNat = chunk.length := by
    rw [BitVec.toNat_ofNat]
    omega
  have hi : (Instr.pad (BitVec.ofNat 8 chunk.length)).WellFormed := by
    change _ < _
    rw [BitVec.lt_def, hn]
    exact lt_of_le_of_lt hle (by decide)
  rw [wr384_din hs.not_busy]
  obtain ⟨hok, hframe⟩ := execCommand_complete (s := { s with din := intOfBytes chunk }) hi
    ⟨hs.not_busy, hs.nothing_pending⟩ (if_pos (by rw [hn]; exact ⟨hpos, hle⟩)) (padResults_resultsOnly _ _)
  refine ⟨_, hok, ⟨hframe.idle, hframe.key, hframe.keyLoaded, hframe.params⟩, ?_⟩
  rw [hn]
  exact fullBlocks_padded_chunk hle rfl

/-- The engine with the last block of a sequence in DIN and the one before it in DIN2 (R125). -/
def unpadInput (last prev : Block) (s : State) : State :=
  { s with din := last, din2 := prev }

/-- UNPAD leaves its report on the two blocks in STATUS (R105). -/
theorem execCommand_unpad (hasPrev : Bool) (last prev : Block) (hs : Idle s) :
    ∃ t, execCommand (.unpad hasPrev) (unpadInput last prev s) = .ok t ∧ ProcedureFrame s t ∧
      t.status.strip = (unpadReport hasPrev last prev).strip ∧ t.status.drop = (unpadReport hasPrev last prev).drop := by
  obtain ⟨hok, hframe⟩ := execCommand_complete (s := unpadInput last prev s) (i := .unpad hasPrev) trivial
    ⟨hs.not_busy, hs.nothing_pending⟩ rfl (by constructor <;> rfl)
  exact ⟨_, hok, ⟨hframe.idle, hframe.key, hframe.keyLoaded, hframe.params⟩, rfl, rfl⟩

/-! ### Padding a file and unpadding a block sequence (R124, R125) -/

/-- `padseq` gives the blocks of the padded file. -/
theorem padSeq_eq_ok (f : List Byte) (hs : Idle s) :
    ∃ t, padSeq f s = .ok (fullBlocks (paddedBytes f), t) ∧ ProcedureFrame s t := by
  by_cases h : f.length % 48 = 0
  · refine ⟨s, ?_, .refl hs⟩
    rw [paddedBytes_of_aligned h, padSeq, length_finalChunk, if_pos h]
    rfl
  · have hchunk := length_finalChunk f
    obtain ⟨t, hpad, hframe, hblocks⟩ := execCommand_pad (chunk := finalChunk f) (by omega) (by omega) hs
    refine ⟨t, ?_, hframe⟩
    rw [fullBlocks_paddedBytes h, hblocks]
    simp [padSeq, hpad, hchunk ▸ h, bind, Except.bind, pure, Except.pure]

/-- Every sequence has a block before its end or is empty; where there is none, DIN2 holds some block `d`. -/
theorem exists_blockBefore (zs : List Block) (d : Block) :
    ∃ hasPrev prev, BlockBefore zs hasPrev prev ∧ (hasPrev = false → prev = d) := by
  rcases zs.eq_nil_or_concat' with rfl | ⟨ws, prev, rfl⟩
  · exact ⟨false, d, .inr ⟨rfl, rfl⟩, fun _ => rfl⟩
  · exact ⟨true, prev, .inl ⟨rfl, List.getLast?_concat⟩, fun h => nomatch h⟩

/-- `unpadout` of a sequence that is not empty, from what its UNPAD leaves in STATUS. -/
theorem unpadOut_concat {zs : List Block} {last prev : Block} {hasPrev : Bool} {t : State} (hs : Idle s)
    (h : BlockBefore zs hasPrev prev) (hd : hasPrev = false → prev = s.din2)
    (hx : execCommand (.unpad hasPrev) (unpadInput last prev s) = .ok t) :
    unpadOut (zs ++ [last]) s =
      let out := bytesOfBlocks (if t.status.drop then zs else zs ++ [last])
      .ok (out.take (out.length - t.status.strip.toNat), t) := by
  have hdin : wr384 .din last s = { s with din := last } := wr384_din hs.not_busy last
  rcases h with ⟨rfl, hprev⟩ | ⟨rfl, rfl⟩
  · obtain ⟨ws, rfl⟩ := List.getLast?_eq_some_iff.mp hprev
    have hdin2 : wr384 .din2 prev { s with din := last } = unpadInput last prev s :=
      wr384_din2 (s := { s with din := last }) hs.not_busy prev
    simp [unpadOut, hdin, hdin2, hx, bind, Except.bind, pure, Except.pure]
  · have hinput : unpadInput last prev s = { s with din := last } := by rw [hd rfl, unpadInput]
    rw [hinput] at hx
    simp [unpadOut, hdin, hx, bind, Except.bind, pure, Except.pure]

/-- `unpadout` gives what unpadding leaves of the serialised blocks. -/
theorem unpadOut_eq_ok (ys : List Block) (hs : Idle s) :
    ∃ t, unpadOut ys s = .ok (unpaddedBytes (bytesOfBlocks ys), t) ∧ ProcedureFrame s t := by
  rcases ys.eq_nil_or_concat' with rfl | ⟨zs, last, rfl⟩
  · exact ⟨s, rfl, .refl hs⟩
  · obtain ⟨hasPrev, prev, hbefore, hd⟩ := exists_blockBefore zs s.din2
    obtain ⟨t, hx, hframe, hstrip, hdrop⟩ := execCommand_unpad hasPrev last prev hs
    refine ⟨t, ?_, hframe⟩
    rw [unpadOut_concat hs hbefore hd hx, unpaddedBytes_concat hbefore, hstrip, hdrop]

/-! ### The digest of a block sequence (R106, R109) -/

/-- DIGEST_CLEAR, CHAIN_INIT and the folding MSTEPs leave the digest in DIGEST. -/
theorem digestCommands_eq_ok (m : Mode) (alg : Alg) (xs : List Block) (hs : Idle s) (hk : KeyAvailable ksel s) :
    ∃ s₁ s₂ t ys, execCommand .digestClear s = .ok s₁ ∧ execCommand .chainInit s₁ = .ok s₂ ∧
      runStream (mstepInstr m .enc alg true ksel) xs s₂ = .ok (ys, t) ∧ ProcedureFrame s t ∧
      t.digest = digestOf s.params alg m (effKey ksel alg s) xs := by
  obtain ⟨s₁, hclear, hframe₁, hzero⟩ := execCommand_digestClear hs
  obtain ⟨s₂, hinit, hframe₂, hchain, hkept⟩ := execCommand_chainInit hframe₁.idle
  have hframe := hframe₁.trans hframe₂
  obtain ⟨t, hrun, hstream, -, hdigest⟩ := runStream_mstep m .enc alg true xs hframe.idle (hframe.keyAvailable hk)
  refine ⟨s₁, s₂, t, _, hclear, hinit, hrun, hframe.trans hstream.procedureFrame, ?_⟩
  rw [hdigest, if_pos rfl, hkept, hzero, hchain, hframe.params, effKey_congr hframe.key]
  exact BitVec.zero_xor

/-- The same for a file, after `padseq` (R129): the digest of its padded blocks. -/
theorem digestProcedure_eq_ok (m : Mode) (alg : Alg) (f : List Byte) (hs : Idle s) (hk : KeyAvailable ksel s) :
    ∃ s₀ s₁ s₂ t ys, padSeq f s = .ok (fullBlocks (paddedBytes f), s₀) ∧ execCommand .digestClear s₀ = .ok s₁ ∧
      execCommand .chainInit s₁ = .ok s₂ ∧
      runStream (mstepInstr m .enc alg true ksel) (fullBlocks (paddedBytes f)) s₂ = .ok (ys, t) ∧
      ProcedureFrame s t ∧ t.digest = digestOf s.params alg m (effKey ksel alg s) (fullBlocks (paddedBytes f)) := by
  obtain ⟨s₀, hpad, hframe⟩ := padSeq_eq_ok f hs
  obtain ⟨s₁, s₂, t, ys, hclear, hinit, hrun, hframe', hdigest⟩ :=
    digestCommands_eq_ok m alg (fullBlocks (paddedBytes f)) hframe.idle (hframe.keyAvailable hk)
  rw [hframe.params, effKey_congr hframe.key] at hdigest
  exact ⟨s₀, s₁, s₂, t, ys, hpad, hclear, hinit, hrun, hframe.trans hframe', hdigest⟩

end Procedures

end Sys2Proof.Machine
end

