-- ==== Sys2Proof/Proofs/FileActions.lean ====
section
/-!
PROOFS. The actions on files (spec/45_host_protocol.md R127 to R129): encrypt and decrypt are the sequence functions on
the padded file's blocks (O54), and hash is the digest of the padded file's blocks (O48).
-/

namespace Sys2Proof.Machine

section Actions

variable {s : State}

/-! ### Encrypt and decrypt (R127, R128) -/

theorem encryptFile_eq_ok (alg : Alg) (m : Mode) (k : Key) (f : List Byte) (hs : Idle s) :
    ∃ t, encryptFile alg m k f s =
      .ok (bytesOfBlocks (modeSequence s.params alg m .enc k (fullBlocks (paddedBytes f)) Config.chainIV).1, t) := by
  obtain ⟨s₁, hpad, hframe₁⟩ := padSeq_eq_ok f (idle_loadKey hs k)
  obtain ⟨s₂, hinit, hframe₂, hchain, -⟩ := execCommand_chainInit hframe₁.idle
  have hframe := hframe₁.trans hframe₂
  have hkey : effKey .registers alg s₂ = k := hframe.key
  have hparams : s₂.params = s.params := hframe.params
  obtain ⟨t, hrun, -⟩ := runStream_mstep m .enc alg false (fullBlocks (paddedBytes f)) hframe.idle
    (hframe.keyAvailable (keyAvailable_loadKey k s))
  rw [hkey, hparams, hchain] at hrun
  refine ⟨t, ?_⟩
  simp only [encryptFile, wrKey_eq_loadKey hs.not_busy, hpad, hinit, hrun, bind, Except.bind, pure, Except.pure]

theorem decryptFile_eq_ok (alg : Alg) (m : Mode) (k : Key) {g : List Byte} (hg : g.length % 48 = 0) (hs : Idle s) :
    ∃ t, decryptFile alg m k g s =
      .ok (unpaddedBytes (bytesOfBlocks (modeSequence s.params alg m .dec k (fullBlocks g) Config.chainIV).1), t) := by
  obtain ⟨s₁, hinit, hframe, hchain, -⟩ := execCommand_chainInit (idle_loadKey hs k)
  have hkey : effKey .registers alg s₁ = k := hframe.key
  have hparams : s₁.params = s.params := hframe.params
  obtain ⟨s₂, hrun, hstream, -⟩ := runStream_mstep m .dec alg false (fullBlocks g) hframe.idle
    (hframe.keyAvailable (keyAvailable_loadKey k s))
  rw [hkey, hparams, hchain] at hrun
  obtain ⟨t, hunpad, -⟩ := unpadOut_eq_ok
    (modeSequence s.params alg m .dec k (fullBlocks g) Config.chainIV).1 hstream.idle
  refine ⟨t, ?_⟩
  simp [decryptFile, hg, wrKey_eq_loadKey hs.not_busy, hinit, hrun, hunpad, bind, Except.bind]

/-- Decrypt of serialised blocks is of these blocks. -/
theorem decryptFile_bytesOfBlocks (alg : Alg) (m : Mode) (k : Key) (ys : List Block) (hs : Idle s) :
    ∃ t, decryptFile alg m k (bytesOfBlocks ys) s =
      .ok (unpaddedBytes (bytesOfBlocks (modeSequence s.params alg m .dec k ys Config.chainIV).1), t) := by
  simpa only [fullBlocks_bytesOfBlocks] using decryptFile_eq_ok alg m k (length_bytesOfBlocks_mod ys) hs

/-- The blocks of a padded file, encrypted and then decrypted, are the padded bytes again (R102). -/
theorem bytesOfBlocks_dec_enc (P : Params) (alg : Alg) (m : Mode) (k : Key) (f : List Byte) (c : Block) :
    bytesOfBlocks (modeSequence P alg m .dec k
      (modeSequence P alg m .enc k (fullBlocks (paddedBytes f)) c).1 c).1 = paddedBytes f := by
  rw [modeSequence_dec_enc, bytesOfBlocks_fullBlocks (length_paddedBytes_mod f)]

/-! ### Hash (R129) -/

/-- The key of a digest (R114, R129): the caller's, or the algorithm's default key. -/
def digestKey (key : Option Key) (alg : Alg) : Key :=
  match key, alg with
  | some k, _ => k
  | none, .a => Config.defaultKeyA
  | none, .b => Config.defaultKeyB

theorem effKey_builtIn (alg : Alg) (s : State) : effKey .builtIn alg s = digestKey none alg := by
  cases alg <;> rfl

/-- The procedure leaves the digest of the padded file's blocks in DIGEST, under the caller's key or the default key. -/
theorem digestFile_eq_ok (alg : Alg) (m : Mode) (key : Option Key) (f : List Byte) (hs : Idle s) :
    ∃ t, digestFile alg m key f s = .ok t ∧ Idle t ∧ t.params = s.params ∧
      t.digest = digestOf s.params alg m (digestKey key alg) (fullBlocks (paddedBytes f)) := by
  cases key with
  | some k =>
    obtain ⟨s₀, s₁, s₂, t, ys, hpad, hclear, hinit, hrun, hframe, hdigest⟩ :=
      digestProcedure_eq_ok m alg f (idle_loadKey hs k) (keyAvailable_loadKey (ksel := .registers) k s)
    refine ⟨t, ?_, hframe.idle, hframe.params, hdigest⟩
    simp only [digestFile, wrKey_eq_loadKey hs.not_busy, hpad, hclear, hinit, hrun, bind, Except.bind, pure, Except.pure]
  | none =>
    obtain ⟨s₀, s₁, s₂, t, ys, hpad, hclear, hinit, hrun, hframe, hdigest⟩ :=
      digestProcedure_eq_ok (ksel := .builtIn) m alg f hs (fun h => nomatch h)
    refine ⟨t, ?_, hframe.idle, hframe.params, by rw [hdigest, effKey_builtIn]⟩
    simp only [digestFile, hpad, hclear, hinit, hrun, bind, Except.bind, pure, Except.pure]

theorem hashFile_eq_ok (alg : Alg) (m : Mode) (key : Option Key) (f : List Byte) (hs : Idle s) :
    ∃ t, hashFile alg m key f s =
        .ok (bytesOfBlock (digestOf s.params alg m (digestKey key alg) (fullBlocks (paddedBytes f))), t) ∧
      t.digest = digestOf s.params alg m (digestKey key alg) (fullBlocks (paddedBytes f)) ∧ Idle t := by
  obtain ⟨t, hrun, hidle, -, hdigest⟩ := digestFile_eq_ok alg m key f hs
  refine ⟨t, ?_, hdigest, hidle⟩
  simp only [hashFile, hrun, rd384_digest, hdigest, bind, Except.bind, pure, Except.pure]

end Actions

/-- Settles O54: encrypt and decrypt are the sequence functions between padding and unpadding, each of which undoes its
opposite. -/
theorem fileRoundTrip : Obligations.FileRoundTrip := by
  refine ⟨fun alg m k f s hs => ⟨encryptFile_eq_ok alg m k f hs, fun hf => decryptFile_eq_ok alg m k hf hs⟩, ?_⟩
  intro alg m k f s s' hs hs' hparams hf
  obtain ⟨t, henc⟩ := encryptFile_eq_ok alg m k f hs
  obtain ⟨t', hdec⟩ := decryptFile_bytesOfBlocks alg m k
    (modeSequence s.params alg m .enc k (fullBlocks (paddedBytes f)) Config.chainIV).1 hs'
  rw [hparams, bytesOfBlocks_dec_enc, unpaddedBytes_paddedBytes hf] at hdec
  exact ⟨_, t, t', henc, length_bytesOfBlocks_mod _, hdec⟩

/-- Settles O48: the commands fold the encrypt sequence's output into DIGEST, and hash runs them on the padded file. -/
theorem digestComputedByCommands : Obligations.DigestComputedByCommands := by
  constructor
  · intro m alg ksel xs s hs hk
    obtain ⟨s₁, s₂, t, ys, hclear, hinit, hrun, -, hdigest⟩ := digestCommands_eq_ok m alg xs hs hk
    exact ⟨s₁, s₂, t, ys, hclear, hinit, hrun, (rd384_digest t).trans hdigest⟩
  · intro m alg key f s hs
    have hhash := hashFile_eq_ok alg m key f hs
    cases key <;> cases alg <;> exact hhash

end Sys2Proof.Machine
end

