-- ==== Sys2Proof/Proofs/CommandResults.lean ====
section
/-!
PROOFS. What STATUS holds after a completion (spec/44_command_control.md R113, R116): the decoder and the meanings of the
commands make R113's checks, so that ERRCODE is what `validate` gives (O8), and a result field is set by its own command
only, which every step keeps (O24).
-/

namespace Sys2Proof

section RowFields

variable {w : Word} {r : Row}

/-! ### The fields of a word that matches a row (R51, R113) -/

theorem opField_of_encodes (hr : r ∈ rows) (h : r.encodes w = true) : opField w = opField r.pattern := by
  have hop : opField (w &&& r.mask) = opField w &&& opField r.mask := BitVec.extractLsb'_and
  rw [← Row.encodes_iff.mp h, hop, (opField_of_row hr).1, BitVec.and_allOnes]

end RowFields

end Sys2Proof

namespace Sys2Proof.Machine

section Checks

variable {w : Word} {s t : State} {i : Instr} {r : Row}

/-! ### The checks of R113 in the decoder and in the commands -/

/-- The error of a decoded command, by the checks of R113 that the decoder does not make: SLEN of a PAD, and the key of
a PERM or an MSTEP. -/
def commandCheck (i : Instr) (s : State) : ErrCode :=
  match i with
  | .pad slen => if !(1 ≤ slen && slen ≤ 47) then .badSlen else .none
  | .permaE k | .permaD k | .permbE k | .permbD k
  | .mstepEcbE _ _ k | .mstepEcbD _ _ k | .mstepCbcE _ _ k | .mstepCbcD _ _ k
  | .mstepCfbE _ _ k | .mstepCfbD _ _ k | .mstepOfbE _ _ k | .mstepOfbD _ _ k =>
    if keyMissing k s then .keyMissing else .none
  | .nop | .chainInit | .digestClear | .dfold | .unpad _ | .verify => .none

theorem matchesRow_iff : matchesRow w = true ↔ ∃ r ∈ rows, r.encodes w = true :=
  List.any_eq_true

/-- A word that does not decode fails the first check or the second. -/
theorem validate_of_decode_error {e : DecodeError} (h : decodeWord w = .error e) (keyLoaded : Bool) :
    validate w keyLoaded = decodeErrorCode e := by
  unfold decodeWord at h
  split at h
  · next hop =>
    cases h
    exact if_pos hop
  · next hop =>
    split at h
    · cases h
    · next hf =>
      cases h
      have hrow : ¬ matchesRow w = true := fun hm => by
        obtain ⟨r, hr, he⟩ := matchesRow_iff.mp hm
        exact List.find?_eq_none.mp hf r hr he
      rw [validate, if_neg hop, if_pos (by simpa using hrow)]
      rfl

/-- A word that matches a row passes the first two checks; the row's OP says which of the others apply. -/
theorem validate_of_row (hr : r ∈ rows) (h : r.encodes w = true) (keyLoaded : Bool) :
    validate w keyLoaded =
      if opField r.pattern == 0x06 && !(1 ≤ slenField w && slenField w ≤ 47) then .badSlen
      else if (opField r.pattern == 0x01 || opField r.pattern == 0x02) && !w.getLsbD 13 && !keyLoaded then .keyMissing
      else .none := by
  have hop : ¬ opField w ≥ 0x09 := BitVec.not_le.mpr (opField_lt_of_encodes hr h)
  have hrow : matchesRow w = true := matchesRow_iff.mpr ⟨r, hr, h⟩
  rw [validate, if_neg hop, if_neg (by simp [hrow]), usesKey, opField_of_encodes hr h]

/-- The last check reads KSEL off the word. -/
theorem keyMissing_kselField (w : Word) (s : State) :
    keyMissing (kselField w) s = (!w.getLsbD 13 && !s.keyLoaded) := by
  unfold kselField
  cases w.getLsbD 13 <;> rfl

/-- A word that decodes is checked as its command is. -/
theorem validate_of_decode_ok (h : decodeWord w = .ok i) (s : State) :
    validate w s.keyLoaded = commandCheck i s := by
  obtain ⟨r, hr, he, rfl⟩ := exists_row_of_decodeWord h
  rw [validate_of_row hr he]
  simp only [rows, List.mem_cons, List.not_mem_nil, or_false] at hr
  rcases hr with rfl | rfl | rfl | rfl | rfl | rfl | rfl | rfl | rfl | rfl | rfl | rfl | rfl | rfl | rfl | rfl | rfl |
    rfl | rfl <;>
  simp [opField, commandCheck, keyMissing_kselField]

/-- A completion in the state s whose checks give the code e: the error entry, or with no error the results and DONE
(R113, R115, R138). -/
def CompletesWith (e : ErrCode) (s : State) (o : Host.Outcome State Fault Refusal) : Prop :=
  (e ≠ .none ∧ o = .next (commandError e s)) ∨ (e = .none ∧ ∃ u, ResultsOnly s u ∧ o = .next (complete u))

theorem withKey_completesWith {ksel : KeySel} {alg : Alg} {results : Key → State}
    (hr : ∀ k, ResultsOnly s (results k)) :
    CompletesWith (if keyMissing ksel s then .keyMissing else .none) s (withKey ksel alg s results) := by
  cases hk : keyMissing ksel s with
  | true => exact .inl ⟨by simp, by simp [withKey, hk]⟩
  | false => exact .inr ⟨by simp, _, hr _, withKey_of_key hk⟩

/-- PAD's check of SLEN, as `validate` words it and as PAD makes it (R104). -/
theorem slenCheck_eq_decide (slen : Byte) :
    (1 ≤ slen && slen ≤ 47) = decide (1 ≤ slen.toNat ∧ slen.toNat ≤ 47) :=
  (Bool.decide_and _ _).symm

/-- Each command makes its own check and no other. -/
theorem exec_completesWith (i : Instr) (s : State) : CompletesWith (commandCheck i s) s (exec i s) := by
  cases i with
  | permaE | permaD | permbE | permbD =>
    simp only [exec, execPermaE, execPermaD, execPermbE, execPermbD]
    exact withKey_completesWith fun _ => by constructor <;> rfl
  | mstepEcbE | mstepEcbD | mstepCbcE | mstepCbcD | mstepCfbE | mstepCfbD | mstepOfbE | mstepOfbD =>
    simp only [exec, execMstepEcbE, execMstepEcbD, execMstepCbcE, execMstepCbcD, execMstepCfbE, execMstepCfbD,
      execMstepOfbE, execMstepOfbD]
    exact withKey_completesWith fun _ => by constructor <;> rfl
  | pad slen =>
    by_cases h : 1 ≤ slen.toNat ∧ slen.toNat ≤ 47
    · have hgood : commandCheck (.pad slen) s = .none := by
        rw [commandCheck, slenCheck_eq_decide, decide_eq_true h]
        rfl
      exact .inr ⟨hgood, _, padResults_resultsOnly slen.toNat s, if_pos h⟩
    · have hbad : commandCheck (.pad slen) s = .badSlen := by
        rw [commandCheck, slenCheck_eq_decide, decide_eq_false h]
        rfl
      exact hbad ▸ .inl ⟨by decide, if_neg h⟩
  | nop | chainInit | digestClear | dfold | unpad | verify => exact .inr ⟨rfl, _, by constructor <;> rfl, rfl⟩

/-- So the completion of a word is decided by `validate` (R113). -/
theorem completeWord_completesWith (w : Word) (s : State) :
    CompletesWith (validate w s.keyLoaded) s (completeWord w s) := by
  cases hd : decodeWord w with
  | ok i =>
    rw [validate_of_decode_ok hd, completeWord_ok hd]
    exact exec_completesWith i s
  | error e =>
    rw [validate_of_decode_error hd, completeWord_error hd]
    exact .inl ⟨by cases e <;> decide, rfl⟩

end Checks

section Named

variable {w : Word} {s t : State} {i : Instr} {o : Bool}

/-! ### The names of the results (R116) -/

/-- The names look at CMD and the four result fields of STATUS only. -/
theorem ResultsNamed.congr (h : ResultsNamed s) (hcmd : t.cmd = s.cmd) (hmatched : t.status.matched = s.status.matched)
    (hextra : t.status.extra = s.status.extra) (hdrop : t.status.drop = s.status.drop)
    (hstrip : t.status.strip = s.status.strip) : ResultsNamed t where
  matched_verify := by rw [hmatched, hcmd]; exact h.matched_verify
  extra_pad := by rw [hextra, hcmd]; exact h.extra_pad
  unpad_results := by rw [hdrop, hstrip, hcmd]; exact h.unpad_results

/-- After an accept, and until its completion, there is no result to name (R112, R118). -/
theorem resultsNamed_of_accepted (hstatus : s.status = { busy := true, ovr := o }) : ResultsNamed s where
  matched_verify := by simp [hstatus]
  extra_pad := by simp [hstatus]
  unpad_results := by simp [hstatus]

/-- A register write is an accept, a reset, or touches neither CMD nor STATUS (R120). -/
theorem ResultsNamed.writeReg (r : Reg) (v : Word) (h : ResultsNamed s) : ResultsNamed (writeReg r v s) := by
  rcases writeReg_cases r v s with e | e | e | e | ⟨k, e⟩ | ⟨b, e | e | e⟩ <;> rw [e]
  case inl => exact h
  case inr.inl => exact resultsNamed_of_accepted (accept_status s v)
  case inr.inr.inl => exact resultsNamed_resetEngine s
  all_goals exact h.congr rfl rfl rfl rfl rfl

/-- A dropped write changes no result field but OVR (R117). -/
theorem ResultsNamed.hostTurn (h : ResultsNamed s) : ResultsNamed (hostTurn s) :=
  hostTurn_keeps (fun _ _ _ h => h.congr rfl rfl rfl rfl rfl) (fun _ _ h => h.congr rfl rfl rfl rfl rfl)
    (fun r v _ h => h.writeReg r v) resultsNamed_resetEngine h

/-- The meaning of the pending command sets its own result fields only (R104, R105, R108). -/
theorem resultsNamed_of_exec (hstatus : s.status = { busy := true, ovr := o }) (hd : decodeWord s.cmd = .ok i)
    (h : exec i s = .next t) : ResultsNamed t := by
  have hnone : ResultsNamed s := resultsNamed_of_accepted hstatus
  rcases exec_status_cases i s with ⟨e, -, hx⟩ | ⟨u, hu, hx, hres⟩ <;> cases hx.symm.trans h
  · exact hnone.congr rfl rfl rfl rfl rfl
  · rw [← hu.cmd] at hd
    rcases hres with e | ⟨rfl, b, e⟩ | ⟨n, b, rfl, e, hn⟩ | ⟨x, st, d, rfl, e, -⟩
    · exact hnone.congr hu.cmd (by simp [e]) (by simp [e]) (by simp [e]) (by simp [e])
    · exact ⟨fun _ => hd, by simp [e, hstatus], by simp [e, hstatus]⟩
    · refine ⟨by simp [e, hstatus], fun hb => ?_, by simp [e, hstatus]⟩
      have hn47 : n = 47 := hn (by simpa [e] using hb)
      exact hn47 ▸ hd
    · exact ⟨by simp [e, hstatus], by simp [e, hstatus], fun _ => ⟨x, hd⟩⟩

/-- So does the completion of a pending word, a command or not (R52, R53, R115). -/
theorem resultsNamed_of_completeWord (hstatus : s.status = { busy := true, ovr := o })
    (h : completeWord s.cmd s = .next t) : ResultsNamed t := by
  cases hd : decodeWord s.cmd with
  | ok i => exact resultsNamed_of_exec hstatus hd (completeWord_ok hd ▸ h)
  | error e =>
    cases (completeWord_error hd).symm.trans h
    exact (resultsNamed_of_accepted hstatus).congr rfl rfl rfl rfl rfl

/-- The completion of the command pending in a coherent state. -/
theorem Coherent.resultsNamed_of_completion {p : Pending} (h : Coherent s) (hp : s.pending = some p)
    (hc : completeWord p.word s = .next t) : ResultsNamed t :=
  resultsNamed_of_completeWord (h.status_of_pending hp) (h.pending_word p hp ▸ hc)

end Named

/-- Settles O24: the outside's turn and a cycle keep the names, and a completion, which coherence has start from cleared
result fields, sets those of its own command. -/
theorem resultsNamedInvariant : Obligations.ResultsNamedInvariant := by
  intro s t hcoh h hstep
  exact step_keeps (fun _ h => h.hostTurn) (fun _ _ _ h => h.congr rfl rfl rfl rfl rfl)
    (fun _ hp hc _ => hcoh.resultsNamed_of_completion hp hc) h hstep

/-- Settles O8: the completion is the one `validate` decides, and the results it leaves are its command's. -/
theorem statusAfterCompletion : Obligations.StatusAfterCompletion := by
  intro s p hcoh hp hdue
  rw [step_of_due hp hdue]
  have hword : p.word = s.cmd := hcoh.pending_word p hp
  have hstatus := hcoh.status_of_pending hp
  have hnamed := fun t => hcoh.resultsNamed_of_completion (t := t) hp
  rcases completeWord_completesWith p.word s with ⟨he, hc⟩ | ⟨he, u, hu, hc⟩
  · obtain ⟨hmatched, hextra, hunpad⟩ := hnamed _ hc
    rw [commandError_cmd, ← hword] at hmatched hextra hunpad
    exact ⟨_, hc, rfl, rfl, rfl, ⟨fun _ => he, fun _ => rfl⟩, hmatched, hextra, hunpad, rfl, rfl⟩
  · obtain ⟨hmatched, hextra, hunpad⟩ := hnamed _ hc
    rw [complete_cmd, hu.cmd, ← hword] at hmatched hextra hunpad
    have herr : u.status.err = false := by rw [hu.err, hstatus]
    have hcode : u.status.errCode = .none := by rw [hu.errCode, hstatus]
    exact ⟨_, hc, rfl, rfl, hcode.trans he.symm, by simp [herr, he], hmatched, hextra, hunpad, hu.ovr, hu.keyLoaded⟩

end Sys2Proof.Machine
end

