-- ==== Sys2Proof/Proofs/PaddingCommands.lean ====
section
/-!
PROOFS. The padding and digest commands as single completions (spec/43_padding_digest.md R104 to R108, R110): the block
PAD makes and where it fails (O35, O36), what UNPAD reports (O37) and that it recognises what PAD made (O38), and the
digest commands (O34).
-/

namespace Sys2Proof.Machine

section Pad

variable {slen c : Byte} {s : State} {n g k : Nat}

/-! ### PAD (R104) -/

/-- The byte PAD writes into each place of a gap of g bytes: the gap's length, and 0 where the gap is one byte. -/
def gapByte (g : Nat) : Byte :=
  if g = 1 then 0 else BitVec.ofNat 8 g

/-- A chunk at the top of a block, over a gap of g bytes. -/
def paddedChunk (chunk : Block) (g : Nat) : Block :=
  chunk <<< (8 * g) ^^^ rep8 (gapByte g) g

theorem gapByte_of_two_le (h : 2 ≤ g) : gapByte g = BitVec.ofNat 8 g :=
  if_neg (by omega)

theorem blockByte_paddedChunk (chunk : Block) (hk : k < 48) :
    blockByte (paddedChunk chunk g) k = if k < g then gapByte g else blockByte chunk (k - g) := by
  rw [paddedChunk, blockByte_xor, blockByte_shiftLeft _ _ hk, blockByte_rep8 _ _ hk]
  split <;> simp

/-- PAD's results, for both sizes of gap at once: the sentinel and EXTRA go with a gap of one byte. -/
theorem padResults_eq (h : n ≤ 47) (s : State) :
    padResults n s =
      { s with
        dout := paddedChunk s.din (48 - n)
        dout2 := if 48 - n = 1 then 49 else 0
        status := { s.status with extra := decide (48 - n = 1) } } := by
  by_cases h47 : n = 47
  · subst h47
    have hchunk : paddedChunk s.din 1 = s.din <<< 8 := by simp [paddedChunk, gapByte, rep8]
    simp [padResults, hchunk]
  · have hgap : 48 - n ≥ 2 := by omega
    have hne : 48 - n ≠ 1 := by omega
    simp [padResults, paddedChunk, gapByte_of_two_le hgap, hgap, hne]

theorem exec_pad (h1 : 1 ≤ slen.toNat) (h47 : slen.toNat ≤ 47) (s : State) :
    exec (.pad slen) s = .next (complete (padResults slen.toNat s)) :=
  if_pos ⟨h1, h47⟩

theorem exec_pad_badSlen (h : ¬ (1 ≤ slen.toNat ∧ slen.toNat ≤ 47)) (s : State) :
    exec (.pad slen) s = .next (commandError .badSlen s) :=
  if_neg h

end Pad

/-- Settles O35: the bytes of the padded chunk are the gap's below and DIN's above. -/
theorem padCompletes : Obligations.PadCompletes := by
  intro slen s h1 h47
  refine ⟨paddedChunk s.din (48 - slen.toNat), ?_, fun k hk => ?_, fun k hk => ?_⟩
  · rw [exec_pad h1 h47, padResults_eq h47]
    rfl
  · rw [blockByte_paddedChunk _ (by omega), if_pos hk, gapByte]
  · rw [blockByte_paddedChunk _ (by omega), if_neg (by omega), Nat.add_sub_cancel_left]

/-- Settles O36: a SLEN outside 1 to 47 ends PAD with the error entry. -/
theorem padLengthTraps : Obligations.PadLengthTraps := by
  intro slen s h
  rw [exec_pad_badSlen (by omega), commandError]

section Unpad

variable {g : Nat} {last prev : Block}

/-! ### UNPAD (R105) -/

/-- UNPAD's report, by the bytes of the blocks. -/
theorem unpadReport_eq (hasPrev : Bool) (last prev : Block) :
    unpadReport hasPrev last prev =
      if (blockByte last 0).toNat = 49 ∧ hasPrev = true ∧ blockByte prev 0 = 0 then ⟨1, true⟩
      else if 2 ≤ (blockByte last 0).toNat ∧ (blockByte last 0).toNat ≤ 48 ∧
          ∀ k, k < (blockByte last 0).toNat → blockByte last k = BitVec.ofNat 8 (blockByte last 0).toNat then
        ⟨BitVec.ofNat 6 (blockByte last 0).toNat, false⟩
      else ⟨0, false⟩ := by
  have hsentinel : blockByte last 0 = 49 ↔ (blockByte last 0).toNat = 49 := BitVec.toNat_inj.symm
  have hfill := and_congr_right fun _ : 2 ≤ (blockByte last 0).toNat =>
    and_congr_right fun h48 : (blockByte last 0).toNat ≤ 48 =>
      lowBytes_eq_rep8_iff (b := last) (c := blockByte last 0) h48
  have hstrip : (blockByte last 0).setWidth 6 = BitVec.ofNat 6 (blockByte last 0).toNat := (BitVec.ofNat_toNat ..).symm
  have hbyte : BitVec.ofNat 8 (blockByte last 0).toNat = blockByte last 0 := by simp
  rw [hbyte, ← hstrip]
  exact if_congr (and_congr_left' hsentinel) rfl (if_congr hfill rfl rfl)

/-- The sentinel block after a block that ends in 0. -/
theorem unpadReport_sentinel (hlast : blockByte last 0 = 49) (hprev : blockByte prev 0 = 0) :
    unpadReport true last prev = ⟨1, true⟩ :=
  if_pos ⟨hlast, rfl, hprev⟩

/-- A block that ends in a gap of g bytes, each g, whatever stands before it. -/
theorem unpadReport_gap (h2 : 2 ≤ g) (h48 : g ≤ 48) (hgap : ∀ k < g, blockByte last k = BitVec.ofNat 8 g)
    (hasPrev : Bool) (prev : Block) : unpadReport hasPrev last prev = ⟨BitVec.ofNat 6 g, false⟩ := by
  have hc : (blockByte last 0).toNat = g := by
    rw [hgap 0 (by omega), BitVec.toNat_ofNat]
    omega
  rw [unpadReport_eq, hc, if_neg (by omega), if_pos ⟨h2, h48, hgap⟩]

/-- UNPAD sets STRIP and DROP to its report, and nothing else. -/
theorem exec_unpad (hasPrev : Bool) (s : State) :
    exec (.unpad hasPrev) s = .next (complete
      { s with status := { s.status with
          strip := (unpadReport hasPrev s.din s.din2).strip
          drop := (unpadReport hasPrev s.din s.din2).drop } }) :=
  rfl

/-! ### UNPAD after PAD (R110) -/

/-- The padded chunk is recognised by its gap. -/
theorem unpadReport_paddedChunk (h2 : 2 ≤ g) (h48 : g ≤ 48) (chunk : Block) (hasPrev : Bool) (prev : Block) :
    unpadReport hasPrev (paddedChunk chunk g) prev = ⟨BitVec.ofNat 6 g, false⟩ := by
  refine unpadReport_gap h2 h48 (fun k hk => ?_) hasPrev prev
  rw [blockByte_paddedChunk _ (by omega), if_pos hk, gapByte_of_two_le h2]

/-- The sentinel is recognised after a chunk over a gap of one byte. -/
theorem unpadReport_sentinel_paddedChunk (chunk : Block) : unpadReport true 49 (paddedChunk chunk 1) = ⟨1, true⟩ :=
  unpadReport_sentinel (by simp [blockByte]) (by rw [blockByte_paddedChunk _ (by decide)]; rfl)

end Unpad

/-- Settles O37: the report's three cases are the rule's. -/
theorem unpadCompletes : Obligations.UnpadCompletes := by
  intro hasPrev s
  refine ⟨_, _, exec_unpad hasPrev s, ?_⟩
  rw [unpadReport_eq]
  split_ifs with hsentinel hgap
  · exact ⟨rfl, rfl⟩
  · refine ⟨?_, rfl⟩
    rw [BitVec.toNat_ofNat]
    omega
  · exact ⟨rfl, rfl⟩

/-- Settles O38: a gap of two bytes or more is reported from DOUT alone, one of a single byte from DOUT2 after DOUT. -/
theorem unpadAfterPad : Obligations.UnpadAfterPad := by
  intro slen s t h1 h47 h
  rw [exec_pad h1 h47, padResults_eq h47] at h
  cases h
  refine ⟨fun h46 hasPrev u hu => ⟨_, exec_unpad hasPrev u, ?_⟩, fun hs u hu hu2 => ⟨_, exec_unpad true u, ?_⟩⟩
  · have hreport : unpadReport hasPrev u.din u.din2 = ⟨BitVec.ofNat 6 (48 - slen.toNat), false⟩ := by
      rw [hu]
      exact unpadReport_paddedChunk (by omega) (by omega) s.din hasPrev u.din2
    rw [hreport]
    refine ⟨?_, rfl⟩
    change (BitVec.ofNat 6 (48 - slen.toNat)).toNat = _
    rw [BitVec.toNat_ofNat]
    omega
  · have hreport : unpadReport true u.din u.din2 = ⟨1, true⟩ := by
      rw [hu, hu2]
      simp only [complete_dout, complete_dout2, hs]
      exact unpadReport_sentinel_paddedChunk s.din
    rw [hreport]
    exact ⟨rfl, rfl⟩

/-! ### The digest commands (R106 to R108) -/

/-- Blocks are equal in all 384 bits exactly when their twelve registers are (R17). -/
theorem beq_eq_decide_groupWord (a b : Block) : (a == b) = decide (∀ k : Fin 12, groupWord a k = groupWord b k) := by
  rw [beq_eq_decide, decide_eq_decide]
  exact ⟨fun h _ => h ▸ rfl, group_ext⟩

/-- Settles O34: each meaning is the rule's assignment; MATCH compares the blocks register by register. -/
theorem digestCommandsComplete : Obligations.DigestCommandsComplete := by
  intro s
  refine ⟨rfl, rfl, ?_⟩
  rw [← beq_eq_decide_groupWord]
  rfl

end Sys2Proof.Machine
end

