-- ==== Sys2Proof/Proofs/RegisterWrites.lean ====
section
/-!
PROOFS. Host writes at the registers of the map (spec/44_command_control.md R112, R117, R120): which are dropped, refused
or taken, busy or not (O12), what a taken write does to each register (O15), and the accept of a command word (O7).
-/

namespace Sys2Proof.Machine

section Writes

variable {s : State} {r r' : Reg}

/-! ### Dropped and taken (R117, R120) -/

/-- A busy engine drops a write to every writable register but CTRL. -/
theorem exchange_write_of_busy (hw : r.writable = true) (hctrl : r ≠ .ctrl) (hb : s.status.busy = true) (v : Word) :
    exchange (.write .w32 r.offset v) s = (.okWrite, dropWrite s) := by
  simp [exchange_write_offset, hw, hctrl, hb]

theorem exchange_write_of_not_busy (hw : r.writable = true) (hb : s.status.busy = false) (v : Word) :
    exchange (.write .w32 r.offset v) s = (.okWrite, writeReg r v s) := by
  simp [exchange_write_offset, hw, hb]

/-- A write to CTRL is taken, busy or not (R117). -/
theorem exchange_write_ctrl (v : Word) (s : State) :
    exchange (.write .w32 0x00C v) s = (.okWrite, writeCtrl v s) := by
  rw [show (0x00C : Offset) = Reg.ctrl.offset from rfl, exchange_write_offset]
  simp [Reg.writable, writeReg]

/-- Without SRST it writes IE (R120). -/
theorem exchange_write_ie {v : Word} (h : v.getLsbD 1 = false) (s : State) :
    exchange (.write .w32 0x00C v) s = (.okWrite, { s with ie := v.getLsbD 0 }) := by
  rw [exchange_write_ctrl, writeCtrl, if_neg (by simpa using h)]

/-- A write to a read-only register is refused, busy or not (R37). -/
theorem exchange_write_readOnly (h : r.writable = false) (v : Word) (s : State) :
    exchange (.write .w32 r.offset v) s = (.errWrite, s) := by
  simp [exchange_write_offset, h]

/-- So is a write that reaches no register. -/
theorem exchange_write_unmapped {off : Offset} (h : regAt off = none) (v : Word) (s : State) :
    exchange (.write .w32 off v) s = (.errWrite, s) :=
  exchange_write_refused (fun _ ht => nomatch h.symm.trans (target_eq_some ht).2) v s

/-! ### The data registers (R17, R18, R120) -/

/-- The registers that hold what the host writes to them. -/
def IsData (r : Reg) : Prop :=
  (∃ k, r = .key k) ∨ (∃ k, r = .din k) ∨ (∃ k, r = .din2 k) ∨ ∃ k, r = .chain k

theorem IsData.writable (h : IsData r) : r.writable = true := by
  rcases h with ⟨k, rfl⟩ | ⟨k, rfl⟩ | ⟨k, rfl⟩ | ⟨k, rfl⟩ <;> rfl

theorem IsData.ne_ctrl (h : IsData r) : r ≠ .ctrl := by
  rintro rfl
  simp [IsData] at h

theorem readReg_writeReg_self (h : IsData r) (v : Word) (s : State) : readReg r (writeReg r v s) = v := by
  rcases h with ⟨k, rfl⟩ | ⟨k, rfl⟩ | ⟨k, rfl⟩ | ⟨k, rfl⟩
  · exact keyGroupWord_setKeyGroupWord_self s.key k v
  · exact groupWord_setGroupWord_self s.din k v
  · exact groupWord_setGroupWord_self s.din2 k v
  · exact groupWord_setGroupWord_self s.chain k v

/-- Of the other registers only STATUS may read otherwise after a write to a data register: KEY_LOADED, after one to
KEY. -/
theorem readsKept_writeReg (h : IsData r) (v : Word) (s : State) :
    ReadsKept (fun r' => r' = r ∨ r' = .status) s (writeReg r v s) := by
  intro r' hr'
  obtain ⟨hne, hstatus⟩ := not_or.mp hr'
  rcases h with ⟨k, rfl⟩ | ⟨k, rfl⟩ | ⟨k, rfl⟩ | ⟨k, rfl⟩
  · cases r' with
    | key j => exact keyGroupWord_setKeyGroupWord_ne s.key v (ne_of_apply_ne Reg.key hne)
    | status => exact absurd rfl hstatus
    | _ => rfl
  · cases r' with
    | din j => exact groupWord_setGroupWord_ne s.din v (ne_of_apply_ne Reg.din hne)
    | _ => rfl
  · cases r' with
    | din2 j => exact groupWord_setGroupWord_ne s.din2 v (ne_of_apply_ne Reg.din2 hne)
    | _ => rfl
  · cases r' with
    | chain j => exact groupWord_setGroupWord_ne s.chain v (ne_of_apply_ne Reg.chain hne)
    | _ => rfl

theorem writeReg_status_pending (h : IsData r) (v : Word) (s : State) :
    (writeReg r v s).status = s.status ∧ (writeReg r v s).pending = s.pending := by
  rcases h with ⟨k, rfl⟩ | ⟨k, rfl⟩ | ⟨k, rfl⟩ | ⟨k, rfl⟩ <;> exact ⟨rfl, rfl⟩

/-- Among the data registers it is KEY whose writes set KEY_LOADED (R25). -/
theorem writeReg_keyLoaded (h : IsData r) (v : Word) (s : State) :
    ((∃ k, r = .key k) → (writeReg r v s).keyLoaded = true) ∧
    ((¬ ∃ k, r = .key k) → (writeReg r v s).keyLoaded = s.keyLoaded) := by
  rcases h with ⟨k, rfl⟩ | ⟨k, rfl⟩ | ⟨k, rfl⟩ | ⟨k, rfl⟩
  · exact ⟨fun _ => rfl, fun hkey => absurd ⟨k, rfl⟩ hkey⟩
  all_goals exact ⟨fun ⟨_, hk⟩ => (nomatch hk), fun _ => rfl⟩

/-! ### The accept (R112) -/

/-- An accept touches no register but CMD and STATUS. -/
theorem readsKept_accept (w : Word) (s : State) :
    ReadsKept (fun r => r = .cmd ∨ r = .status) s (accept w s) := by
  intro r hr
  cases r with
  | cmd | status => exact absurd hr (by simp)
  | id | ctrl | key | din | din2 | dout | dout2 | chain | digest => rfl

end Writes

/-- Settles O7: with BUSY = 0 the write is the accept of its word, and with BUSY = 1 it is dropped. -/
theorem commandAccept : Obligations.CommandAccept := by
  intro w s
  refine ⟨fun hb => ⟨_, _, exchange_write_cmd w hb, rfl, rfl, rfl, Nat.le_add_left 1 _, rfl, rfl,
    readsKept_accept w s⟩, fun hb => ?_⟩
  exact ⟨_, exchange_write_of_busy (r := .cmd) rfl (by decide) hb w, rfl, rfl⟩

/-- Settles O12: a busy engine drops a write to every writable register but CTRL, and what refuses a write does not look
at BUSY. -/
theorem busyWritesDropped : Obligations.BusyWritesDropped := by
  intro s v
  refine ⟨fun hb => ⟨fun r hr => ?_, fun h => exchange_write_srst h s, fun h => exchange_write_ie h s⟩, fun r hr => ?_,
    fun off h => exchange_write_unmapped h v s⟩
  · rcases hr with rfl | hdata
    · exact exchange_write_of_busy rfl (by decide) hb v
    · exact exchange_write_of_busy (IsData.writable hdata) (IsData.ne_ctrl hdata) hb v
  · have hro : r.writable = false := by
      rcases hr with rfl | rfl | ⟨k, rfl⟩ | ⟨k, rfl⟩ | ⟨k, rfl⟩ <;> rfl
    exact exchange_write_readOnly hro v s

/-- Settles O15: CTRL is written busy or not; with BUSY = 0 a write to CMD is an accept, and one to a data register is
stored there. -/
theorem registerWriteEffects : Obligations.RegisterWriteEffects := by
  intro s v
  refine ⟨fun h => exchange_write_srst h s, fun h => exchange_write_ie h s,
    fun hb => ⟨exchange_write_cmd v hb, fun r (hr : IsData r) => ?_⟩⟩
  obtain ⟨hstatus, hpending⟩ := writeReg_status_pending hr v s
  exact ⟨_, exchange_write_of_not_busy hr.writable hb v, readReg_writeReg_self hr v s, readsKept_writeReg hr v s,
    hstatus, hpending, writeReg_keyLoaded hr v s⟩

end Sys2Proof.Machine
end

