-- ==== Sys2Proof/Proofs/CommandCycle.lean ====
section
/-!
PROOFS. The command cycle from the written word to its report (spec/44_command_control.md R113, R115): the completion is
the one `validate` decides (O5), for a command written to an idle engine too (O9), a missing key fails every command
that uses KEY (O32), and NOP only completes (O29).
-/

namespace Sys2Proof.Machine

section Completion

variable {w : Word} {s : State} {e : ErrCode} {o : Host.Outcome State Fault Refusal}

/-! ### What a decided completion is (R113, R115) -/

/-- Only a word that decodes passes the first two checks. -/
theorem exists_decode_of_validate {keyLoaded : Bool} (h : validate w keyLoaded = .none) : ∃ i, decodeWord w = .ok i := by
  cases hd : decodeWord w with
  | ok i => exact ⟨i, rfl⟩
  | error e =>
    rw [validate_of_decode_error hd] at h
    cases e <;> cases h

theorem CompletesWith.eq_commandError (h : CompletesWith e s o) (he : e ≠ .none) : o = .next (commandError e s) := by
  rcases h with ⟨-, ho⟩ | ⟨hnone, -⟩
  · exact ho
  · exact absurd hnone he

theorem CompletesWith.exists_complete (h : CompletesWith .none s o) :
    ∃ u, ResultsOnly s u ∧ o = .next (complete u) := by
  rcases h with ⟨hne, -⟩ | ⟨-, hu⟩
  · exact absurd rfl hne
  · exact hu

/-- From a state whose ERR and ERRCODE are clear, as an accept leaves them, a completion leaves the engine idle and
reports its code in STATUS (R116, R138). -/
theorem CompletesWith.report (h : CompletesWith e s o) (herr : s.status.err = false)
    (hcode : s.status.errCode = .none) :
    ∃ t, o = .next t ∧ Idle t ∧ t.cmd = s.cmd ∧ t.status.done = true ∧ t.status.errCode = e ∧
      (t.status.err = true ↔ e ≠ .none) := by
  rcases h with ⟨he, ho⟩ | ⟨rfl, u, hu, ho⟩
  · exact ⟨_, ho, ⟨rfl, rfl⟩, rfl, rfl, rfl, ⟨fun _ => he, fun _ => rfl⟩⟩
  · exact ⟨_, ho, ⟨rfl, rfl⟩, hu.cmd, rfl, hu.errCode.trans hcode, by simp [hu.err, herr]⟩

/-- A command whose own check gives an error ends with it (R115). -/
theorem exec_of_commandCheck {i : Instr} (h : commandCheck i s = e) (he : e ≠ .none) :
    exec i s = .next (commandError e s) :=
  (h ▸ exec_completesWith i s).eq_commandError he

/-- The check of an MSTEP is that of its key (R113 check 4). -/
theorem commandCheck_mstepInstr (m : Mode) (d : Dir) (alg : Alg) (fold : Bool) (k : KeySel) (s : State) :
    commandCheck (mstepInstr m d alg fold k) s = if keyMissing k s then .keyMissing else .none := by
  cases m <;> cases d <;> rfl

end Completion

/-- Settles O5: the completion is the one `validate` decides, and a word that passes its checks decodes. -/
theorem validationDecidesCompletion : Obligations.ValidationDecidesCompletion := by
  intro w s
  have hc := completeWord_completesWith w s
  refine ⟨hc.eq_commandError, fun hvalid => ?_⟩
  obtain ⟨i, hd⟩ := exists_decode_of_validate hvalid
  rw [hvalid] at hc
  obtain ⟨u, hu, hnext⟩ := hc.exists_complete
  exact ⟨i, _, hd, hnext, rfl, hu.err, hu.errCode⟩

/-- Settles O9: the first step accepts the word, and after its cycles the completion that `validate` decides finds ERR
and ERRCODE as the accept cleared them. -/
theorem commandCompletesAfterLatency : Obligations.CommandCompletesAfterLatency := by
  intro s w hidle hq
  obtain ⟨t, hnext, ht, hcmd, hdone, hcode, herr⟩ := (completeWord_completesWith w (accept w s)).report rfl rfl
  have hruns := runs_of_written hidle hnext
  rw [← hq] at hruns
  exact ⟨_, hruns, ⟨ht.not_busy, rfl⟩, hcmd, hdone, hcode, herr⟩

/-- Settles O29: the meaning of NOP is the completion alone. -/
theorem nopCompletes : Obligations.NopCompletes :=
  fun _ => rfl

/-- Settles O32: the check of each of these commands is that of its key, and KEY is not loaded. -/
theorem keyMissingTraps : Obligations.KeyMissingTraps := by
  intro s h
  have hcheck : (if keyMissing .registers s then ErrCode.keyMissing else .none) = .keyMissing := if_pos (by simp [h])
  have hfails : ∀ i, commandCheck i s = .keyMissing → exec i s = .next (commandError .keyMissing s) :=
    fun _ hi => exec_of_commandCheck hi (by decide)
  exact ⟨hfails _ hcheck, hfails _ hcheck, hfails _ hcheck, hfails _ hcheck,
    fun m d alg fold => hfails _ ((commandCheck_mstepInstr m d alg fold .registers s).trans hcheck)⟩

end Sys2Proof.Machine
end

