-- ==== Sys2Proof/Proofs/KeyFiles.lean ====
section
/-!
PROOFS. The key of an action (spec/45_host_protocol.md R126, R133): the key a key file gives (O52), and which key each
action runs under (O60).
-/

namespace Sys2Proof.Machine

section KeyFiles

variable {kf : List Byte} {s : State} {j : Nat}

/-! ### The key of a key file (R126) -/

/-- The byte that pads a key file of n bytes: the length of the gap that its block leaves (R104). -/
def keyGapByte (n : Nat) : Byte :=
  BitVec.ofNat 8 (48 - n)

/-- The 32 bytes of a key file's key: the file's first 32, and below a shorter file the padding. -/
def keyFileBytes (kf : List Byte) : List Byte :=
  kf.take 32 ++ List.replicate (32 - kf.length) (keyGapByte kf.length)

/-- The key that a key file gives. -/
def keyOfFile (kf : List Byte) : Key :=
  (intOfBytes (keyFileBytes kf)).setWidth 256

theorem length_keyFileBytes (kf : List Byte) : (keyFileBytes kf).length = 32 := by
  rw [keyFileBytes, List.length_append, List.length_take, List.length_replicate]
  omega

theorem keyFileBytes_of_long (h : 32 ≤ kf.length) : keyFileBytes kf = kf.take 32 := by
  rw [keyFileBytes, Nat.sub_eq_zero_of_le h, List.replicate_zero, List.append_nil]

/-- A short key file in its padded block: the bytes of the key, then 16 more bytes of padding. -/
theorem append_paddingBytes_of_short (h : kf.length < 32) :
    kf ++ paddingBytes kf.length = keyFileBytes kf ++ List.replicate 16 (keyGapByte kf.length) := by
  have hgap : 48 - kf.length = (32 - kf.length) + 16 := by omega
  rw [paddingBytes_of_ne (by omega), keyFileBytes, List.take_of_length_le (by omega), List.append_assoc,
    List.replicate_append_replicate, ← hgap, keyGapByte]

/-- Byte j of the key is the file's, and beyond its end the padding. -/
theorem keyFileBytes_getElem? (kf : List Byte) (hj : j < 32) :
    (keyFileBytes kf)[j]? = some ((kf[j]?).getD (keyGapByte kf.length)) := by
  by_cases hin : j < kf.length
  · have htake : j < (kf.take 32).length := by
      rw [List.length_take]
      omega
    rw [keyFileBytes, List.getElem?_append_left htake, List.getElem?_take_of_lt hj, List.getElem?_eq_getElem hin,
      Option.getD_some]
  · have htake : (kf.take 32).length = kf.length := by
      rw [List.length_take]
      omega
    rw [keyFileBytes, List.getElem?_append_right (by omega), htake, List.getElem?_replicate_of_lt (by omega),
      List.getElem?_eq_none (by omega), Option.getD_none]

/-- The bytes of the key, the first of the file on top (R126). -/
theorem extractLsb'_keyOfFile (kf : List Byte) (hj : j < 32) :
    (keyOfFile kf).extractLsb' (8 * (31 - j)) 8 = (kf[j]?).getD (keyGapByte kf.length) := by
  have hlow : (keyOfFile kf).extractLsb' (8 * (31 - j)) 8 = blockByte (intOfBytes (keyFileBytes kf)) (31 - j) := by
    apply BitVec.eq_of_getLsbD_eq
    intro i hi
    rw [getLsbD_blockByte _ _ hi, BitVec.getLsbD_extractLsb', keyOfFile, BitVec.getLsbD_setWidth]
    simp [hi, show 8 * (31 - j) + i < 256 by omega]
  have hlen := length_keyFileBytes kf
  rw [hlow, blockByte_intOfBytes _ (by omega), List.getElem?_reverse (by omega), hlen,
    show 32 - 1 - (31 - j) = j by omega, keyFileBytes_getElem? kf hj, Option.getD_some]

/-- The upper 256 bits of a block whose lower 16 bytes are padding. -/
theorem extractLsb'_intOfBytes_append_replicate (bs : List Byte) (c : Byte) :
    (intOfBytes (bs ++ List.replicate 16 c)).extractLsb' 128 256 = (intOfBytes bs).setWidth 256 := by
  rw [intOfBytes_append_replicate]
  apply BitVec.eq_of_getLsbD_eq
  intro i hi
  rw [BitVec.getLsbD_extractLsb', BitVec.getLsbD_xor, BitVec.getLsbD_shiftLeft, getLsbD_rep8 c 16 (by omega),
    BitVec.getLsbD_setWidth]
  simp [hi, show 128 + i < 384 by omega]

/-- PAD of a short key file leaves its key in the first 32 bytes of DOUT. -/
theorem extractLsb'_of_padded_keyFile {dout : Block} {ys : List Block} (h : kf.length < 32)
    (hblocks : fullBlocks (kf ++ paddingBytes kf.length) = dout :: ys) : dout.extractLsb' 128 256 = keyOfFile kf := by
  have hlen : (keyFileBytes kf ++ List.replicate 16 (keyGapByte kf.length)).length = 48 := by
    rw [List.length_append, length_keyFileBytes, List.length_replicate]
  rw [append_paddingBytes_of_short h, fullBlocks_of_length_eq hlen] at hblocks
  rw [← (List.cons.inj hblocks).1, extractLsb'_intOfBytes_append_replicate, keyOfFile]

theorem keyFromFile_nil (s : State) : keyFromFile [] s = .error .keyAbsent := rfl

theorem keyFromFile_eq_ok (hne : kf ≠ []) (hs : Idle s) :
    ∃ t, keyFromFile kf s = .ok (keyOfFile kf, t) ∧ ProcedureFrame s t := by
  by_cases hlong : 32 ≤ kf.length
  · refine ⟨s, ?_, .refl hs⟩
    rw [keyFromFile, if_pos hlong, keyOfFile, keyFileBytes_of_long hlong]
    rfl
  · have hpos : 1 ≤ kf.length := List.length_pos_of_ne_nil hne
    obtain ⟨t, hpad, hframe, hblocks⟩ := execCommand_pad hpos (by omega) hs
    refine ⟨t, ?_, hframe⟩
    rw [keyFromFile, if_neg hlong, if_neg (by omega), hpad, ← extractLsb'_of_padded_keyFile (by omega) hblocks,
      ← rd384_dout]
    rfl

/-! ### The key of an action (R126, R133; logs 23, 24) -/

variable {keyPath : Option (List Byte)}

theorem requiredKey_of_absent (h : keyPath = none ∨ keyPath = some []) (s : State) :
    requiredKey keyPath s = .error .keyAbsent := by
  rcases h with rfl | rfl
  · exact requiredKey_none s
  · exact requiredKey_empty s

theorem optionalKey_of_absent (h : keyPath = none ∨ keyPath = some []) (s : State) :
    optionalKey keyPath s = .ok (none, s) := by
  rcases h with rfl | rfl
  · exact optionalKey_none s
  · exact optionalKey_empty s

/-- An action that requires a key ends with the error of taking it. -/
theorem runAction_of_requiredKey_error {a : Action} {e : HostError} (alg : Alg) (m : Mode) (f : List Byte)
    (ha : a = .encrypt keyPath ∨ a = .decrypt keyPath ∨ a = .sign keyPath ∨ a = .verify keyPath)
    (h : requiredKey keyPath s = .error e) : runAction alg m a f s = .error e := by
  rcases ha with rfl | rfl | rfl | rfl <;> simp only [runAction, h, bind, Except.bind]

/-- With its key at hand it is the procedure of its rule. -/
theorem runAction_of_requiredKey_ok {k : Key} {t : State} (alg : Alg) (m : Mode) (f : List Byte)
    (h : requiredKey keyPath s = .ok (k, t)) :
    runAction alg m (.encrypt keyPath) f s = asFile <$> encryptFile alg m k f t ∧
    runAction alg m (.decrypt keyPath) f s = asFile <$> decryptFile alg m k f t ∧
    runAction alg m (.sign keyPath) f s = asFile <$> signFile alg m k f t ∧
    runAction alg m (.verify keyPath) f s = asVerdict <$> verifyFile alg m k f t := by
  simp only [runAction, h, bind, Except.bind, and_self]

theorem runAction_hash {key : Option Key} {t : State} (alg : Alg) (m : Mode) (f : List Byte)
    (h : optionalKey keyPath s = .ok (key, t)) :
    runAction alg m (.hash keyPath) f s = asFile <$> hashFile alg m key f t := by
  simp only [runAction, h, bind, Except.bind]

end KeyFiles

/-- Settles O52: the key is that of the file's 32 key bytes, by the file alone or by its padded block. -/
theorem keyFileRule : Obligations.KeyFileRule := by
  intro kf s hs
  refine ⟨fun h => h ▸ keyFromFile_nil s, fun hne => ?_⟩
  obtain ⟨t, hkey, -⟩ := keyFromFile_eq_ok hne hs
  exact ⟨_, t, hkey, fun j hj => extractLsb'_keyOfFile kf hj⟩

/-- Settles O60: an action runs on what taking its key gives. -/
theorem actionsTakeTheirKey : Obligations.ActionsTakeTheirKey := by
  intro alg m f s
  refine ⟨fun keyPath habsent => ⟨fun a ha => ?_, ?_⟩, fun kf hne hs => ?_⟩
  · exact runAction_of_requiredKey_error alg m f ha (requiredKey_of_absent habsent s)
  · exact runAction_hash alg m f (optionalKey_of_absent habsent s)
  · obtain ⟨t, hkey, hframe⟩ := keyFromFile_eq_ok hne hs
    obtain ⟨hencrypt, hdecrypt, hsign, hverify⟩ :=
      runAction_of_requiredKey_ok alg m f ((requiredKey_some kf s).trans hkey)
    exact ⟨_, t, hkey, hframe.idle, hframe.params, hencrypt, hdecrypt, hsign, hverify,
      runAction_hash alg m f (optionalKey_of_key hne hkey)⟩

end Sys2Proof.Machine
end

