-- ==== Sys2Proof/Proofs/FileVerdicts.lean ====
section
/-!
PROOFS. The actions that judge a file (spec/45_host_protocol.md R128, R130 to R133): decrypt refuses a length that is no
multiple of 48 (O53), verify accepts what sign wrote (O55), and compare tells whether the helper is the hash (O59).
-/

namespace Sys2Proof.Machine

section Verdicts

variable {s : State}

/-! ### The comparison with an expected digest (R108, R131, R132) -/

theorem readReg_status_matched (s : State) : (readReg .status s).getLsbD 4 = s.status.matched := by
  obtain ⟨-, -, -, -, hmatched, -⟩ := statusWord_flags s
  exact hmatched

/-- WR384 DIN and VERIFY leave in MATCH whether the written block is the digest. -/
theorem execCommand_verify (tag : Block) (hs : Idle s) :
    ∃ t, execCommand .verify (wr384 .din tag s) = .ok t ∧ t.status.matched = decide (tag = s.digest) := by
  rw [wr384_din hs.not_busy]
  obtain ⟨hok, -⟩ := execCommand_complete (s := { s with din := tag }) (i := .verify) trivial
    ⟨hs.not_busy, hs.nothing_pending⟩ rfl (by constructor <;> rfl)
  have hmatched : (s.digest == tag) = decide (tag = s.digest) := by
    rw [beq_eq_decide, decide_eq_decide, eq_comm]
  exact ⟨_, hok, hmatched⟩

/-- The digest of a file (R109, R129), of its padded blocks under the caller's key or the default key. -/
def fileDigest (P : Params) (alg : Alg) (m : Mode) (key : Option Key) (f : List Byte) : Block :=
  digestOf P alg m (digestKey key alg) (fullBlocks (paddedBytes f))

theorem hashFile_eq_fileDigest (alg : Alg) (m : Mode) (key : Option Key) (f : List Byte) (hs : Idle s) :
    ∃ t, hashFile alg m key f s = .ok (bytesOfBlock (fileDigest s.params alg m key f), t) := by
  obtain ⟨t, hhash, -⟩ := hashFile_eq_ok alg m key f hs
  exact ⟨t, hhash⟩

theorem checkDigest_eq_ok (alg : Alg) (m : Mode) (key : Option Key) (f : List Byte) (tag : Block) (hs : Idle s) :
    ∃ t, checkDigest alg m key f tag s = .ok (decide (tag = fileDigest s.params alg m key f), t) := by
  obtain ⟨t, hrun, hidle, -, hdigest⟩ := digestFile_eq_ok alg m key f hs
  rw [← fileDigest] at hdigest
  obtain ⟨u, hverify, hmatched⟩ := execCommand_verify tag hidle
  rw [hdigest] at hmatched
  refine ⟨u, ?_⟩
  simp only [checkDigest, hrun, hverify, readReg_status_matched, hmatched, bind, Except.bind, pure, Except.pure]

/-! ### Sign and verify (R130, R131) -/

theorem signFile_eq_ok (alg : Alg) (m : Mode) (k : Key) (f : List Byte) (hs : Idle s) :
    ∃ t, signFile alg m k f s = .ok (f ++ bytesOfBlock (fileDigest s.params alg m (some k) f), t) := by
  obtain ⟨t, hhash⟩ := hashFile_eq_fileDigest alg m (some k) f hs
  refine ⟨t, ?_⟩
  simp only [signFile, hhash, bind, Except.bind, pure, Except.pure]

/-- Verify of a file and a serialised block is whether the block is the file's digest. -/
theorem verifyFile_append_eq_ok (alg : Alg) (m : Mode) (k : Key) (f : List Byte) (tag : Block) (hs : Idle s) :
    ∃ t, verifyFile alg m k (f ++ bytesOfBlock tag) s =
      .ok (decide (tag = fileDigest s.params alg m (some k) f), t) := by
  have hlen : (f ++ bytesOfBlock tag).length = f.length + 48 := by rw [List.length_append, length_bytesOfBlock]
  have hbody : (f ++ bytesOfBlock tag).length - 48 = f.length := by omega
  rw [verifyFile, if_neg (by omega), hbody, List.take_left, List.drop_left, intOfBytes_bytesOfBlock]
  exact checkDigest_eq_ok alg m (some k) f tag hs

/-! ### Compare (R132) -/

/-- 48 bytes are a serialised block exactly when they read as the block. -/
theorem intOfBytes_eq_iff {bs : List Byte} {v : Block} (h : bs.length = 48) :
    intOfBytes bs = v ↔ bs = bytesOfBlock v :=
  ⟨fun e => e ▸ (bytesOfBlock_intOfBytes h).symm, fun e => e ▸ intOfBytes_bytesOfBlock v⟩

/-- Compare under the key that was taken: a helper of 48 bytes is judged by VERIFY, and another is no hash. -/
theorem compareFile_eq_ok {asKey : Bool} {helper : List Byte} {key : Option Key} {s₁ : State} (alg : Alg) (m : Mode)
    (f : List Byte) (hkey : helperKey asKey helper s = .ok (key, s₁)) (hs : Idle s₁) :
    ∃ t, compareFile alg m asKey f helper s =
      .ok (decide (helper = bytesOfBlock (fileDigest s₁.params alg m key f)), t) := by
  by_cases h48 : helper.length = 48
  · obtain ⟨t, hcheck⟩ := checkDigest_eq_ok alg m key f (intOfBytes helper) hs
    refine ⟨t, ?_⟩
    simp only [compareFile, hkey, h48, if_true, hcheck, intOfBytes_eq_iff h48, bind, Except.bind]
  · obtain ⟨t, hrun, -⟩ := digestFile_eq_ok alg m key f hs
    have hne : helper ≠ bytesOfBlock (fileDigest s₁.params alg m key f) := fun e =>
      h48 (e ▸ length_bytesOfBlock _)
    refine ⟨t, ?_⟩
    simp only [compareFile, hkey, h48, if_false, hrun, hne, decide_false, bind, Except.bind, pure, Except.pure]

end Verdicts

/-- Settles O53: decrypt looks at the length before anything else. -/
theorem decryptAlignmentError : Obligations.DecryptAlignmentError := by
  intro alg m k g s hg
  rw [decryptFile, if_pos hg]
  rfl

/-- Settles O55: verify compares the file's digest with the block that sign serialised, which is that digest. -/
theorem signThenVerify : Obligations.SignThenVerify := by
  intro alg m k f s s' hs hs' hparams
  obtain ⟨t, hsign⟩ := signFile_eq_ok alg m k f hs
  obtain ⟨t', hverify⟩ := verifyFile_append_eq_ok alg m k f (fileDigest s.params alg m (some k) f) hs'
  rw [hparams, decide_eq_true rfl] at hverify
  exact ⟨_, t, t', hsign, by rw [List.length_append, length_bytesOfBlock], hverify⟩

/-- Settles O59: compare's answer, under no key, under the helper's key and, for an empty helper, under no key again. -/
theorem compareResult : Obligations.CompareResult := by
  intro alg m f helper s s' hs hs' hparams
  refine ⟨?_, fun hne => ?_, fun hempty => ?_⟩
  · obtain ⟨u, hhash⟩ := hashFile_eq_fileDigest alg m none f hs
    obtain ⟨t, hcompare⟩ := compareFile_eq_ok (asKey := false) (helper := helper) alg m f
      (helperKey_notKey helper s') hs'
    rw [hparams] at hcompare
    exact ⟨_, u, t, hhash, length_bytesOfBlock _, hcompare⟩
  · obtain ⟨v, hkey, -⟩ := keyFromFile_eq_ok hne hs
    obtain ⟨v', hkey', hframe⟩ := keyFromFile_eq_ok hne hs'
    obtain ⟨u, hhash⟩ := hashFile_eq_fileDigest alg m (some (keyOfFile helper)) f hs
    obtain ⟨t, hcompare⟩ := compareFile_eq_ok (asKey := true) alg m f
      ((helperKey_asKey helper s').trans (optionalKey_of_key hne hkey')) hframe.idle
    rw [hframe.params, hparams] at hcompare
    exact ⟨_, v, _, u, t, hkey, hhash, length_bytesOfBlock _, hcompare⟩
  · subst hempty
    obtain ⟨t, hcompare⟩ := compareFile_eq_ok (asKey := true) (helper := []) alg m f
      ((helperKey_asKey [] s').trans (optionalKey_empty s')) hs'
    have hne : [] ≠ bytesOfBlock (fileDigest s'.params alg m none f) :=
      (List.ne_nil_of_length_pos (by rw [length_bytesOfBlock]; decide)).symm
    rw [decide_eq_false hne] at hcompare
    exact ⟨t, hcompare⟩

end Sys2Proof.Machine
end

