-- ==== Sys2Proof/Proofs/ErrorEntry.lean ====
section
/-!
PROOFS. The error entry of a pending command, which touches STATUS and the pending record alone (spec/60_exceptions.md
R138; O6), and the interrupt output, a level of IE and STATUS (R141; O20).
-/

namespace Sys2Proof.Machine

section Entry

variable {s : State}

/-! ### The interrupt output (R141) -/

/-- In a coherent state an error is a completion too (R116, R138), so DONE alone gives the level. -/
theorem Coherent.irq_eq (h : Coherent s) : irq s = (s.ie && s.status.done) :=
  congrArg (s.ie && ·) (Bool.or_eq_left_iff_imp.mpr h.err_done)

@[simp] theorem irq_resetEngine (s : State) : irq (resetEngine s) = false := rfl

/-- After an error entry the level follows IE. -/
@[simp] theorem irq_commandError (e : ErrCode) (s : State) : irq (commandError e s) = s.ie := Bool.and_true s.ie

/-! ### The error entry (R138) -/

/-- The host reads every register but STATUS as before the error entry. -/
theorem readsKept_commandError (e : ErrCode) (s : State) : ReadsKept (· = .status) s (commandError e s) := by
  intro r hr
  cases r with
  | status => exact absurd rfl hr
  | id | cmd | ctrl | key | din | din2 | dout | dout2 | chain | digest => rfl

/-- While a command is pending the results of VERIFY, PAD and UNPAD are 0, as its accept left them (R112, R118). -/
theorem Coherent.results_clear (h : Coherent s) (hb : s.status.busy = true) :
    s.status.matched = false ∧ s.status.extra = false ∧ s.status.drop = false ∧ s.status.strip = 0 := by
  rw [h.busy_clear hb]
  exact ⟨rfl, rfl, rfl, rfl⟩

end Entry

/-- Settles O6: by O5 the completion of such a word is the error entry of its code. -/
theorem errorEntryChangesOnlyStatus : Obligations.ErrorEntryChangesOnlyStatus := by
  intro w s hfails
  exact ⟨_, (validationDecidesCompletion w s).1 hfails, rfl, rfl, rfl, rfl, rfl, rfl, rfl, rfl, rfl, rfl,
    readsKept_commandError _ s, rfl, rfl, rfl, rfl, rfl, irq_commandError _ s, Coherent.results_clear⟩

/-- Settles O20: the first clause is R141's formula, and the others follow from coherence and from the reset values. -/
theorem interruptLevel : Obligations.InterruptLevel :=
  ⟨fun _ => rfl, fun _ h => h.irq_eq, irq_resetEngine⟩

end Sys2Proof.Machine
end

