-- ==== Sys2Proof/Proofs/EndOfRun.lean ====
section
/-!
PROOFS. Every step answers a next state, so that every number of steps can be taken (spec/70_reset_and_hazards.md R161;
O11). An idle engine with nothing to come from outside stays as it is (R148), so that a command abandoned by a soft
reset never completes (R152; O22).
-/

namespace Sys2Proof.Machine

section Runs

variable {s t : State}

/-- The completion of any word, an error entry or its results, answers a next state (R115, R138). -/
theorem exists_completeWord_eq_next (w : Word) (s : State) : ∃ t, completeWord w s = .next t := by
  rcases completeWord_cases w s with ⟨e, -, hc⟩ | ⟨u, -, hc⟩
  · exact ⟨commandError e s, hc⟩
  · exact ⟨complete u, hc⟩

/-- No step of the machine is a fault or refused (R161). -/
theorem exists_step_eq_next (s : State) : ∃ t, step s = .next t := by
  cases hp : s.pending with
  | none => exact ⟨hostTurn s, step_of_none hp⟩
  | some p =>
    rcases Nat.lt_or_ge 1 p.cyclesLeft with hleft | hdue
    · exact ⟨hostTurn (tick s), step_of_notDue hp hleft⟩
    · obtain ⟨t, hc⟩ := exists_completeWord_eq_next p.word s
      exact ⟨t, (step_of_due hp hdue).trans hc⟩

/-- With nothing pending and nothing to come from outside, a step keeps the whole state (R148, R153). -/
theorem step_of_quiet (hp : s.pending = none) (hq : s.hostQueue = []) : step s = .next s := by
  rw [step_of_none hp, hostTurn_nil hq]

/-- Such a state is the only one that a run from it reaches, by induction on the number of steps (R148). -/
theorem eq_of_runs_of_quiet (hp : s.pending = none) (hq : s.hostQueue = []) {n : Nat} (h : Runs n s t) : t = s := by
  induction n with
  | zero => exact h.symm
  | succ n ih =>
    obtain ⟨u, hstep, hrest⟩ := h
    cases (step_of_quiet hp hq).symm.trans hstep
    exact ih hrest

end Runs

/-- Settles O11, by induction on the number of steps, over all states: each step answers a next state. -/
theorem machineNeverStops : Obligations.MachineNeverStops := by
  intro s n
  induction n generalizing s with
  | zero => exact ⟨s, rfl⟩
  | succ n ih =>
    obtain ⟨u, hstep⟩ := exists_step_eq_next s
    obtain ⟨t, hrest⟩ := ih u
    exact ⟨t, u, hstep, hrest⟩

/-- Settles O22: SRST is never dropped, busy or not, and the reset state it leaves has nothing pending to complete. -/
theorem softResetAbandonsPending : Obligations.SoftResetAbandonsPending := by
  intro s v _ hsrst
  exact ⟨resetEngine s, exchange_write_srst hsrst s, rfl, rfl, irq_resetEngine s,
    fun _ _ hruns => eq_of_runs_of_quiet (resetEngine_pending s) rfl hruns⟩

end Sys2Proof.Machine
end
